-- ==== Sys2Proof/Word.lean ====
section
/-! DEFINITION. The word types of the MIPS-161 (spec/10_state.md R20, spec/00_scope.md R9). -/

namespace Sys2Proof

/-- A 32-bit register value, address or instruction word; bit 0 is the least significant (R9). -/
abbrev Word := BitVec 32

/-- One byte of memory (R80). -/
abbrev Byte := BitVec 8

/-- A halfword (R87). -/
abbrev Half := BitVec 16

/-- The number of a general register, as the 5-bit field of an instruction holds it (R142). -/
abbrev Reg := BitVec 5

/-- The number of a TLB entry, 0..63 (R34, R50). -/
abbrev Slot := BitVec 6

end Sys2Proof
end

