-- ==== Sys2Proof/Machine/Bits.lean ====
section
/-! DEFINITION. Bit fields, extensions and byte order (spec/00_scope.md R9, R10; spec/20_memory.md R85). -/

namespace Sys2Proof

/-- `sext_32` of a halfword (R10). -/
def sext16 (h : Half) : Word := h.signExtend 32

/-- `zext_32` of a halfword (R10). -/
def zext16 (h : Half) : Word := h.zeroExtend 32

/-- `sext_32` of a byte (R10). -/
def sext8 (b : Byte) : Word := b.signExtend 32

/-- `zext_32` of a byte (R10). -/
def zext8 (b : Byte) : Word := b.zeroExtend 32

/-- The word whose bytes at rising addresses are `b0 b1 b2 b3`: big-endian, the byte at the lowest address is the most
significant (spec/20_memory.md R85). -/
def wordOfBytes (b0 b1 b2 b3 : Byte) : Word := b0 ++ b1 ++ b2 ++ b3

/-- The halfword whose bytes at rising addresses are `b0 b1` (spec/20_memory.md R85). -/
def halfOfBytes (b0 b1 : Byte) : Half := b0 ++ b1

/-- The byte of `v` that lies `k` bytes above the word's lowest address (spec/20_memory.md R85). -/
def byteOfWord (v : Word) (k : Nat) : Byte := v.extractLsb' (24 - 8 * k) 8

/-- The byte of `v` that lies `k` bytes above the halfword's lowest address (spec/20_memory.md R85). -/
def byteOfHalf (v : Half) (k : Nat) : Byte := v.extractLsb' (8 - 8 * k) 8

/-- The byte `v[hi:lo]` whose low bit is bit `8 * k`: `r3 r2 r1 r0` of spec/43_load_store.md section 4. -/
def regByte (v : Word) (k : Nat) : Byte := v.extractLsb' (8 * k) 8

/-- The virtual page number of an address, bits 31:12 (spec/10_state.md R39). -/
def pageOf (va : Word) : BitVec 20 := va.extractLsb' 12 20

/-- The 0 or 1 a comparison writes (spec/10_state.md R25). -/
def wordOfBool (b : Bool) : Word := if b then 1#32 else 0#32

end Sys2Proof
end

