-- ==== Sys2Proof/Machine/Flags.lean ====
section
/-! DEFINITION. The processor has no flags (spec/10_state.md R25). What stands for one is the test for signed overflow
that `ADD`, `ADDI` and `SUB` make (spec/40_alu.md R201, R203, R211), computed on 33 bits as those rules write it. -/

namespace Sys2Proof.Machine

/-- Bits 32 and 31 of a 33-bit sum differ: the result does not fit in 32 signed bits. -/
def topBitsDiffer (s : BitVec 33) : Bool := s.getLsbD 32 != s.getLsbD 31

/-- The signed sum overflows (R201, R211). -/
def addOverflows (a b : Word) : Bool := topBitsDiffer (a.signExtend 33 + b.signExtend 33)

/-- The signed difference overflows (R203). -/
def subOverflows (a b : Word) : Bool := topBitsDiffer (a.signExtend 33 - b.signExtend 33)

end Sys2Proof.Machine
end

