-- ==== Sys2Proof/Machine/Memory.lean ====
section
/-! DEFINITION. Physical memory: bytes by 32-bit physical address (spec/20_memory.md R80, R84), as a list of (address,
byte) pairs in one canonical form. Byte order is that of `wordOfBytes` and `byteOfWord` (R85). -/

namespace Sys2Proof.Machine

/-- The listed bytes of physical memory, addresses strictly rising. -/
abbrev Memory := List Host.Cell

/-- What a byte of memory that nothing has written reads as. DESIGN CHOICE, unsafe: log 4. -/
def unlistedByte : Byte := 0#8

/-- The byte at physical address `a`. -/
def Memory.read : Memory → Nat → Byte
  | [], _ => unlistedByte
  | (k, x) :: rest, a => if k = a then x else Memory.read rest a

/-- `m` with the pair `(a, b)` put in its place. -/
def Memory.insert : Memory → Nat → Byte → Memory
  | [], a, b => [(a, b)]
  | (k, x) :: rest, a, b =>
    if a < k then (a, b) :: (k, x) :: rest
    else if a = k then (a, b) :: rest
    else (k, x) :: Memory.insert rest a b

/-- `m` with the byte at `a` written: a byte equal to what an unlisted address reads as is not listed. -/
def Memory.write (m : Memory) (a : Nat) (b : Byte) : Memory :=
  if b = unlistedByte then m.filter (fun c => c.1 != a) else Memory.insert m a b

/-- The canonical form above address `lo`: addresses strictly rising and below 2^32, no entry equal to what an unlisted
address reads as. -/
def Memory.wfFrom : Nat → Memory → Bool
  | _, [] => true
  | lo, (k, x) :: rest => decide (lo ≤ k) && decide (k < 2 ^ 32) && x != unlistedByte && Memory.wfFrom (k + 1) rest

/-- The canonical form. -/
def Memory.wf (m : Memory) : Bool := Memory.wfFrom 0 m

/-- The list address of the byte `k` above physical address `pa`, modulo 2^32. -/
def byteAddr (pa : Word) (k : Nat) : Nat := (pa + BitVec.ofNat 32 k).toNat

/-- The byte at physical address `pa`. -/
def Memory.read8 (m : Memory) (pa : Word) : Byte := m.read (byteAddr pa 0)

/-- The halfword at `pa`, `pa + 1` (R85). -/
def Memory.read16 (m : Memory) (pa : Word) : Half := halfOfBytes (m.read (byteAddr pa 0)) (m.read (byteAddr pa 1))

/-- The word at `pa` .. `pa + 3` (R85). -/
def Memory.read32 (m : Memory) (pa : Word) : Word :=
  wordOfBytes (m.read (byteAddr pa 0)) (m.read (byteAddr pa 1)) (m.read (byteAddr pa 2)) (m.read (byteAddr pa 3))

/-- Write a list of bytes at rising addresses from `pa`. -/
def Memory.writeBytes : Memory → Word → List Byte → Memory
  | m, _, [] => m
  | m, pa, b :: bs => Memory.writeBytes (m.write pa.toNat b) (pa + 1#32) bs

/-- Store a byte. -/
def Memory.write8 (m : Memory) (pa : Word) (v : Byte) : Memory := m.writeBytes pa [v]

/-- Store a halfword (R85). -/
def Memory.write16 (m : Memory) (pa : Word) (v : Half) : Memory := m.writeBytes pa [byteOfHalf v 0, byteOfHalf v 1]

/-- Store a word (R85). -/
def Memory.write32 (m : Memory) (pa : Word) (v : Word) : Memory :=
  m.writeBytes pa [byteOfWord v 0, byteOfWord v 1, byteOfWord v 2, byteOfWord v 3]

/-- The aligned word that holds `pa`: `pa` with its low two bits cleared. -/
def alignedWord (pa : Word) : Word := pa &&& 0xfffffffc#32

end Sys2Proof.Machine
end

