-- ==== Sys2Proof/Config.lean ====
section
/-! DEFINITION. The parameters of spec/00_scope.md R8 and the free values (the spec's `draw`s, R10).

An OPEN parameter is a field of `Config`, which `State` carries as data: a statement about every state then holds for
every choice. A draw is an opaque constant applied to a counter: nothing in Lean can evaluate it. -/

namespace Sys2Proof

/-- The two processor versions (spec/00_scope.md R2). -/
inductive Version where
  | v1
  | v2
  deriving DecidableEq, Repr

/-- The two readings of a division by zero (spec/41_muldiv.md R250, spec/92_eei_decisions.md D6). -/
inductive DivZero where
  /-- HI and LO hold draws and no exception is raised. -/
  | unpredictable
  /-- The hardware raises BP at the `DIV` or `DIVU`. -/
  | trapBp
  deriving DecidableEq, Repr

/-- A coprocessor-0 instruction in user mode with STATUS.c0 = 1 (spec/46_kernel_cp0.md R380, spec/92_eei_decisions.md
D7). -/
inductive UserCp0 where
  | allowed
  | cpuException
  deriving DecidableEq, Repr

/-- What answers a physical address (spec/92_eei_decisions.md D4). "Nothing" is the absence of a region. -/
inductive PhysKind where
  | memory
  | device
  deriving DecidableEq, Repr

/-- A region of the physical address space: the addresses `base`, ..., `base + size - 1`. -/
structure Region where
  base : Nat
  size : Nat
  kind : PhysKind
  deriving DecidableEq, Repr

/-- The parameters of the model (spec/00_scope.md R8). -/
structure Config where
  /-- `VERSION`. -/
  version : Version
  /-- `HAS_LLSC` where `VERSION = V1`; on V2 it is always true. -/
  llscOnV1 : Bool
  /-- `DIV_ZERO`. -/
  divZero : DivZero
  /-- `DIV_OVF`, the HI of −2^31 divided by −1 (spec/41_muldiv.md R243). -/
  divOvfHi : Word
  /-- `DIV_OVF`, the LO of −2^31 divided by −1 (spec/41_muldiv.md R243). -/
  divOvfLo : Word
  /-- `USER_CP0`. -/
  userCp0 : UserCp0
  /-- `PHYS`: the first region that holds an address says what answers there (spec/20_memory.md R104). -/
  phys : List Region
  deriving DecidableEq, Repr

/-- `HAS_LLSC`: true on V2, a parameter on V1 (R8). -/
def Config.hasLLSC (c : Config) : Bool :=
  match c.version with
  | .v2 => true
  | .v1 => c.llscOnV1

/-- `HAS_SYNC` (R8). -/
def Config.hasSync (c : Config) : Bool := c.version == .v2

/-- `HAS_SELECT` (R8). -/
def Config.hasSelect (c : Config) : Bool := c.version == .v2

/-- `HAS_FEAT`: CFEAT and IFEAT exist (R8). -/
def Config.hasFeat (c : Config) : Bool := c.version == .v2

/-- The `CACHE` instruction exists (undocumented) on V2 only (spec/30_encoding.md R161). -/
def Config.hasCache (c : Config) : Bool := c.version == .v2

/-- The draw behind an observation of RANDOM.SLOT (spec/10_state.md R35); `randomSlot` brings it into 8..63. Log 8. -/
opaque Config.randomDraw : Nat → Nat

/-- The draw {0..3} for CAUSE.CE after an exception other than CPU (spec/60_exceptions.md R442). Log 9. -/
opaque Config.ceDraw : Nat → BitVec 2

/-- The draw {0..63} for INDEX.SLOT after a `TLBP` that finds nothing (spec/46_kernel_cp0.md R388). Log 10. -/
opaque Config.probeSlotDraw : Nat → Slot

/-- The draw {true, false} for the success of an `SC` whose reservation holds (spec/43_load_store.md R313). Log 11. -/
opaque Config.scDraw : Nat → Bool

/-- The draw for HI after a division by zero (spec/41_muldiv.md R250, reading a). Log 13. -/
opaque Config.divZeroHiDraw : Nat → Word

/-- The draw for LO after a division by zero (spec/41_muldiv.md R250, reading a). Log 13. -/
opaque Config.divZeroLoDraw : Nat → Word

/-- The word that a device answers a read or a fetch with (spec/20_memory.md R89, R100; U23 of
spec/93_implementation_defined.md). Log 23. -/
opaque Config.deviceDraw : Nat → Word

/-- The draw for the TLBHI image of each TLB entry after reset (spec/46_kernel_cp0.md R390). Log 7. -/
opaque Config.tlbResetHi : Slot → Word

/-- The draw for the TLBLO image of each TLB entry after reset (spec/46_kernel_cp0.md R390). Log 7. -/
opaque Config.tlbResetLo : Slot → Word

end Sys2Proof
end

