-- ==== Sys2Proof/Machine/Registers.lean ====
section
/-! DEFINITION. The coprocessor-0 registers and the TLB entry, field by field, and the word each reads as
(spec/10_state.md R33 to R50; spec/46_kernel_cp0.md R381, R382). Bits of class `zero` or `fixed` are not stored: a read
gives 0 there and a write discards them. -/

namespace Sys2Proof.Machine

/-- INDEX, $0 (R34). -/
structure IndexReg where
  /-- Bit 31: the last `TLBP` failed. -/
  p : Bool
  /-- Bits 13:8. -/
  slot : Slot
  deriving DecidableEq, Repr

/-- TLBLO, $2 (R36). -/
structure TlbLo where
  /-- Bits 31:12: physical page number. -/
  ppage : BitVec 20
  /-- Bit 11: noncached; no observable effect (spec/20_memory.md R96). -/
  n : Bool
  /-- Bit 10: dirty, writes are permitted. -/
  d : Bool
  /-- Bit 9: valid. -/
  v : Bool
  /-- Bit 8: global, the ASID is ignored in matching. -/
  g : Bool
  deriving DecidableEq, Repr

/-- TLBHI, $10 (R39). -/
structure TlbHi where
  /-- Bits 31:12: virtual page number. -/
  vpage : BitVec 20
  /-- Bits 11:6: address space id; in the register, the current one. -/
  asid : BitVec 6
  deriving DecidableEq, Repr

/-- CONTEXT, $4 (R37). -/
structure ContextReg where
  /-- Bits 31:21. -/
  ptbase : BitVec 11
  /-- Bits 20:2. -/
  vshift : BitVec 19
  deriving DecidableEq, Repr

/-- STATUS, $12 (R40 to R43). -/
structure Status where
  /-- Bits 31:28, c3 c2 c1 c0: bit `z` of this field is `c<z>`. -/
  cu : BitVec 4
  /-- Bit 22: boot exceptions flag. -/
  b : Bool
  /-- Bit 21: duplicate TLB entries flag. -/
  t : Bool
  /-- Bit 20: soft reset flag. -/
  s : Bool
  /-- Bit 19: NMI flag. -/
  n : Bool
  /-- Bits 15:10: hardware interrupt enables, bit `k` is line `k`. -/
  h : BitVec 6
  /-- Bits 9:8: software interrupt enables. -/
  f : BitVec 2
  /-- Bit 5: old mode. -/
  kuo : Bool
  /-- Bit 4: old interrupt enable. -/
  ieo : Bool
  /-- Bit 3: previous mode. -/
  kup : Bool
  /-- Bit 2: previous interrupt enable. -/
  iep : Bool
  /-- Bit 1: current mode, 1 is user mode. -/
  kuc : Bool
  /-- Bit 0: current interrupt enable. -/
  iec : Bool
  deriving DecidableEq, Repr

/-- CAUSE, $13 (R44), less the H field, which is the live interrupt lines and not storage. -/
structure Cause where
  /-- Bit 31: the exception was taken in a branch delay slot. -/
  bd : Bool
  /-- Bits 29:28: coprocessor number. -/
  ce : BitVec 2
  /-- Bits 9:8: software interrupt state. -/
  f : BitVec 2
  /-- Bits 5:2: exception code. -/
  exc : BitVec 4
  deriving DecidableEq, Repr

/-- A TLB entry: exactly the defined fields of a TLBHI image and a TLBLO image (R50). -/
structure TlbEntry where
  hi : TlbHi
  lo : TlbLo
  deriving DecidableEq, Repr

/-- The 64 entries (R50). -/
abbrev Tlb := Vector TlbEntry 64

/-- INDEX as a word (R381). -/
def IndexReg.toWord (r : IndexReg) : Word := BitVec.ofBool r.p ++ 0#17 ++ r.slot ++ 0#8

/-- RANDOM as a word, from the SLOT drawn (R381). -/
def randomWord (slot : Slot) : Word := 0#18 ++ slot ++ 0#8

/-- TLBLO as a word (R381). -/
def TlbLo.toWord (r : TlbLo) : Word :=
  r.ppage ++ BitVec.ofBool r.n ++ BitVec.ofBool r.d ++ BitVec.ofBool r.v ++ BitVec.ofBool r.g ++ 0#8

/-- TLBHI as a word (R381). -/
def TlbHi.toWord (r : TlbHi) : Word := r.vpage ++ r.asid ++ 0#6

/-- CONTEXT as a word (R381). -/
def ContextReg.toWord (r : ContextReg) : Word := r.ptbase ++ r.vshift ++ 0#2

/-- STATUS as a word: 0 in every fixed and zero position (R381). -/
def Status.toWord (r : Status) : Word :=
  r.cu ++ 0#5 ++ BitVec.ofBool r.b ++ BitVec.ofBool r.t ++ BitVec.ofBool r.s ++ BitVec.ofBool r.n ++ 0#3 ++ r.h ++ r.f
    ++ 0#2 ++ BitVec.ofBool r.kuo ++ BitVec.ofBool r.ieo ++ BitVec.ofBool r.kup ++ BitVec.ofBool r.iep
    ++ BitVec.ofBool r.kuc ++ BitVec.ofBool r.iec

/-- CAUSE as a word, with the live lines in bits 15:10 (R381). -/
def Cause.toWord (r : Cause) (irq : BitVec 6) : Word :=
  BitVec.ofBool r.bd ++ 0#1 ++ r.ce ++ 0#12 ++ irq ++ r.f ++ 0#2 ++ r.exc ++ 0#2

/-- What `MTC0` stores in TLBLO (R382). -/
def TlbLo.ofWord (v : Word) : TlbLo where
  ppage := v.extractLsb' 12 20
  n := v.getLsbD 11
  d := v.getLsbD 10
  v := v.getLsbD 9
  g := v.getLsbD 8

/-- What `MTC0` stores in TLBHI (R382). -/
def TlbHi.ofWord (v : Word) : TlbHi where
  vpage := v.extractLsb' 12 20
  asid := v.extractLsb' 6 6

/-- What `MTC0` stores in STATUS: bits 31:28, 22:19, 15:8 and 5:0 (R382). -/
def Status.ofWord (v : Word) : Status where
  cu := v.extractLsb' 28 4
  b := v.getLsbD 22
  t := v.getLsbD 21
  s := v.getLsbD 20
  n := v.getLsbD 19
  h := v.extractLsb' 10 6
  f := v.extractLsb' 8 2
  kuo := v.getLsbD 5
  ieo := v.getLsbD 4
  kup := v.getLsbD 3
  iep := v.getLsbD 2
  kuc := v.getLsbD 1
  iec := v.getLsbD 0

/-- The SLOT field `MTC0` stores in INDEX, bits 13:8 (R382). -/
def slotField (v : Word) : Slot := v.extractLsb' 8 6

/-- The PTBASE field `MTC0` stores in CONTEXT, bits 31:21 (R382). -/
def ptbaseField (v : Word) : BitVec 11 := v.extractLsb' 21 11

/-- The F field `MTC0` stores in CAUSE, bits 9:8 (R382). -/
def softField (v : Word) : BitVec 2 := v.extractLsb' 8 2

/-- Trap entry's shift of the mode stack (spec/60_exceptions.md R444). -/
def Status.push (r : Status) : Status :=
  { r with kuo := r.kup, ieo := r.iep, kup := r.kuc, iep := r.iec, kuc := false, iec := false }

/-- `RFE`'s shift of the mode stack; the old pair keeps its value (spec/46_kernel_cp0.md R392). -/
def Status.pop (r : Status) : Status :=
  { r with kuc := r.kup, iec := r.iep, kup := r.kuo, iep := r.ieo }

/-- `CopUsable(z)` for z = 1, 2, 3, and the enable bit `c<z>` (spec/45_coprocessor.md R351). -/
def Status.copEnabled (r : Status) (z : BitVec 2) : Bool := r.cu.getLsbD z.toNat

end Sys2Proof.Machine
end

