-- ==== Sys2Proof/Machine/ResetValues.lean ====
section
/-! DEFINITION. The values the machine holds right after reset, beyond those spec/10_state.md R60 states (STATUS.B = 1,
KUc = IEc = 0, pc, npc, in_delay, LLbit, idle, shutdown, which `State.reset` gives). -/

namespace Sys2Proof.Machine

/-- The parameters of spec/00_scope.md R8 in the reset state. DESIGN CHOICE, unsafe: log 2, and log 3 for `PHYS`, which is
memory over the whole 32-bit physical space. -/
def resetConfig : Config where
  version := .v2
  llscOnV1 := false
  divZero := .unpredictable
  divOvfHi := 0x00000000#32
  divOvfLo := 0x80000000#32
  userCp0 := .cpuException
  phys := [⟨0, 2 ^ 32, .memory⟩]

/-- The general registers: x[0] is 0 (R21), the others are undefined at reset (R60). DESIGN CHOICE 0, unsafe: log 5. -/
def resetGpr : Vector Word 32 := Vector.replicate 32 0#32

/-- STATUS: B = 1, KUc = IEc = 0 (R60); every other field is undefined. DESIGN CHOICE 0, unsafe: log 6. -/
def resetStatus : Status where
  cu := 0#4
  b := true
  t := false
  s := false
  n := false
  h := 0#6
  f := 0#2
  kuo := false
  ieo := false
  kup := false
  iep := false
  kuc := false
  iec := false

/-- TLB entry `i` after reset: some value, drawn once (spec/46_kernel_cp0.md R390). A free value: log 7. -/
def resetTlbEntry (i : Slot) : TlbEntry where
  hi := TlbHi.ofWord (Config.tlbResetHi i)
  lo := TlbLo.ofWord (Config.tlbResetLo i)

/-- The TLB after reset. -/
def resetTlb : Tlb := Vector.ofFn fun i => resetTlbEntry (BitVec.ofFin i)

end Sys2Proof.Machine
end

