-- ==== Sys2Proof/Machine/State.lean ====
section
/-! DEFINITION. The state of one MIPS-161 processor and its memory (spec/10_state.md), the outside's events, the faults
and the refusals, and the state right after reset (R60). -/

namespace Sys2Proof.Machine

/-- What the outside of the processor may do at a step boundary (log 16). -/
inductive External where
  /-- The six interrupt lines take these levels, bit `n` being line `n` (spec/10_state.md R54). -/
  | lines (level : BitVec 6)
  /-- Another processor or a device writes the byte at a physical address (spec/43_load_store.md R314; log 17). -/
  | busWrite (pa : Word) (b : Byte)
  /-- A soft reset (spec/60_exceptions.md R460; log 18). -/
  | softReset
  /-- A non-maskable interrupt (spec/60_exceptions.md R460; log 18). -/
  | nmi
  /-- A processor reset; the argument is what the TLB then holds, which no rule determines
  (spec/70_reset_and_hazards.md R490, spec/46_kernel_cp0.md R390; log 19). -/
  | hardReset (tlb : Tlb)
  deriving DecidableEq, Repr

/-- The state. -/
structure State where
  /-- x[0] .. x[31] (R20); `readReg` makes x[0] read 0 (R21). -/
  gpr : Vector Word 32
  /-- HI (R24). -/
  hi : Word
  /-- LO (R24). -/
  lo : Word
  /-- The address of the instruction being executed (R26). -/
  pc : Word
  /-- The address of the instruction after it (R27). -/
  npc : Word
  /-- The instruction at `pc` is in a branch delay slot (R28). -/
  inDelay : Bool
  /-- INDEX (R34). -/
  index : IndexReg
  /-- TLBLO (R36). -/
  tlblo : TlbLo
  /-- CONTEXT (R37). -/
  context : ContextReg
  /-- BADVADDR (R38). -/
  badvaddr : Word
  /-- TLBHI (R39). -/
  tlbhi : TlbHi
  /-- STATUS (R40). -/
  status : Status
  /-- CAUSE (R44). -/
  cause : Cause
  /-- EPC (R45). -/
  epc : Word
  /-- The TLB (R50). -/
  tlb : Tlb
  /-- A load-linked reservation is held (R51). -/
  llbit : Bool
  /-- Its physical address (R51). -/
  lladdr : Word
  /-- The processor sleeps in `WAIT` (R52). -/
  idle : Bool
  /-- A machine check has stopped the processor (R53). -/
  shutdown : Bool
  /-- The levels of the six interrupt lines, bit `n` being line `n` (R54). -/
  irq : BitVec 6
  /-- Physical memory. -/
  mem : Memory
  /-- The model's own: what the outside does at the coming step boundaries, one list a boundary (log 16). -/
  inputs : List (List External)
  /-- The model's own: how many free values have been drawn (log 32). -/
  draws : Nat
  /-- The model's own: the parameters of spec/00_scope.md R8, which no step changes (log 2). -/
  cfg : Config
  deriving DecidableEq, Repr

/-- Why the machine stops. -/
inductive Fault where
  /-- Raised by `step` when a machine check has shut the processor down (R53, spec/60_exceptions.md R462): no step ever
  follows. Safe: the spec says the processor is unrecoverable. Log 20. -/
  | shutdown
  deriving DecidableEq, Repr

/-- Where the spec gives the situation no meaning (its `refuse`, spec/00_scope.md R10). All are safe: nothing is claimed
of what the hardware then does. -/
inductive Refusal where
  /-- Raised by `exec` for an instruction that has no meaning in this model yet; no arm answers it now. -/
  | notModelled (mnemonic : String)
  /-- Raised by `step` for a word whose must-be-zero bits are not zero (spec/30_encoding.md R149). -/
  | mustBeZero
  /-- Raised by `step` for a word of a usable coprocessor that the spec does not define (spec/45_coprocessor.md R362,
  R352). -/
  | copUndefined (z : BitVec 2)
  /-- Raised by every branch and jump that executes in a branch delay slot (spec/42_branch_jump.md R262). -/
  | branchInDelaySlot
  /-- Raised by `JALR` with `rd = rs`, `BLTZAL` and `BGEZAL` with `rs = 31` (spec/42_branch_jump.md R266, R273, R274). -/
  | notRestartable
  /-- Raised by an instruction of coprocessor 1, 2 or 3 whose enable bit is set (spec/45_coprocessor.md R352). -/
  | coprocessorAbsent (z : BitVec 2)
  /-- Raised by `MFC0` and `MTC0` for a register and select outside spec/10_state.md R32 (R49). -/
  | cp0RegisterUndefined (rd : Reg) (sel : BitVec 3)
  /-- Raised by `MTC0` to RANDOM (spec/10_state.md R35). -/
  | randomWrite
  /-- Raised by `MTC0` that sets STATUS.T, S or N from 0 to 1 (spec/10_state.md R42). -/
  | statusFlagSet
  /-- Raised by `CACHE` on V2 (spec/44_system_sync.md R336). -/
  | cacheUndocumented
  deriving DecidableEq, Repr

/-- The outcome of an instruction or a step. -/
abbrev Result := Host.Outcome State Fault Refusal

/-- The machine right after reset (R60): pc at the Reset vector, kernel mode, interrupts disabled, STATUS.B set, no
reservation, neither idle nor shut down. Every register the spec leaves undefined holds the value log 5 and log 6 name;
the TLB holds draws (log 7); memory lists nothing (log 4). -/
def State.reset : State where
  gpr := resetGpr
  hi := 0#32
  lo := 0#32
  pc := 0xbfc00000#32
  npc := 0xbfc00004#32
  inDelay := false
  index := ⟨false, 0#6⟩
  tlblo := ⟨0#20, false, false, false, false⟩
  context := ⟨0#11, 0#19⟩
  badvaddr := 0#32
  tlbhi := ⟨0#20, 0#6⟩
  status := resetStatus
  cause := ⟨false, 0#2, 0#2, 0#4⟩
  epc := 0#32
  tlb := resetTlb
  llbit := false
  lladdr := 0#32
  idle := false
  shutdown := false
  irq := 0#6
  mem := []
  inputs := []
  draws := 0
  cfg := resetConfig

end Sys2Proof.Machine
end

