-- ==== Sys2Proof/Machine/Ops.lean ====
section
/-! DEFINITION. The shared operations: registers, taking an exception and returning from one, the TLB, translation and
memory access, the draws, interrupts, and what the outside does at a step boundary. -/

namespace Sys2Proof.Machine

/-! ## General registers and the end of an instruction -/

/-- `x[r]`: register 0 reads 0 whatever was written (spec/10_state.md R21). -/
def readReg (s : State) (r : Reg) : Word := if r = 0#5 then 0#32 else s.gpr[r.toNat]'r.isLt

/-- `x[r] <- v`: a write to register 0 is discarded (spec/10_state.md R21). -/
def setReg (s : State) (r : Reg) (v : Word) : State :=
  if r = 0#5 then s else { s with gpr := s.gpr.set r.toNat v r.isLt }

/-- HI and LO both written (spec/41_muldiv.md R240). -/
def setHiLo (s : State) (hi lo : Word) : State := { s with hi := hi, lo := lo }

/-- The end of an instruction that is no branch: `pc <- npc; npc <- npc + 4; in_delay <- false` (spec/00_scope.md R11). -/
def advance (s : State) : State := { s with pc := s.npc, npc := s.npc + 4#32, inDelay := false }

/-- The end of a branch or jump: the delay slot is next, then the target if the branch is taken
(spec/42_branch_jump.md R260). -/
def branch (s : State) (taken : Bool) (target : Word) : State :=
  { s with pc := s.npc, npc := if taken then target else s.npc + 4#32, inDelay := true }

/-- An instruction that writes one general register and goes on. -/
def regResult (s : State) (rd : Reg) (v : Word) : Result := .next (advance (setReg s rd v))

/-! ## Exceptions (spec/60_exceptions.md) -/

/-- The thirteen exceptions (R421) with what each records: the bad address, whether a TLB miss goes to the UTLB vector,
the coprocessor number. -/
inductive Exception where
  | irq
  | mod (va : Word)
  | tlbl (va : Word) (utlb : Bool)
  | tlbs (va : Word) (utlb : Bool)
  | adel (va : Word)
  | ades (va : Word)
  | ibe
  | dbe
  | sys
  | bp
  | ri
  | cpu (z : BitVec 2)
  | ovf
  deriving DecidableEq, Repr

/-- The exception code written to CAUSE.EXC (R421). -/
def Exception.code : Exception → BitVec 4
  | .irq => 0#4
  | .mod _ => 1#4
  | .tlbl _ _ => 2#4
  | .tlbs _ _ => 3#4
  | .adel _ => 4#4
  | .ades _ => 5#4
  | .ibe => 6#4
  | .dbe => 7#4
  | .sys => 8#4
  | .bp => 9#4
  | .ri => 10#4
  | .cpu _ => 11#4
  | .ovf => 12#4

/-- The bad address: the MMU exceptions MOD, TLBL, TLBS, ADEL and ADES have one (R424, R443). -/
def Exception.badAddress : Exception → Option Word
  | .mod va => some va
  | .tlbl va _ => some va
  | .tlbs va _ => some va
  | .adel va => some va
  | .ades va => some va
  | .irq | .ibe | .dbe | .sys | .bp | .ri | .cpu _ | .ovf => none

/-- The exception goes through the UTLB vector (R445). -/
def Exception.isUtlb : Exception → Bool
  | .tlbl _ utlb => utlb
  | .tlbs _ utlb => utlb
  | .irq | .mod _ | .adel _ | .ades _ | .ibe | .dbe | .sys | .bp | .ri | .cpu _ | .ovf => false

/-- CAUSE.CE at trap entry: the coprocessor number for CPU, a draw for every other exception (R442; log 9). -/
def Exception.ce (e : Exception) (draws : Nat) : BitVec 2 :=
  match e with
  | .cpu z => z
  | .irq | .mod _ | .tlbl _ _ | .tlbs _ _ | .adel _ | .ades _ | .ibe | .dbe | .sys | .bp | .ri | .ovf =>
    Config.ceDraw draws

/-- `Vector(B, utlb)` (R445). -/
def vector (b utlb : Bool) : Word :=
  match b, utlb with
  | true, true => 0xbfc00100#32
  | true, false => 0xbfc00180#32
  | false, true => 0x80000000#32
  | false, false => 0x80000080#32

/-- BADVADDR, TLBHI.VPAGE and CONTEXT.VSHIFT loaded from a bad address (R443, spec/10_state.md R37). -/
def loadBadAddress (s : State) : Option Word → State
  | none => s
  | some va =>
    { s with
      badvaddr := va
      tlbhi := { s.tlbhi with vpage := pageOf va }
      context := { s.context with vshift := va.extractLsb' 12 19 } }

/-- Trap entry (R440 to R447): EPC and BD, EXC and CE, the bad address, the mode stack, the reservation, the vector.
The count of draws goes on whether or not CE is drawn (log 32). -/
def trapEntry (e : Exception) (s : State) : State :=
  { loadBadAddress s e.badAddress with
    epc := if s.inDelay then s.pc - 4#32 else s.pc
    cause := { s.cause with bd := s.inDelay, exc := e.code, ce := e.ce s.draws }
    draws := s.draws + 1
    status := s.status.push
    llbit := false
    pc := vector s.status.b e.isUtlb
    npc := vector s.status.b e.isUtlb + 4#32
    inDelay := false }

/-- `raise`: the instruction is abandoned with none of its writes done (spec/00_scope.md R10, R446). -/
def raise (e : Exception) (s : State) : Result := .next (trapEntry e s)

/-- The return from exception: the mode stack is shifted back (spec/46_kernel_cp0.md R392). The jump it stands in the
delay slot of supplies the address (R455). -/
def returnFromException (s : State) : State := { s with status := s.status.pop }

/-- Machine check: the processor shuts down, and the instruction that caused it does not complete (R462; log 20). -/
def shutDown (s : State) : State := { s with shutdown := true }

/-! ## Draws -/

/-- One more free value has been drawn (log 32). -/
def countDraw (s : State) : State := { s with draws := s.draws + 1 }

/-- An observation of RANDOM.SLOT: a draw in 8..63 (spec/10_state.md R35; log 8). -/
def randomSlot (k : Nat) : Slot := BitVec.ofNat 6 (8 + Config.randomDraw k % 56)

/-! ## The TLB (spec/10_state.md R50; spec/20_memory.md R90, R92) -/

/-- All slot numbers, 0..63. -/
def allSlots : List Slot := (List.range 64).map (BitVec.ofNat 6)

/-- `TLB[i]`. -/
def tlbAt (t : Tlb) (i : Slot) : TlbEntry := t[i.toNat]'i.isLt

/-- `TLB[i] <- e`. -/
def tlbSet (t : Tlb) (i : Slot) (e : TlbEntry) : Tlb := t.set i.toNat e i.isLt

/-- The entry matches a page number under an address-space id; V is not considered (R90). -/
def TlbEntry.hits (e : TlbEntry) (vpage : BitVec 20) (asid : BitVec 6) : Bool :=
  e.hi.vpage == vpage && (e.hi.asid == asid || e.lo.g)

/-- Two entries can match the same virtual address (R92). -/
def TlbEntry.clashes (e f : TlbEntry) : Bool :=
  e.hi.vpage == f.hi.vpage && (e.hi.asid == f.hi.asid || e.lo.g || f.lo.g)

/-- The slots whose entries match. -/
def tlbHits (t : Tlb) (vpage : BitVec 20) (asid : BitVec 6) : List Slot :=
  allSlots.filter fun i => (tlbAt t i).hits vpage asid

/-- Some slot other than `i` holds an entry that can match what `e` matches (spec/46_kernel_cp0.md R387). -/
def tlbClash (t : Tlb) (i : Slot) (e : TlbEntry) : Bool :=
  allSlots.any fun j => j != i && (tlbAt t j).clashes e

/-! ## Translation and access (spec/20_memory.md) -/

/-- The four segments (R81). -/
inductive Segment where
  | kuseg
  | kseg0
  | kseg1
  | kseg2
  deriving DecidableEq, Repr

/-- The segment of a virtual address (R81). -/
def segmentOf (va : Word) : Segment :=
  if va.toNat < 0x80000000 then .kuseg
  else if va.toNat < 0xa0000000 then .kseg0
  else if va.toNat < 0xc0000000 then .kseg1
  else .kseg2

/-- The kind of an access (R91). -/
inductive AccessKind where
  | fetch
  | load
  | store
  deriving DecidableEq, Repr

/-- What an access comes to before any byte moves. -/
inductive Access where
  /-- The physical address. -/
  | ok (pa : Word)
  /-- An exception. -/
  | raise (e : Exception)
  /-- Two or more TLB entries match (R92). -/
  | machineCheck
  /-- A device answers this physical address (R89). -/
  | device (pa : Word)
  deriving DecidableEq, Repr

/-- The address error of an access (R82, R86). -/
def addressError (k : AccessKind) (va : Word) : Exception :=
  match k with
  | .store => .ades va
  | .fetch | .load => .adel va

/-- The TLB exception of an access (R91). -/
def tlbError (k : AccessKind) (va : Word) (utlb : Bool) : Exception :=
  match k with
  | .store => .tlbs va utlb
  | .fetch | .load => .tlbl va utlb

/-- The bus error of an access (R99). -/
def busError (k : AccessKind) : Exception :=
  match k with
  | .fetch => .ibe
  | .load | .store => .dbe

/-- The direct-mapped physical address: `va[28:0]` zero-extended (R83). -/
def directAddress (va : Word) : Word := 0#3 ++ va.extractLsb' 0 29

/-- The TLB-mapped part of translation (R91, R98): none, one or several entries match. -/
def translateMapped (s : State) (va : Word) (k : AccessKind) : Access :=
  match tlbHits s.tlb (pageOf va) s.tlbhi.asid with
  | [] => .raise (tlbError k va (!va.msb))
  | [i] =>
    let e := tlbAt s.tlb i
    if !e.lo.v then .raise (tlbError k va false)
    else if k = .store ∧ !e.lo.d then .raise (.mod va)
    else .ok (e.lo.ppage ++ va.extractLsb' 0 12)
  | _ :: _ :: _ => .machineCheck

/-- `Translate(va, k, n, check_align)` (R98). -/
def translate (s : State) (va : Word) (k : AccessKind) (n : Nat) (checkAlign : Bool) : Access :=
  if checkAlign ∧ va.toNat % n ≠ 0 then .raise (addressError k va)
  else if s.status.kuc ∧ va.msb then .raise (addressError k va)
  else
    match segmentOf va with
    | .kseg0 | .kseg1 => .ok (directAddress va)
    | .kuseg | .kseg2 => translateMapped s va k

/-- `PHYS`: what answers a physical address (R104; log 3). -/
def physAt (c : Config) (pa : Word) : Option PhysKind :=
  (c.phys.find? fun r => decide (r.base ≤ pa.toNat) && decide (pa.toNat < r.base + r.size)).map Region.kind

/-- The bus: nothing answers (R99), a device answers (R89), or memory does. -/
def busAddress (s : State) (k : AccessKind) (pa : Word) : Access :=
  match physAt s.cfg pa with
  | none => .raise (busError k)
  | some .device => .device pa
  | some .memory => .ok pa

/-- Translation and then the bus: the physical address of an access to memory (R100, R101, R102). -/
def memAddress (s : State) (va : Word) (k : AccessKind) (n : Nat) (checkAlign : Bool) : Access :=
  match translate s va k n checkAlign with
  | .ok pa => busAddress s k pa
  | .raise e => .raise e
  | .machineCheck => .machineCheck
  | .device pa => .device pa

/-- Take the exception or shut down, else go on: with `go` where memory answers the physical address, with `dev` where a
device does. -/
def Access.andThen (a : Access) (s : State) (go dev : Word → Result) : Result :=
  match a with
  | .ok pa => go pa
  | .raise e => Sys2Proof.Machine.raise e s
  | .machineCheck => .next (shutDown s)
  | .device pa => dev pa

/-- The bytes a device answers a read with, in the aligned word that holds the physical address: the device's, a free value
(R89, R100; log 23). -/
def deviceBytes (s : State) (pa : Word) : Memory := Memory.write32 [] (alignedWord pa) (Config.deviceDraw s.draws)

/-- A load: the value that `value` reads at the physical address, from memory or from the device there, goes to `rt` (R100,
spec/43_load_store.md R290). -/
def loadResult (s : State) (rt : Reg) (ea : Word) (n : Nat) (checkAlign : Bool) (value : Memory → Word → Word) : Result :=
  (memAddress s ea .load n checkAlign).andThen s (fun pa => regResult s rt (value s.mem pa)) fun pa =>
    regResult (countDraw s) rt (value (deviceBytes s pa) pa)

/-- A store: `update` writes memory at the physical address; what is stored to a device is the device's, and no memory
changes (R101, spec/43_load_store.md R290; log 23). -/
def storeResult (s : State) (ea : Word) (n : Nat) (checkAlign : Bool) (update : Word → Memory) : Result :=
  (memAddress s ea .store n checkAlign).andThen s (fun pa => .next (advance { s with mem := update pa })) fun _ =>
    .next (advance s)

/-! ## Coprocessor usability (spec/45_coprocessor.md R351, spec/46_kernel_cp0.md R380) -/

/-- Coprocessor 0 is usable: always in kernel mode; in user mode only with c0 = 1 and `USER_CP0 = allowed` (log 15). -/
def cp0Usable (s : State) : Bool :=
  !s.status.kuc || (s.status.copEnabled 0#2 && s.cfg.userCp0 == .allowed)

/-- The check every coprocessor-0 instruction makes before any other effect (R380). -/
def cp0Guard (s : State) (go : Result) : Result := if cp0Usable s then go else raise (.cpu 0#2) s

/-- Every instruction of coprocessor z = 1, 2, 3: CPU(z) with its enable bit clear (R351); there is no coprocessor behind
a set one (R352). -/
def copResult (z : BitVec 2) (s : State) : Result :=
  if s.status.copEnabled z then .refused (.coprocessorAbsent z) else raise (.cpu z) s

/-! ## Interrupts -/

/-- `InterruptPending()` (spec/60_exceptions.md R450). -/
def interruptPending (s : State) : Bool :=
  s.status.iec && ((s.irq &&& s.status.h) != 0#6 || (s.cause.f &&& s.status.f) != 0#2)

/-! ## What the outside does at a step boundary (log 16 to log 19) -/

/-- Entry at the Reset vector on a soft reset or an NMI, less the flag that tells which (spec/60_exceptions.md R460). -/
def resetEntry (s : State) : State :=
  { s with
    pc := 0xbfc00000#32
    npc := 0xbfc00004#32
    inDelay := false
    status := { s.status with b := true, kuc := false, iec := false } }

/-- Soft reset: STATUS.S is set (spec/60_exceptions.md R460). -/
def softReset (s : State) : State := resetEntry { s with status := { s.status with s := true } }

/-- Non-maskable interrupt: STATUS.N is set (spec/60_exceptions.md R460). -/
def nonMaskable (s : State) : State := resetEntry { s with status := { s.status with n := true } }

/-- Processor reset: every register is as after `State.reset`, the TLB holds `tlb`; memory, the lines and the parameters
are not the processor's (spec/70_reset_and_hazards.md R490; log 19). -/
def hardReset (s : State) (tlb : Tlb) : State :=
  { State.reset with tlb := tlb, mem := s.mem, irq := s.irq, inputs := s.inputs, draws := s.draws, cfg := s.cfg }

/-- Another processor or a device writes a byte: a reservation on the aligned word is broken, whether memory or a device
answers there (spec/43_load_store.md R314, spec/20_memory.md R101), and memory changes where memory answers. Where nothing
answers there is no write (R101; log 17). -/
def busWrite (s : State) (pa : Word) (b : Byte) : State :=
  match physAt s.cfg pa with
  | none => s
  | some kind =>
    { s with
      mem := if kind = .memory then s.mem.write pa.toNat b else s.mem
      llbit := s.llbit && alignedWord pa != alignedWord s.lladdr }

/-- The six lines take their levels; an active one clears `idle` (spec/10_state.md R52, R54; log 36). -/
def setLines (s : State) (level : BitVec 6) : State := { s with irq := level, idle := s.idle && level == 0#6 }

/-- One event of the outside. -/
def applyExternal (s : State) : External → State
  | .lines level => setLines s level
  | .busWrite pa b => Sys2Proof.Machine.busWrite s pa b
  | .softReset => Sys2Proof.Machine.softReset s
  | .nmi => nonMaskable s
  | .hardReset tlb => Sys2Proof.Machine.hardReset s tlb

/-- The step boundary: the next list of events happens, in order. With no list left, nothing happens. -/
def beginStep (s : State) : State :=
  match s.inputs with
  | [] => s
  | events :: rest => events.foldl applyExternal { s with inputs := rest }

end Sys2Proof.Machine
end

