-- ==== Sys2Proof/Machine/Operands.lean ====
section
/-! DEFINITION. The operand forms (spec/30_encoding.md R143): effective addresses, branch and jump targets, link values,
shift counts, upper immediates. -/

namespace Sys2Proof.Machine

/-- `ea <- (x[rs] + sext_32(imm)) mod 2^32` (spec/43_load_store.md R290). -/
def effectiveAddress (s : State) (rs : Reg) (imm : Half) : Word := readReg s rs + sext16 imm

/-- `b = ea[1:0]` (spec/43_load_store.md section 4). -/
def byteInWord (ea : Word) : Nat := ea.toNat % 4

/-- `(pc + 4) + sext_32(imm : 00)` (R143). -/
def branchTarget (pc : Word) (imm : Half) : Word := (pc + 4#32) + (imm ++ 0#2 : BitVec 18).signExtend 32

/-- `(pc + 4)[31:28] : target : 00` (R143). -/
def jumpTarget (pc : Word) (target : BitVec 26) : Word := (pc + 4#32).extractLsb' 28 4 ++ target ++ 0#2

/-- The link value `pc + 8` (spec/42_branch_jump.md R276). -/
def linkAddress (pc : Word) : Word := pc + 8#32

/-- The shift count of `SLLV`, `SRLV`, `SRAV`: the low five bits of `x[rs]` (R143). -/
def shiftCount (v : Word) : Nat := v.toNat % 32

/-- `imm : 0x0000` (R143). -/
def upperImmediate (imm : Half) : Word := imm ++ 0x0000#16

/-- The word `LWL` leaves in `rt`, from the aligned memory word, the old `rt` and `b` (spec/43_load_store.md R300). -/
def lwlMerge (w old : Word) (b : Nat) : Word := (w <<< (8 * b)) ||| (old &&& BitVec.ofNat 32 (2 ^ (8 * b) - 1))

/-- The word `LWR` leaves in `rt` (spec/43_load_store.md R301). -/
def lwrMerge (w old : Word) (b : Nat) : Word :=
  (w >>> (8 * (3 - b))) ||| (old &&& ~~~(0xffffffff#32 >>> (8 * (3 - b))))

/-- The bytes `SWL` stores from `ea` up: the most significant `4 - b` bytes of `x[rt]` (spec/43_load_store.md R302). -/
def swlBytes (v : Word) (b : Nat) : List Byte :=
  [regByte v 3, regByte v 2, regByte v 1, regByte v 0].take (4 - b)

/-- The bytes `SWR` stores from the aligned word's start up to `ea`: the least significant `b + 1` bytes of `x[rt]`
(spec/43_load_store.md R303). -/
def swrBytes (v : Word) (b : Nat) : List Byte :=
  [regByte v 3, regByte v 2, regByte v 1, regByte v 0].drop (3 - b)

end Sys2Proof.Machine
end

