-- ==== Sys2Proof/Machine/Alu.lean ====
section
/-! DEFINITION. Register-register arithmetic, logic and comparison (spec/40_alu.md R201 to R210). -/

namespace Sys2Proof.Machine

/-- The end of `ADD`, `SUB` and `ADDI`: OVF with the destination unchanged when `overflow` holds (R201, R203, R211). -/
def trapOnOverflow (s : State) (overflow : Bool) (rd : Reg) (v : Word) : Result :=
  if overflow then raise .ovf s else regResult s rd v

/-- `ADD rd, rs, rt` (R201). -/
def execAdd (rs rt rd : Reg) (s : State) : Result :=
  trapOnOverflow s (addOverflows (readReg s rs) (readReg s rt)) rd (readReg s rs + readReg s rt)

/-- `ADDU rd, rs, rt` (R202). -/
def execAddu (rs rt rd : Reg) (s : State) : Result :=
  regResult s rd (readReg s rs + readReg s rt)

/-- `SUB rd, rs, rt` (R203). -/
def execSub (rs rt rd : Reg) (s : State) : Result :=
  trapOnOverflow s (subOverflows (readReg s rs) (readReg s rt)) rd (readReg s rs - readReg s rt)

/-- `SUBU rd, rs, rt` (R204). -/
def execSubu (rs rt rd : Reg) (s : State) : Result :=
  regResult s rd (readReg s rs - readReg s rt)

/-- `AND rd, rs, rt` (R205). -/
def execAnd (rs rt rd : Reg) (s : State) : Result :=
  regResult s rd (readReg s rs &&& readReg s rt)

/-- `OR rd, rs, rt` (R206). -/
def execOr (rs rt rd : Reg) (s : State) : Result :=
  regResult s rd (readReg s rs ||| readReg s rt)

/-- `XOR rd, rs, rt` (R207). -/
def execXor (rs rt rd : Reg) (s : State) : Result :=
  regResult s rd (readReg s rs ^^^ readReg s rt)

/-- `NOR rd, rs, rt` (R208). -/
def execNor (rs rt rd : Reg) (s : State) : Result :=
  regResult s rd (~~~(readReg s rs ||| readReg s rt))

/-- `SLT rd, rs, rt`: signed comparison (R209). -/
def execSlt (rs rt rd : Reg) (s : State) : Result :=
  regResult s rd (wordOfBool (decide ((readReg s rs).toInt < (readReg s rt).toInt)))

/-- `SLTU rd, rs, rt`: unsigned comparison (R210). -/
def execSltu (rs rt rd : Reg) (s : State) : Result :=
  regResult s rd (wordOfBool (decide ((readReg s rs).toNat < (readReg s rt).toNat)))

end Sys2Proof.Machine
end

