-- ==== Sys2Proof/Machine/AluImm.lean ====
section
/-! DEFINITION. Immediate arithmetic, logic and comparison (spec/40_alu.md R211 to R218). -/

namespace Sys2Proof.Machine

/-- `ADDI rt, rs, imm` (R211). -/
def execAddi (rs rt : Reg) (imm : Half) (s : State) : Result :=
  trapOnOverflow s (addOverflows (readReg s rs) (sext16 imm)) rt (readReg s rs + sext16 imm)

/-- `ADDIU rt, rs, imm`: the immediate is sign-extended (R212). -/
def execAddiu (rs rt : Reg) (imm : Half) (s : State) : Result :=
  regResult s rt (readReg s rs + sext16 imm)

/-- `SLTI rt, rs, imm`: signed comparison (R213). -/
def execSlti (rs rt : Reg) (imm : Half) (s : State) : Result :=
  regResult s rt (wordOfBool (decide ((readReg s rs).toInt < (sext16 imm).toInt)))

/-- `SLTIU rt, rs, imm`: the sign-extended immediate compared as unsigned (R214). -/
def execSltiu (rs rt : Reg) (imm : Half) (s : State) : Result :=
  regResult s rt (wordOfBool (decide ((readReg s rs).toNat < (sext16 imm).toNat)))

/-- `ANDI rt, rs, imm` (R215). -/
def execAndi (rs rt : Reg) (imm : Half) (s : State) : Result :=
  regResult s rt (readReg s rs &&& zext16 imm)

/-- `ORI rt, rs, imm` (R216). -/
def execOri (rs rt : Reg) (imm : Half) (s : State) : Result :=
  regResult s rt (readReg s rs ||| zext16 imm)

/-- `XORI rt, rs, imm` (R217). -/
def execXori (rs rt : Reg) (imm : Half) (s : State) : Result :=
  regResult s rt (readReg s rs ^^^ zext16 imm)

/-- `LUI rt, imm` (R218). -/
def execLui (rt : Reg) (imm : Half) (s : State) : Result :=
  regResult s rt (upperImmediate imm)

end Sys2Proof.Machine
end

