-- ==== Sys2Proof/Machine/Atomic.lean ====
section
/-! DEFINITION. Load linked and store conditional (spec/43_load_store.md R310 to R314). -/

namespace Sys2Proof.Machine

/-- `LL` and `SC` where `HAS_LLSC` is false are reserved instructions (spec/30_encoding.md R161). -/
def llscGuard (s : State) (go : Result) : Result := if s.cfg.hasLLSC then go else raise .ri s

/-- An `SC` that stores and leaves memory `m`: the reservation is given up and `rt` becomes 1 (R313). -/
def scStores (s : State) (rt : Reg) (m : Memory) : State :=
  advance (setReg { s with mem := m, llbit := false } rt 1#32)

/-- An `LL` of the word `v` at physical address `pa` (R312). -/
def llLoads (s : State) (rt : Reg) (pa v : Word) : State :=
  advance (setReg { s with llbit := true, lladdr := pa } rt v)

/-- An `SC` that fails: nothing is stored, the reservation is given up and `rt` becomes 0 (R313). -/
def scFails (s : State) (rt : Reg) : State := advance (setReg { s with llbit := false } rt 0#32)

/-- `SC` at a translated address: it stores only under a reservation of that address and if the draw says so; the bus is
reached, and can raise DBE, only by the store (R313; log 11, log 12). What is stored to a device leaves memory as it is
(log 23). -/
def scAt (s : State) (rt : Reg) (pa : Word) : Result :=
  if s.llbit ∧ s.lladdr = pa then
    if Config.scDraw s.draws then
      (busAddress s .store pa).andThen s
        (fun pa => .next (countDraw (scStores s rt (s.mem.write32 pa (readReg s rt)))))
        fun _ => .next (countDraw (scStores s rt s.mem))
    else .next (countDraw (scFails s rt))
  else .next (scFails s rt)

/-- `LL rt, offset(base)`: load linked (R312). -/
def execLl (rs rt : Reg) (imm : Half) (s : State) : Result :=
  llscGuard s <|
    (memAddress s (effectiveAddress s rs imm) .load 4 true).andThen s
      (fun pa => .next (llLoads s rt pa (s.mem.read32 pa)))
      fun pa => .next (llLoads (countDraw s) rt pa ((deviceBytes s pa).read32 pa))

/-- `SC rt, offset(base)`: store conditional; the address is checked and translated whether or not it will store (R313). A
translation alone reaches no device: the second continuation is never taken. -/
def execSc (rs rt : Reg) (imm : Half) (s : State) : Result :=
  llscGuard s <|
    (translate s (effectiveAddress s rs imm) .store 4 true).andThen s (scAt s rt) (scAt s rt)

end Sys2Proof.Machine
end

