-- ==== Sys2Proof/Machine/Branch.lean ====
section
/-! DEFINITION. Jumps and branches (spec/42_branch_jump.md R260 to R274). -/

namespace Sys2Proof.Machine

/-- Every branch and jump: refused in a delay slot (R262; log 24), else it writes its link register, if it has one, and
leaves the target pending behind the delay slot (R260). `link` is the state with the link value written. -/
def branchResult (s : State) (link : State) (taken : Bool) (target : Word) : Result :=
  if s.inDelay then .refused .branchInDelaySlot else .next (branch link taken target)

/-- A conditional branch (section 3): not linked. -/
def branchIf (s : State) (taken : Bool) (imm : Half) : Result := branchResult s s taken (branchTarget s.pc imm)

/-- A conditional branch that links through x[31] whether or not it is taken; `rs = 31` is refused (R273, R274). -/
def branchLinkIf (s : State) (rs : Reg) (taken : Bool) (imm : Half) : Result :=
  if rs = 31#5 then .refused .notRestartable
  else branchResult s (setReg s 31#5 (linkAddress s.pc)) taken (branchTarget s.pc imm)

/-- `J target` (R263). -/
def execJ (target : BitVec 26) (s : State) : Result :=
  branchResult s s true (jumpTarget s.pc target)

/-- `JAL target` (R264). -/
def execJal (target : BitVec 26) (s : State) : Result :=
  branchResult s (setReg s 31#5 (linkAddress s.pc)) true (jumpTarget s.pc target)

/-- `JR rs` (R265). -/
def execJr (rs : Reg) (s : State) : Result :=
  branchResult s s true (readReg s rs)

/-- `JALR rd, rs`: the target is read before the link is written; `rd = rs` is refused (R266). -/
def execJalr (rs rd : Reg) (s : State) : Result :=
  if rd = rs then .refused .notRestartable
  else branchResult s (setReg s rd (linkAddress s.pc)) true (readReg s rs)

/-- `BEQ rs, rt, offset` (R267). -/
def execBeq (rs rt : Reg) (imm : Half) (s : State) : Result :=
  branchIf s (readReg s rs == readReg s rt) imm

/-- `BNE rs, rt, offset` (R268). -/
def execBne (rs rt : Reg) (imm : Half) (s : State) : Result :=
  branchIf s (readReg s rs != readReg s rt) imm

/-- `BLEZ rs, offset` (R269). -/
def execBlez (rs : Reg) (imm : Half) (s : State) : Result :=
  branchIf s (decide ((readReg s rs).toInt ≤ 0)) imm

/-- `BGTZ rs, offset` (R270). -/
def execBgtz (rs : Reg) (imm : Half) (s : State) : Result :=
  branchIf s (decide ((readReg s rs).toInt > 0)) imm

/-- `BLTZ rs, offset` (R271). -/
def execBltz (rs : Reg) (imm : Half) (s : State) : Result :=
  branchIf s (readReg s rs).msb imm

/-- `BGEZ rs, offset` (R272). -/
def execBgez (rs : Reg) (imm : Half) (s : State) : Result :=
  branchIf s (!(readReg s rs).msb) imm

/-- `BLTZAL rs, offset`: the condition uses `x[rs]` from before the link write (R273). -/
def execBltzal (rs : Reg) (imm : Half) (s : State) : Result :=
  branchLinkIf s rs (readReg s rs).msb imm

/-- `BGEZAL rs, offset` (R274). -/
def execBgezal (rs : Reg) (imm : Half) (s : State) : Result :=
  branchLinkIf s rs (!(readReg s rs).msb) imm

end Sys2Proof.Machine
end

