-- ==== Sys2Proof/Machine/Coprocessor.lean ====
section
/-! DEFINITION. The instructions of coprocessors 1, 2 and 3 (spec/45_coprocessor.md R350 to R361): CPU(z), or refused with the
enable bit set. No address is formed and nothing else is checked first (R350). -/

namespace Sys2Proof.Machine

/-- `MFC1` (R353). -/
def execMfc1 (_rt _rd : Reg) (_sel : BitVec 3) (s : State) : Result :=
  copResult 1#2 s

/-- `MTC1` (R354). -/
def execMtc1 (_rt _rd : Reg) (_sel : BitVec 3) (s : State) : Result :=
  copResult 1#2 s

/-- `CFC1` (R355). -/
def execCfc1 (_rt _rd : Reg) (s : State) : Result :=
  copResult 1#2 s

/-- `CTC1` (R356). -/
def execCtc1 (_rt _rd : Reg) (s : State) : Result :=
  copResult 1#2 s

/-- `BC1F` (R357). -/
def execBc1f (_imm : Half) (s : State) : Result :=
  copResult 1#2 s

/-- `BC1T` (R358). -/
def execBc1t (_imm : Half) (s : State) : Result :=
  copResult 1#2 s

/-- `COP1` (R359). -/
def execCop1 (_cofun : BitVec 25) (s : State) : Result :=
  copResult 1#2 s

/-- `LWC1` (R360). -/
def execLwc1 (_rs _rt : Reg) (_imm : Half) (s : State) : Result :=
  copResult 1#2 s

/-- `SWC1` (R361). -/
def execSwc1 (_rs _rt : Reg) (_imm : Half) (s : State) : Result :=
  copResult 1#2 s

/-- `MFC2` (R353). -/
def execMfc2 (_rt _rd : Reg) (_sel : BitVec 3) (s : State) : Result :=
  copResult 2#2 s

/-- `MTC2` (R354). -/
def execMtc2 (_rt _rd : Reg) (_sel : BitVec 3) (s : State) : Result :=
  copResult 2#2 s

/-- `CFC2` (R355). -/
def execCfc2 (_rt _rd : Reg) (s : State) : Result :=
  copResult 2#2 s

/-- `CTC2` (R356). -/
def execCtc2 (_rt _rd : Reg) (s : State) : Result :=
  copResult 2#2 s

/-- `BC2F` (R357). -/
def execBc2f (_imm : Half) (s : State) : Result :=
  copResult 2#2 s

/-- `BC2T` (R358). -/
def execBc2t (_imm : Half) (s : State) : Result :=
  copResult 2#2 s

/-- `COP2` (R359). -/
def execCop2 (_cofun : BitVec 25) (s : State) : Result :=
  copResult 2#2 s

/-- `LWC2` (R360). -/
def execLwc2 (_rs _rt : Reg) (_imm : Half) (s : State) : Result :=
  copResult 2#2 s

/-- `SWC2` (R361). -/
def execSwc2 (_rs _rt : Reg) (_imm : Half) (s : State) : Result :=
  copResult 2#2 s

/-- `MFC3` (R353). -/
def execMfc3 (_rt _rd : Reg) (_sel : BitVec 3) (s : State) : Result :=
  copResult 3#2 s

/-- `MTC3` (R354). -/
def execMtc3 (_rt _rd : Reg) (_sel : BitVec 3) (s : State) : Result :=
  copResult 3#2 s

/-- `CFC3` (R355). -/
def execCfc3 (_rt _rd : Reg) (s : State) : Result :=
  copResult 3#2 s

/-- `CTC3` (R356). -/
def execCtc3 (_rt _rd : Reg) (s : State) : Result :=
  copResult 3#2 s

/-- `BC3F` (R357). -/
def execBc3f (_imm : Half) (s : State) : Result :=
  copResult 3#2 s

/-- `BC3T` (R358). -/
def execBc3t (_imm : Half) (s : State) : Result :=
  copResult 3#2 s

/-- `COP3` (R359). -/
def execCop3 (_cofun : BitVec 25) (s : State) : Result :=
  copResult 3#2 s

/-- `LWC3` (R360). -/
def execLwc3 (_rs _rt : Reg) (_imm : Half) (s : State) : Result :=
  copResult 3#2 s

/-- `SWC3` (R361). -/
def execSwc3 (_rs _rt : Reg) (_imm : Half) (s : State) : Result :=
  copResult 3#2 s

end Sys2Proof.Machine
end

