-- ==== Sys2Proof/Machine/Kernel.lean ====
section
/-! DEFINITION. The coprocessor-0 instructions (spec/46_kernel_cp0.md). -/

namespace Sys2Proof.Machine

/-- The twelve coprocessor-0 registers (spec/10_state.md R32). -/
inductive Cp0Reg where
  | index
  | random
  | tlblo
  | context
  | badvaddr
  | tlbhi
  | status
  | cause
  | epc
  | prid
  | cfeat
  | ifeat
  deriving DecidableEq, Repr

/-- The register a (register, select) pair names (spec/10_state.md R32). -/
def cp0RegAt (rd : Reg) (sel : BitVec 3) : Option Cp0Reg :=
  match rd.toNat, sel.toNat with
  | 0, 0 => some .index
  | 1, 0 => some .random
  | 2, 0 => some .tlblo
  | 4, 0 => some .context
  | 8, 0 => some .badvaddr
  | 10, 0 => some .tlbhi
  | 12, 0 => some .status
  | 13, 0 => some .cause
  | 14, 0 => some .epc
  | 15, 0 => some .prid
  | 15, 1 => some .cfeat
  | 15, 2 => some .ifeat
  | _, _ => none

/-- The register `MFC0` and `MTC0` access: the select is ignored where `HAS_SELECT` is false (R383, spec/10_state.md
R31). -/
def cp0Reg (c : Config) (rd : Reg) (sel : BitVec 3) : Option Cp0Reg := cp0RegAt rd (if c.hasSelect then sel else 0#3)

/-- PRID (spec/10_state.md R46). -/
def pridValue (c : Config) : Word :=
  match c.version with
  | .v1 => 0x000003ff#32
  | .v2 => 0x000000a1#32

/-- What `MFC0` reads (R381); RANDOM is a draw. -/
def cp0Read (s : State) : Cp0Reg → Word
  | .index => s.index.toWord
  | .random => randomWord (randomSlot s.draws)
  | .tlblo => s.tlblo.toWord
  | .context => s.context.toWord
  | .badvaddr => s.badvaddr
  | .tlbhi => s.tlbhi.toWord
  | .status => s.status.toWord
  | .cause => s.cause.toWord s.irq
  | .epc => s.epc
  | .prid => pridValue s.cfg
  | .cfeat => 0x00000000#32
  | .ifeat => 0x00000000#32

/-- The state in which the read is counted: an observation of RANDOM is a draw (spec/10_state.md R35). -/
def countRead (s : State) (r : Cp0Reg) : State := if r = .random then countDraw s else s

/-- A write to STATUS would set T, S or N from 0 to 1 (spec/10_state.md R42). -/
def setsStatusFlag (old : Status) (v : Word) : Bool :=
  (v.getLsbD 21 && !old.t) || (v.getLsbD 20 && !old.s) || (v.getLsbD 19 && !old.n)

/-- `MTC0` to STATUS: W or I set is a machine check; T, S or N set from 0 is refused; else the writable bits are stored
(R382, spec/10_state.md R41, R42). -/
def writeStatus (s : State) (v : Word) : Result :=
  if v.getLsbD 17 || v.getLsbD 16 then .next (shutDown s)
  else if setsStatusFlag s.status v then .refused .statusFlagSet
  else .next (advance { s with status := Status.ofWord v })

/-- What `MTC0` writes (R382); bits on hw-ro, zero and fixed positions are discarded (spec/10_state.md R33). -/
def cp0Write (s : State) (r : Cp0Reg) (v : Word) : Result :=
  match r with
  | .index => .next (advance { s with index := { s.index with slot := slotField v } })
  | .random => .refused .randomWrite
  | .tlblo => .next (advance { s with tlblo := TlbLo.ofWord v })
  | .context => .next (advance { s with context := { s.context with ptbase := ptbaseField v } })
  | .badvaddr => .next (advance s)
  | .tlbhi => .next (advance { s with tlbhi := TlbHi.ofWord v })
  | .status => writeStatus s v
  | .cause => .next (advance { s with cause := { s.cause with f := softField v } })
  | .epc => .next (advance s)
  | .prid => .next (advance s)
  | .cfeat => .next (advance s)
  | .ifeat => .next (advance s)

/-- The entry `TLBWI` and `TLBWR` write (R386). -/
def entryToWrite (s : State) : TlbEntry := ⟨s.tlbhi, s.tlblo⟩

/-- A TLB write: machine check if another slot can match what the new entry matches (R387), else the slot is written. -/
def tlbWrite (s : State) (i : Slot) : State :=
  if tlbClash s.tlb i (entryToWrite s) then shutDown s
  else advance { s with tlb := tlbSet s.tlb i (entryToWrite s) }

/-- `TLBP` with the list of matching slots (R388; log 10). -/
def probeWith (s : State) (hits : List Slot) : State :=
  match hits with
  | [] => advance (countDraw { s with index := ⟨true, Config.probeSlotDraw s.draws⟩ })
  | [i] => advance { s with index := ⟨false, i⟩ }
  | _ :: _ :: _ => shutDown s

/-- `MFC0 rt, rd, sel` (R381); a pair outside R32 is refused (spec/10_state.md R49; log 35). -/
def execMfc0 (rt rd : Reg) (sel : BitVec 3) (s : State) : Result :=
  cp0Guard s <|
    match cp0Reg s.cfg rd sel with
    | some r => .next (advance (setReg (countRead s r) rt (cp0Read s r)))
    | none => .refused (.cp0RegisterUndefined rd sel)

/-- `MTC0 rt, rd, sel` (R382); a pair outside R32 is refused (spec/10_state.md R49; log 35). -/
def execMtc0 (rt rd : Reg) (sel : BitVec 3) (s : State) : Result :=
  cp0Guard s <|
    match cp0Reg s.cfg rd sel with
    | some r => cp0Write s r (readReg s rt)
    | none => .refused (.cp0RegisterUndefined rd sel)

/-- `TLBR`: the entry INDEX.SLOT names goes to TLBHI, its ASID too, and TLBLO (R385). -/
def execTlbr (s : State) : Result :=
  cp0Guard s <|
    .next (advance { s with
      tlbhi := (tlbAt s.tlb s.index.slot).hi
      tlblo := (tlbAt s.tlb s.index.slot).lo })

/-- `TLBWI`: write the entry INDEX.SLOT names (R386). -/
def execTlbwi (s : State) : Result :=
  cp0Guard s <| .next (tlbWrite s s.index.slot)

/-- `TLBWR`: write the entry a draw in 8..63 names (R389; log 8). -/
def execTlbwr (s : State) : Result :=
  cp0Guard s <| .next (tlbWrite (countDraw s) (randomSlot s.draws))

/-- `TLBP`: probe for the VPAGE and ASID of TLBHI (R388). -/
def execTlbp (s : State) : Result :=
  cp0Guard s <| .next (probeWith s (tlbHits s.tlb s.tlbhi.vpage s.tlbhi.asid))

/-- `RFE`: the mode stack is shifted back; it is no jump (R392). -/
def execRfe (s : State) : Result :=
  cp0Guard s <| .next (advance (returnFromException s))

/-- `WAIT`: it retires, and the processor sleeps until a hardware line is active; with one already active it completes at
once, and the processor does not sleep at all (R394; DEDUCED, unsafe, log 36). -/
def execWait (s : State) : Result :=
  cp0Guard s <| .next { advance s with idle := s.irq == 0#6 }

end Sys2Proof.Machine
end

