-- ==== Sys2Proof/Machine/LoadStore.lean ====
section
/-! DEFINITION. Loads and stores (spec/43_load_store.md R290 to R303). -/

namespace Sys2Proof.Machine

/-- `LWL` and `LWR`: one translation of `ea` with no alignment check; `merge` takes the aligned memory word, the old
`x[rt]` and `b` (section 4). -/
def loadPart (s : State) (rs rt : Reg) (imm : Half) (merge : Word → Word → Nat → Word) : Result :=
  let ea := effectiveAddress s rs imm
  loadResult s rt ea 4 false fun m pa => merge (m.read32 (alignedWord pa)) (readReg s rt) (byteInWord ea)

/-- `LB rt, offset(base)`: load byte, sign-extend (R291). -/
def execLb (rs rt : Reg) (imm : Half) (s : State) : Result :=
  loadResult s rt (effectiveAddress s rs imm) 1 true fun m pa => sext8 (m.read8 pa)

/-- `LBU rt, offset(base)`: load byte, zero-extend (R292). -/
def execLbu (rs rt : Reg) (imm : Half) (s : State) : Result :=
  loadResult s rt (effectiveAddress s rs imm) 1 true fun m pa => zext8 (m.read8 pa)

/-- `LH rt, offset(base)`: load halfword, sign-extend (R293). -/
def execLh (rs rt : Reg) (imm : Half) (s : State) : Result :=
  loadResult s rt (effectiveAddress s rs imm) 2 true fun m pa => sext16 (m.read16 pa)

/-- `LHU rt, offset(base)`: load halfword, zero-extend (R294). -/
def execLhu (rs rt : Reg) (imm : Half) (s : State) : Result :=
  loadResult s rt (effectiveAddress s rs imm) 2 true fun m pa => zext16 (m.read16 pa)

/-- `LW rt, offset(base)`: load word (R295). -/
def execLw (rs rt : Reg) (imm : Half) (s : State) : Result :=
  loadResult s rt (effectiveAddress s rs imm) 4 true fun m pa => m.read32 pa

/-- `SB rt, offset(base)`: store byte (R296). -/
def execSb (rs rt : Reg) (imm : Half) (s : State) : Result :=
  storeResult s (effectiveAddress s rs imm) 1 true fun pa => s.mem.write8 pa (regByte (readReg s rt) 0)

/-- `SH rt, offset(base)`: store halfword (R297). -/
def execSh (rs rt : Reg) (imm : Half) (s : State) : Result :=
  storeResult s (effectiveAddress s rs imm) 2 true fun pa => s.mem.write16 pa ((readReg s rt).extractLsb' 0 16)

/-- `SW rt, offset(base)`: store word (R298). -/
def execSw (rs rt : Reg) (imm : Half) (s : State) : Result :=
  storeResult s (effectiveAddress s rs imm) 4 true fun pa => s.mem.write32 pa (readReg s rt)

/-- `LWL rt, offset(base)`: load word left (R300). -/
def execLwl (rs rt : Reg) (imm : Half) (s : State) : Result :=
  loadPart s rs rt imm lwlMerge

/-- `LWR rt, offset(base)`: load word right (R301). -/
def execLwr (rs rt : Reg) (imm : Half) (s : State) : Result :=
  loadPart s rs rt imm lwrMerge

/-- `SWL rt, offset(base)`: store word left, from `ea` up (R302). -/
def execSwl (rs rt : Reg) (imm : Half) (s : State) : Result :=
  let ea := effectiveAddress s rs imm
  storeResult s ea 4 false fun pa => s.mem.writeBytes pa (swlBytes (readReg s rt) (byteInWord ea))

/-- `SWR rt, offset(base)`: store word right, from the aligned word's start up to `ea` (R303). -/
def execSwr (rs rt : Reg) (imm : Half) (s : State) : Result :=
  let ea := effectiveAddress s rs imm
  storeResult s ea 4 false fun pa => s.mem.writeBytes (alignedWord pa) (swrBytes (readReg s rt) (byteInWord ea))

end Sys2Proof.Machine
end

