-- ==== Sys2Proof/Machine/MulDiv.lean ====
section
/-! DEFINITION. Multiply, divide and the HI/LO moves (spec/41_muldiv.md R241 to R250). -/

namespace Sys2Proof.Machine

/-- A 64-bit product into HI and LO (R241, R242). -/
def productResult (s : State) (p : BitVec 64) : Result :=
  .next (advance (setHiLo s (p.extractLsb' 32 32) (p.extractLsb' 0 32)))

/-- Division by zero: the parameter `DIV_ZERO` (R250; log 13). -/
def divideByZero (s : State) : Result :=
  match s.cfg.divZero with
  | .unpredictable =>
    .next (advance (countDraw (setHiLo s (Config.divZeroHiDraw s.draws) (Config.divZeroLoDraw s.draws))))
  | .trapBp => raise .bp s

/-- The exact signed quotient, rounded toward zero, and the remainder (R243). -/
def signedDivide (s : State) (a b : Word) : State :=
  setHiLo s (BitVec.ofInt 32 (a.toInt - a.toInt.tdiv b.toInt * b.toInt)) (BitVec.ofInt 32 (a.toInt.tdiv b.toInt))

/-- The unsigned quotient and remainder (R244). -/
def unsignedDivide (s : State) (a b : Word) : State :=
  setHiLo s (BitVec.ofNat 32 (a.toNat % b.toNat)) (BitVec.ofNat 32 (a.toNat / b.toNat))

/-- `MULT rs, rt`: signed multiply (R241). -/
def execMult (rs rt : Reg) (s : State) : Result :=
  productResult s (BitVec.ofInt 64 ((readReg s rs).toInt * (readReg s rt).toInt))

/-- `MULTU rs, rt`: unsigned multiply (R242). -/
def execMultu (rs rt : Reg) (s : State) : Result :=
  productResult s (BitVec.ofNat 64 ((readReg s rs).toNat * (readReg s rt).toNat))

/-- `DIV rs, rt`: signed divide; −2^31 by −1 is the parameter `DIV_OVF` (R243; log 14). -/
def execDiv (rs rt : Reg) (s : State) : Result :=
  if readReg s rt = 0#32 then divideByZero s
  else if readReg s rs = 0x80000000#32 ∧ readReg s rt = 0xffffffff#32 then
    .next (advance (setHiLo s s.cfg.divOvfHi s.cfg.divOvfLo))
  else .next (advance (signedDivide s (readReg s rs) (readReg s rt)))

/-- `DIVU rs, rt`: unsigned divide (R244). -/
def execDivu (rs rt : Reg) (s : State) : Result :=
  if readReg s rt = 0#32 then divideByZero s
  else .next (advance (unsignedDivide s (readReg s rs) (readReg s rt)))

/-- `MFHI rd` (R245). -/
def execMfhi (rd : Reg) (s : State) : Result :=
  regResult s rd s.hi

/-- `MTHI rs` (R246). -/
def execMthi (rs : Reg) (s : State) : Result :=
  let v := readReg s rs
  .next (advance { s with hi := v })

/-- `MFLO rd` (R247). -/
def execMflo (rd : Reg) (s : State) : Result :=
  regResult s rd s.lo

/-- `MTLO rs` (R248). -/
def execMtlo (rs : Reg) (s : State) : Result :=
  let v := readReg s rs
  .next (advance { s with lo := v })

end Sys2Proof.Machine
end

