-- ==== Sys2Proof/Machine/Shift.lean ====
section
/-! DEFINITION. Shifts (spec/40_alu.md R219 to R224). -/

namespace Sys2Proof.Machine

/-- `SLL rd, rt, shamt` (R219). -/
def execSll (rt rd : Reg) (shamt : BitVec 5) (s : State) : Result :=
  regResult s rd (readReg s rt <<< shamt.toNat)

/-- `SRL rd, rt, shamt` (R220). -/
def execSrl (rt rd : Reg) (shamt : BitVec 5) (s : State) : Result :=
  regResult s rd (readReg s rt >>> shamt.toNat)

/-- `SRA rd, rt, shamt` (R221). -/
def execSra (rt rd : Reg) (shamt : BitVec 5) (s : State) : Result :=
  regResult s rd ((readReg s rt).sshiftRight shamt.toNat)

/-- `SLLV rd, rt, rs` (R222). -/
def execSllv (rs rt rd : Reg) (s : State) : Result :=
  regResult s rd (readReg s rt <<< shiftCount (readReg s rs))

/-- `SRLV rd, rt, rs` (R223). -/
def execSrlv (rs rt rd : Reg) (s : State) : Result :=
  regResult s rd (readReg s rt >>> shiftCount (readReg s rs))

/-- `SRAV rd, rt, rs` (R224). -/
def execSrav (rs rt rd : Reg) (s : State) : Result :=
  regResult s rd ((readReg s rt).sshiftRight (shiftCount (readReg s rs)))

end Sys2Proof.Machine
end

