-- ==== Sys2Proof/Machine/System.lean ====
section
/-! DEFINITION. SYSCALL, BREAK, SYNC and CACHE (spec/44_system_sync.md). -/

namespace Sys2Proof.Machine

/-- `SYSCALL`: the code is recorded nowhere (R331). -/
def execSyscall (_code : BitVec 20) (s : State) : Result :=
  raise .sys s

/-- `BREAK`: the code is recorded nowhere (R332). -/
def execBreak (_code : BitVec 20) (s : State) : Result :=
  raise .bp s

/-- `SYNC`: on one processor that executes in program order it only goes on (R334); on V1 it is reserved
(spec/30_encoding.md R161). -/
def execSync (s : State) : Result :=
  if s.cfg.hasSync then .next (advance s) else raise .ri s

/-- `CACHE op, offset(base)`: on V2 it has no semantics (R336; log 34); on V1 it is reserved (spec/30_encoding.md
R161). -/
def execCache (_rs : Reg) (_op : BitVec 5) (_imm : Half) (s : State) : Result :=
  if s.cfg.hasCache then .refused .cacheUndocumented else raise .ri s

end Sys2Proof.Machine
end

