-- ==== Sys2Proof/Syntax.lean ====
section
/-! DEFINITION. The instructions of spec/opcode_table.json, one constructor a row (spec/30_encoding.md R150).
Operands stand in the order of the row's fields, from bit 31 down. -/

namespace Sys2Proof

/-- An instruction of the MIPS-161 with its operand fields (spec/30_encoding.md R141, R142). -/
inductive Instr where
  -- ALU register (spec/40_alu.md R201 to R210)
  | add (rs rt rd : Reg)
  | addu (rs rt rd : Reg)
  | sub (rs rt rd : Reg)
  | subu (rs rt rd : Reg)
  | and (rs rt rd : Reg)
  | or (rs rt rd : Reg)
  | xor (rs rt rd : Reg)
  | nor (rs rt rd : Reg)
  | slt (rs rt rd : Reg)
  | sltu (rs rt rd : Reg)
  -- ALU immediate (spec/40_alu.md R211 to R218)
  | addi (rs rt : Reg) (imm : Half)
  | addiu (rs rt : Reg) (imm : Half)
  | slti (rs rt : Reg) (imm : Half)
  | sltiu (rs rt : Reg) (imm : Half)
  | andi (rs rt : Reg) (imm : Half)
  | ori (rs rt : Reg) (imm : Half)
  | xori (rs rt : Reg) (imm : Half)
  | lui (rt : Reg) (imm : Half)
  -- shifts (spec/40_alu.md R219 to R224)
  | sll (rt rd : Reg) (shamt : BitVec 5)
  | srl (rt rd : Reg) (shamt : BitVec 5)
  | sra (rt rd : Reg) (shamt : BitVec 5)
  | sllv (rs rt rd : Reg)
  | srlv (rs rt rd : Reg)
  | srav (rs rt rd : Reg)
  -- multiply and divide (spec/41_muldiv.md R241 to R248)
  | mult (rs rt : Reg)
  | multu (rs rt : Reg)
  | div (rs rt : Reg)
  | divu (rs rt : Reg)
  | mfhi (rd : Reg)
  | mthi (rs : Reg)
  | mflo (rd : Reg)
  | mtlo (rs : Reg)
  -- jumps and branches (spec/42_branch_jump.md R263 to R274)
  | j (target : BitVec 26)
  | jal (target : BitVec 26)
  | jr (rs : Reg)
  | jalr (rs rd : Reg)
  | beq (rs rt : Reg) (imm : Half)
  | bne (rs rt : Reg) (imm : Half)
  | blez (rs : Reg) (imm : Half)
  | bgtz (rs : Reg) (imm : Half)
  | bltz (rs : Reg) (imm : Half)
  | bgez (rs : Reg) (imm : Half)
  | bltzal (rs : Reg) (imm : Half)
  | bgezal (rs : Reg) (imm : Half)
  -- loads and stores (spec/43_load_store.md R291 to R303); rs is the base register
  | lb (rs rt : Reg) (imm : Half)
  | lbu (rs rt : Reg) (imm : Half)
  | lh (rs rt : Reg) (imm : Half)
  | lhu (rs rt : Reg) (imm : Half)
  | lw (rs rt : Reg) (imm : Half)
  | sb (rs rt : Reg) (imm : Half)
  | sh (rs rt : Reg) (imm : Half)
  | sw (rs rt : Reg) (imm : Half)
  | lwl (rs rt : Reg) (imm : Half)
  | lwr (rs rt : Reg) (imm : Half)
  | swl (rs rt : Reg) (imm : Half)
  | swr (rs rt : Reg) (imm : Half)
  -- atomics (spec/43_load_store.md R312, R313)
  | ll (rs rt : Reg) (imm : Half)
  | sc (rs rt : Reg) (imm : Half)
  -- system (spec/44_system_sync.md R331 to R336); brk is BREAK
  | syscall (code : BitVec 20)
  | brk (code : BitVec 20)
  | sync
  | cache (rs : Reg) (op : BitVec 5) (imm : Half)
  -- coprocessor 1 (spec/45_coprocessor.md R353 to R361)
  | mfc1 (rt rd : Reg) (sel : BitVec 3)
  | mtc1 (rt rd : Reg) (sel : BitVec 3)
  | cfc1 (rt rd : Reg)
  | ctc1 (rt rd : Reg)
  | bc1f (imm : Half)
  | bc1t (imm : Half)
  | cop1 (cofun : BitVec 25)
  | lwc1 (rs rt : Reg) (imm : Half)
  | swc1 (rs rt : Reg) (imm : Half)
  -- coprocessor 2
  | mfc2 (rt rd : Reg) (sel : BitVec 3)
  | mtc2 (rt rd : Reg) (sel : BitVec 3)
  | cfc2 (rt rd : Reg)
  | ctc2 (rt rd : Reg)
  | bc2f (imm : Half)
  | bc2t (imm : Half)
  | cop2 (cofun : BitVec 25)
  | lwc2 (rs rt : Reg) (imm : Half)
  | swc2 (rs rt : Reg) (imm : Half)
  -- coprocessor 3
  | mfc3 (rt rd : Reg) (sel : BitVec 3)
  | mtc3 (rt rd : Reg) (sel : BitVec 3)
  | cfc3 (rt rd : Reg)
  | ctc3 (rt rd : Reg)
  | bc3f (imm : Half)
  | bc3t (imm : Half)
  | cop3 (cofun : BitVec 25)
  | lwc3 (rs rt : Reg) (imm : Half)
  | swc3 (rs rt : Reg) (imm : Half)
  -- kernel (spec/46_kernel_cp0.md R381 to R394)
  | mfc0 (rt rd : Reg) (sel : BitVec 3)
  | mtc0 (rt rd : Reg) (sel : BitVec 3)
  | tlbr
  | tlbwi
  | tlbwr
  | tlbp
  | rfe
  | wait
  deriving DecidableEq, Repr

end Sys2Proof
end

