-- ==== Sys2Proof/Decode.lean ====
section
/-! DEFINITION. The decoder and the encoder of instruction words (spec/30_encoding.md R140 to R149, R160, R362).

The decoder reads the 97 rows of spec/opcode_table.json whatever the VERSION; which of them this version lacks is asked
when the instruction executes (R144 step 3, R161; log 30). -/

namespace Sys2Proof

/-! ## Fields (R142) -/

/-- `op`, bits 31:26. -/
def opOf (w : Word) : BitVec 6 := w.extractLsb' 26 6

/-- `rs`, bits 25:21; also the sub-opcode of the coprocessor formats. -/
def rsOf (w : Word) : Reg := w.extractLsb' 21 5

/-- `rt`, bits 20:16; also the sub-opcode of REGIMM. -/
def rtOf (w : Word) : Reg := w.extractLsb' 16 5

/-- `rd`, bits 15:11. -/
def rdOf (w : Word) : Reg := w.extractLsb' 11 5

/-- `shamt`, bits 10:6. -/
def shamtOf (w : Word) : BitVec 5 := w.extractLsb' 6 5

/-- `funct`, bits 5:0. -/
def functOf (w : Word) : BitVec 6 := w.extractLsb' 0 6

/-- `imm`, bits 15:0. -/
def immOf (w : Word) : Half := w.extractLsb' 0 16

/-- `target`, bits 25:0. -/
def targetOf (w : Word) : BitVec 26 := w.extractLsb' 0 26

/-- `sel`, bits 2:0. -/
def selOf (w : Word) : BitVec 3 := w.extractLsb' 0 3

/-- `code`, bits 25:6. -/
def codeOf (w : Word) : BitVec 20 := w.extractLsb' 6 20

/-- Bit 25, which marks a coprocessor operation. -/
def copBitOf (w : Word) : BitVec 1 := w.extractLsb' 25 1

/-- `cofun`, bits 24:0. -/
def cofunOf (w : Word) : BitVec 25 := w.extractLsb' 0 25

/-- Bits 10:3 of a coprocessor move, which must be zero. -/
def moveZeroOf (w : Word) : BitVec 8 := w.extractLsb' 3 8

/-- Bits 24:6 of a coprocessor-0 operation, which must be zero. -/
def opZeroOf (w : Word) : BitVec 19 := w.extractLsb' 6 19

/-! ## The formats, written from their fields (R141) -/

/-- R-type, with any primary opcode. -/
def encR (op : BitVec 6) (rs rt rd : Reg) (shamt : BitVec 5) (funct : BitVec 6) : Word :=
  op ++ rs ++ rt ++ rd ++ shamt ++ funct

/-- I-type, REGIMM and coprocessor branch. -/
def encI (op : BitVec 6) (rs rt : Reg) (imm : Half) : Word := op ++ rs ++ rt ++ imm

/-- J-type. -/
def encJ (op : BitVec 6) (target : BitVec 26) : Word := op ++ target

/-- `SYSCALL` and `BREAK`: R-type with the code in bits 25:6. -/
def encCode (code : BitVec 20) (funct : BitVec 6) : Word := 0x00#6 ++ code ++ funct

/-- Coprocessor move with a select. -/
def encMove (op : BitVec 6) (sub rt rd : Reg) (sel : BitVec 3) : Word := op ++ sub ++ rt ++ rd ++ 0#8 ++ sel

/-- Coprocessor operation. -/
def encCop (op : BitVec 6) (cofun : BitVec 25) : Word := op ++ 1#1 ++ cofun

/-- Coprocessor-0 operation: `cofun` is 19 zeros and the function. -/
def encCop0 (funct : BitVec 6) : Word := 0x10#6 ++ 1#1 ++ 0#19 ++ funct

/-! ## The decoder -/

/-- What the decoder answers: an instruction, or by name why the word is none. -/
inductive Decoded where
  /-- A row of the opcode table. -/
  | instr (i : Instr)
  /-- A reserved encoding (R160): the processor raises RI. -/
  | reserved
  /-- A word of coprocessor `z` that is no row (R362, R352): CPU(z) if coprocessor `z` is not usable, else refused. -/
  | copUndefined (z : BitVec 2)
  /-- An instruction's opcode with must-be-zero bits that are not zero (R149): refused. -/
  | mustBeZero
  /-- `SYNC`'s opcode with must-be-zero bits that are not zero: RI where the version lacks `SYNC` (R160, R161), else
  refused (R149). -/
  | syncNotZero
  /-- Not four bytes: no instruction word (R140). -/
  | wrongLength
  deriving DecidableEq, Repr

/-- An instruction whose must-be-zero bits are as `ok` says (R149). -/
def strict (ok : Bool) (i : Instr) : Decoded := if ok then .instr i else .mustBeZero

/-- A coprocessor-`z` word whose must-be-zero bits are as `ok` says: with non-zero ones it is still a coprocessor
instruction, first checked for usability (spec/45_coprocessor.md R350, R362; log 22). -/
def strictCop (z : BitVec 2) (ok : Bool) (i : Instr) : Decoded := if ok then .instr i else .copUndefined z

/-- SPECIAL, `op = 0` (R146). -/
def decodeSpecial (w : Word) : Decoded :=
  let rs := rsOf w
  let rt := rtOf w
  let rd := rdOf w
  let shamt := shamtOf w
  match (functOf w).toNat with
  | 0x00 => strict (rs == 0) (.sll rt rd shamt)
  | 0x02 => strict (rs == 0) (.srl rt rd shamt)
  | 0x03 => strict (rs == 0) (.sra rt rd shamt)
  | 0x04 => strict (shamt == 0) (.sllv rs rt rd)
  | 0x06 => strict (shamt == 0) (.srlv rs rt rd)
  | 0x07 => strict (shamt == 0) (.srav rs rt rd)
  | 0x08 => strict (rt == 0 && rd == 0 && shamt == 0) (.jr rs)
  | 0x09 => strict (rt == 0 && shamt == 0) (.jalr rs rd)
  | 0x0c => .instr (.syscall (codeOf w))
  | 0x0d => .instr (.brk (codeOf w))
  | 0x0f => if codeOf w == 0 then .instr .sync else .syncNotZero
  | 0x10 => strict (rs == 0 && rt == 0 && shamt == 0) (.mfhi rd)
  | 0x11 => strict (rt == 0 && rd == 0 && shamt == 0) (.mthi rs)
  | 0x12 => strict (rs == 0 && rt == 0 && shamt == 0) (.mflo rd)
  | 0x13 => strict (rt == 0 && rd == 0 && shamt == 0) (.mtlo rs)
  | 0x18 => strict (rd == 0 && shamt == 0) (.mult rs rt)
  | 0x19 => strict (rd == 0 && shamt == 0) (.multu rs rt)
  | 0x1a => strict (rd == 0 && shamt == 0) (.div rs rt)
  | 0x1b => strict (rd == 0 && shamt == 0) (.divu rs rt)
  | 0x20 => strict (shamt == 0) (.add rs rt rd)
  | 0x21 => strict (shamt == 0) (.addu rs rt rd)
  | 0x22 => strict (shamt == 0) (.sub rs rt rd)
  | 0x23 => strict (shamt == 0) (.subu rs rt rd)
  | 0x24 => strict (shamt == 0) (.and rs rt rd)
  | 0x25 => strict (shamt == 0) (.or rs rt rd)
  | 0x26 => strict (shamt == 0) (.xor rs rt rd)
  | 0x27 => strict (shamt == 0) (.nor rs rt rd)
  | 0x2a => strict (shamt == 0) (.slt rs rt rd)
  | 0x2b => strict (shamt == 0) (.sltu rs rt rd)
  | _ => .reserved

/-- REGIMM, `op = 1` (R147). -/
def decodeRegimm (w : Word) : Decoded :=
  match (rtOf w).toNat with
  | 0x00 => .instr (.bltz (rsOf w) (immOf w))
  | 0x01 => .instr (.bgez (rsOf w) (immOf w))
  | 0x10 => .instr (.bltzal (rsOf w) (immOf w))
  | 0x11 => .instr (.bgezal (rsOf w) (immOf w))
  | _ => .reserved

/-- Coprocessor 0 (R148): the two moves, the six operations, and every other word undefined (R362). -/
def decodeCop0 (w : Word) : Decoded :=
  if copBitOf w == 1 then
    match (functOf w).toNat with
    | 0x01 => strictCop 0 (opZeroOf w == 0) .tlbr
    | 0x02 => strictCop 0 (opZeroOf w == 0) .tlbwi
    | 0x06 => strictCop 0 (opZeroOf w == 0) .tlbwr
    | 0x08 => strictCop 0 (opZeroOf w == 0) .tlbp
    | 0x10 => strictCop 0 (opZeroOf w == 0) .rfe
    | 0x20 => strictCop 0 (opZeroOf w == 0) .wait
    | _ => .copUndefined 0
  else
    match (rsOf w).toNat with
    | 0x00 => strictCop 0 (moveZeroOf w == 0) (.mfc0 (rtOf w) (rdOf w) (selOf w))
    | 0x04 => strictCop 0 (moveZeroOf w == 0) (.mtc0 (rtOf w) (rdOf w) (selOf w))
    | _ => .copUndefined 0

/-- The seven forms of a coprocessor z = 1, 2, 3 under the primary opcode COPz (R148, R353 to R359). -/
structure CopForms where
  mfc : Reg → Reg → BitVec 3 → Instr
  mtc : Reg → Reg → BitVec 3 → Instr
  cfc : Reg → Reg → Instr
  ctc : Reg → Reg → Instr
  bcf : Half → Instr
  bct : Half → Instr
  cop : BitVec 25 → Instr

/-- The forms of coprocessor 1. -/
def cop1Forms : CopForms := ⟨.mfc1, .mtc1, .cfc1, .ctc1, .bc1f, .bc1t, .cop1⟩

/-- The forms of coprocessor 2. -/
def cop2Forms : CopForms := ⟨.mfc2, .mtc2, .cfc2, .ctc2, .bc2f, .bc2t, .cop2⟩

/-- The forms of coprocessor 3. -/
def cop3Forms : CopForms := ⟨.mfc3, .mtc3, .cfc3, .ctc3, .bc3f, .bc3t, .cop3⟩

/-- COPz, z = 1, 2, 3 (R148). -/
def decodeCopZ (z : BitVec 2) (f : CopForms) (w : Word) : Decoded :=
  if copBitOf w == 1 then .instr (f.cop (cofunOf w))
  else
    match (rsOf w).toNat with
    | 0x00 => strictCop z (moveZeroOf w == 0) (f.mfc (rtOf w) (rdOf w) (selOf w))
    | 0x02 => strictCop z (moveZeroOf w == 0 && selOf w == 0) (f.cfc (rtOf w) (rdOf w))
    | 0x04 => strictCop z (moveZeroOf w == 0) (f.mtc (rtOf w) (rdOf w) (selOf w))
    | 0x06 => strictCop z (moveZeroOf w == 0 && selOf w == 0) (f.ctc (rtOf w) (rdOf w))
    | 0x08 =>
      match (rtOf w).toNat with
      | 0x00 => .instr (f.bcf (immOf w))
      | 0x01 => .instr (f.bct (immOf w))
      | _ => .copUndefined z
    | _ => .copUndefined z

/-- The decoding procedure for one instruction word (R144, R145). -/
def decode (w : Word) : Decoded :=
  let rs := rsOf w
  let rt := rtOf w
  let imm := immOf w
  match (opOf w).toNat with
  | 0x00 => decodeSpecial w
  | 0x01 => decodeRegimm w
  | 0x02 => .instr (.j (targetOf w))
  | 0x03 => .instr (.jal (targetOf w))
  | 0x04 => .instr (.beq rs rt imm)
  | 0x05 => .instr (.bne rs rt imm)
  | 0x06 => strict (rt == 0) (.blez rs imm)
  | 0x07 => strict (rt == 0) (.bgtz rs imm)
  | 0x08 => .instr (.addi rs rt imm)
  | 0x09 => .instr (.addiu rs rt imm)
  | 0x0a => .instr (.slti rs rt imm)
  | 0x0b => .instr (.sltiu rs rt imm)
  | 0x0c => .instr (.andi rs rt imm)
  | 0x0d => .instr (.ori rs rt imm)
  | 0x0e => .instr (.xori rs rt imm)
  | 0x0f => strict (rs == 0) (.lui rt imm)
  | 0x10 => decodeCop0 w
  | 0x11 => decodeCopZ 1 cop1Forms w
  | 0x12 => decodeCopZ 2 cop2Forms w
  | 0x13 => decodeCopZ 3 cop3Forms w
  | 0x20 => .instr (.lb rs rt imm)
  | 0x21 => .instr (.lh rs rt imm)
  | 0x22 => .instr (.lwl rs rt imm)
  | 0x23 => .instr (.lw rs rt imm)
  | 0x24 => .instr (.lbu rs rt imm)
  | 0x25 => .instr (.lhu rs rt imm)
  | 0x26 => .instr (.lwr rs rt imm)
  | 0x28 => .instr (.sb rs rt imm)
  | 0x29 => .instr (.sh rs rt imm)
  | 0x2a => .instr (.swl rs rt imm)
  | 0x2b => .instr (.sw rs rt imm)
  | 0x2e => .instr (.swr rs rt imm)
  | 0x2f => .instr (.cache rs rt imm)
  | 0x30 => .instr (.ll rs rt imm)
  | 0x31 => .instr (.lwc1 rs rt imm)
  | 0x32 => .instr (.lwc2 rs rt imm)
  | 0x33 => .instr (.lwc3 rs rt imm)
  | 0x38 => .instr (.sc rs rt imm)
  | 0x39 => .instr (.swc1 rs rt imm)
  | 0x3a => .instr (.swc2 rs rt imm)
  | 0x3b => .instr (.swc3 rs rt imm)
  | _ => .reserved

/-- The decoder on the bytes of an instruction at rising addresses: exactly four of them, big-endian (R140). -/
def decodeBytes (bs : List Byte) : Decoded :=
  match bs with
  | [b0, b1, b2, b3] => decode (wordOfBytes b0 b1 b2 b3)
  | _ => .wrongLength

/-! ## The encoder -/

/-- The word of an instruction, field by field from its encoding line (R201 to R224, R241 to R248, R263 to R274, R291 to
R303, R312, R313, R331 to R336, R353 to R361, R381 to R394). -/
def encode : Instr → Word
  | .add rs rt rd => encR 0x00 rs rt rd 0 0x20
  | .addu rs rt rd => encR 0x00 rs rt rd 0 0x21
  | .sub rs rt rd => encR 0x00 rs rt rd 0 0x22
  | .subu rs rt rd => encR 0x00 rs rt rd 0 0x23
  | .and rs rt rd => encR 0x00 rs rt rd 0 0x24
  | .or rs rt rd => encR 0x00 rs rt rd 0 0x25
  | .xor rs rt rd => encR 0x00 rs rt rd 0 0x26
  | .nor rs rt rd => encR 0x00 rs rt rd 0 0x27
  | .slt rs rt rd => encR 0x00 rs rt rd 0 0x2a
  | .sltu rs rt rd => encR 0x00 rs rt rd 0 0x2b
  | .addi rs rt imm => encI 0x08 rs rt imm
  | .addiu rs rt imm => encI 0x09 rs rt imm
  | .slti rs rt imm => encI 0x0a rs rt imm
  | .sltiu rs rt imm => encI 0x0b rs rt imm
  | .andi rs rt imm => encI 0x0c rs rt imm
  | .ori rs rt imm => encI 0x0d rs rt imm
  | .xori rs rt imm => encI 0x0e rs rt imm
  | .lui rt imm => encI 0x0f 0 rt imm
  | .sll rt rd shamt => encR 0x00 0 rt rd shamt 0x00
  | .srl rt rd shamt => encR 0x00 0 rt rd shamt 0x02
  | .sra rt rd shamt => encR 0x00 0 rt rd shamt 0x03
  | .sllv rs rt rd => encR 0x00 rs rt rd 0 0x04
  | .srlv rs rt rd => encR 0x00 rs rt rd 0 0x06
  | .srav rs rt rd => encR 0x00 rs rt rd 0 0x07
  | .mult rs rt => encR 0x00 rs rt 0 0 0x18
  | .multu rs rt => encR 0x00 rs rt 0 0 0x19
  | .div rs rt => encR 0x00 rs rt 0 0 0x1a
  | .divu rs rt => encR 0x00 rs rt 0 0 0x1b
  | .mfhi rd => encR 0x00 0 0 rd 0 0x10
  | .mthi rs => encR 0x00 rs 0 0 0 0x11
  | .mflo rd => encR 0x00 0 0 rd 0 0x12
  | .mtlo rs => encR 0x00 rs 0 0 0 0x13
  | .j target => encJ 0x02 target
  | .jal target => encJ 0x03 target
  | .jr rs => encR 0x00 rs 0 0 0 0x08
  | .jalr rs rd => encR 0x00 rs 0 rd 0 0x09
  | .beq rs rt imm => encI 0x04 rs rt imm
  | .bne rs rt imm => encI 0x05 rs rt imm
  | .blez rs imm => encI 0x06 rs 0 imm
  | .bgtz rs imm => encI 0x07 rs 0 imm
  | .bltz rs imm => encI 0x01 rs 0x00 imm
  | .bgez rs imm => encI 0x01 rs 0x01 imm
  | .bltzal rs imm => encI 0x01 rs 0x10 imm
  | .bgezal rs imm => encI 0x01 rs 0x11 imm
  | .lb rs rt imm => encI 0x20 rs rt imm
  | .lbu rs rt imm => encI 0x24 rs rt imm
  | .lh rs rt imm => encI 0x21 rs rt imm
  | .lhu rs rt imm => encI 0x25 rs rt imm
  | .lw rs rt imm => encI 0x23 rs rt imm
  | .sb rs rt imm => encI 0x28 rs rt imm
  | .sh rs rt imm => encI 0x29 rs rt imm
  | .sw rs rt imm => encI 0x2b rs rt imm
  | .lwl rs rt imm => encI 0x22 rs rt imm
  | .lwr rs rt imm => encI 0x26 rs rt imm
  | .swl rs rt imm => encI 0x2a rs rt imm
  | .swr rs rt imm => encI 0x2e rs rt imm
  | .ll rs rt imm => encI 0x30 rs rt imm
  | .sc rs rt imm => encI 0x38 rs rt imm
  | .syscall code => encCode code 0x0c
  | .brk code => encCode code 0x0d
  | .sync => encCode 0 0x0f
  | .cache rs op imm => encI 0x2f rs op imm
  | .mfc1 rt rd sel => encMove 0x11 0x00 rt rd sel
  | .mtc1 rt rd sel => encMove 0x11 0x04 rt rd sel
  | .cfc1 rt rd => encMove 0x11 0x02 rt rd 0
  | .ctc1 rt rd => encMove 0x11 0x06 rt rd 0
  | .bc1f imm => encI 0x11 0x08 0x00 imm
  | .bc1t imm => encI 0x11 0x08 0x01 imm
  | .cop1 cofun => encCop 0x11 cofun
  | .lwc1 rs rt imm => encI 0x31 rs rt imm
  | .swc1 rs rt imm => encI 0x39 rs rt imm
  | .mfc2 rt rd sel => encMove 0x12 0x00 rt rd sel
  | .mtc2 rt rd sel => encMove 0x12 0x04 rt rd sel
  | .cfc2 rt rd => encMove 0x12 0x02 rt rd 0
  | .ctc2 rt rd => encMove 0x12 0x06 rt rd 0
  | .bc2f imm => encI 0x12 0x08 0x00 imm
  | .bc2t imm => encI 0x12 0x08 0x01 imm
  | .cop2 cofun => encCop 0x12 cofun
  | .lwc2 rs rt imm => encI 0x32 rs rt imm
  | .swc2 rs rt imm => encI 0x3a rs rt imm
  | .mfc3 rt rd sel => encMove 0x13 0x00 rt rd sel
  | .mtc3 rt rd sel => encMove 0x13 0x04 rt rd sel
  | .cfc3 rt rd => encMove 0x13 0x02 rt rd 0
  | .ctc3 rt rd => encMove 0x13 0x06 rt rd 0
  | .bc3f imm => encI 0x13 0x08 0x00 imm
  | .bc3t imm => encI 0x13 0x08 0x01 imm
  | .cop3 cofun => encCop 0x13 cofun
  | .lwc3 rs rt imm => encI 0x33 rs rt imm
  | .swc3 rs rt imm => encI 0x3b rs rt imm
  | .mfc0 rt rd sel => encMove 0x10 0x00 rt rd sel
  | .mtc0 rt rd sel => encMove 0x10 0x04 rt rd sel
  | .tlbr => encCop0 0x01
  | .tlbwi => encCop0 0x02
  | .tlbwr => encCop0 0x06
  | .tlbp => encCop0 0x08
  | .rfe => encCop0 0x10
  | .wait => encCop0 0x20

/-- The instruction the decoder reads from an instruction whose low `nbits` bits are `w` and whose bits above are zero,
its bytes laid out as memory holds them (R140: the most significant byte at the lowest address). -/
def decodeTableWord (nbits w : Nat) : Option Instr :=
  let v : Word := BitVec.ofNat 32 (w % 2 ^ nbits)
  match decodeBytes [byteOfWord v 0, byteOfWord v 1, byteOfWord v 2, byteOfWord v 3] with
  | .instr i => some i
  | .reserved | .copUndefined _ | .mustBeZero | .syncNotZero | .wrongLength => none

end Sys2Proof
end

