-- ==== Sys2Proof/Machine/Fetch.lean ====
section
/-! DEFINITION. What a step does before an instruction executes: sleeping and waking, the fetch, and the words that are no
instruction (spec/00_scope.md R11, spec/20_memory.md R102, spec/30_encoding.md R149, R160). -/

namespace Sys2Proof.Machine

/-- The processor sleeps: `idle`, and no hardware line is active (spec/46_kernel_cp0.md R394). -/
def asleep (s : State) : Bool := s.idle && s.irq == 0#6

/-- `idle <- false` (spec/00_scope.md R11). -/
def wake (s : State) : State := { s with idle := false }

/-- Where the instruction at `pc` lies in physical memory, or why it cannot be fetched (spec/20_memory.md R102). -/
def fetchAddress (s : State) : Access := memAddress s s.pc .fetch 4 true

/-- The four bytes of the instruction at a physical address, at rising addresses. -/
def fetchBytes (m : Memory) (pa : Word) : List Byte :=
  [m.read (byteAddr pa 0), m.read (byteAddr pa 1), m.read (byteAddr pa 2), m.read (byteAddr pa 3)]

/-- A coprocessor word the spec does not define: CPU(z) where coprocessor `z` is not usable, else refused
(spec/45_coprocessor.md R352, R362; log 22). -/
def undefinedCop (z : BitVec 2) (s : State) : Result :=
  if z = 0#2 then cp0Guard s (.refused (.copUndefined z))
  else if s.status.copEnabled z then .refused (.copUndefined z) else raise (.cpu z) s

/-- A word that is `SYNC` but for must-be-zero bits (spec/30_encoding.md R149, R160, R161). -/
def syncNotZeroResult (s : State) : Result := if s.cfg.hasSync then .refused .mustBeZero else raise .ri s

end Sys2Proof.Machine
end

