-- ==== Sys2Proof/Machine/Step.lean ====
section
/-! DEFINITION. The instruction step (spec/00_scope.md R11). -/

namespace Sys2Proof.Machine

/-- The decoded word: an instruction executes; a reserved word raises RI (spec/30_encoding.md R160); the rest as
`undefinedCop` and R149 say. `wrongLength` cannot arise: a fetch gives four bytes. -/
def runDecoded (d : Decoded) (s : State) : Result :=
  match d with
  | .instr i => exec i s
  | .reserved => raise .ri s
  | .copUndefined z => undefinedCop z s
  | .mustBeZero => .refused .mustBeZero
  | .syncNotZero => syncNotZeroResult s
  | .wrongLength => raise .ri s

/-- Fetch, decode and execute the instruction at `pc`; where a device answers the fetch the word is the device's
(spec/20_memory.md R102; log 23). -/
def runNext (s : State) : Result :=
  (fetchAddress s).andThen s (fun pa => runDecoded (decodeBytes (fetchBytes s.mem pa)) s) fun pa =>
    runDecoded (decodeBytes (fetchBytes (deviceBytes s pa) pa)) (countDraw s)

/-- The step once the boundary's events have happened (R11): a processor that is shut down never steps, one that sleeps
waits, a pending interrupt is taken before the next instruction is fetched (spec/60_exceptions.md R451). -/
def stepAfterEvents (s : State) : Result :=
  if s.shutdown then .fault .shutdown
  else if asleep s then .next s
  else if interruptPending (wake s) then raise .irq (wake s)
  else runNext (wake s)

/-- One step: what the outside does at the boundary, then the processor. -/
def step (s : State) : Host.Outcome State Fault Refusal := stepAfterEvents (beginStep s)

/-- `s` with the instruction whose low `nbits` bits are `w` stored where `step` fetches its next instruction: the four
bytes at the physical address of `pc`. Where that address cannot be fetched from, nothing is changed. -/
def State.withFetchWord (s : State) (nbits w : Nat) : State :=
  match fetchAddress (beginStep s) with
  | .ok pa => { s with mem := s.mem.write32 pa (BitVec.ofNat 32 (w % 2 ^ nbits)) }
  | .raise _ | .machineCheck | .device _ => s

end Sys2Proof.Machine
end

