-- ==== Sys2Proof/Safety.lean ====
section
/-! DEFINITION. What counts as a safe run, the invariants, and the terms in which claims say what an instruction leaves
unchanged. -/

namespace Sys2Proof.Machine

/-! ## Safe runs -/

/-- The outcome is a next state. -/
def Completes (r : Result) : Prop := ∃ t, r = .next t

/-- The outcome is a refusal: the spec gives the situation no meaning. -/
def Refuses (r : Result) : Prop := ∃ why, r = .refused why

/-- The machine takes `n` steps from `s` without a fault or a refusal. -/
def SafeFor : Nat → State → Prop
  | 0, _ => True
  | n + 1, s => ∃ t, step s = .next t ∧ SafeFor n t

/-! ## Frames: what stays -/

/-- Every general register reads as before. -/
def SameRegs (s t : State) : Prop := ∀ r, readReg t r = readReg s r

/-- The general registers after a write of `v` to `rd`: register 0 reads 0, `rd` reads `v`, the others as before
(spec/10_state.md R21). -/
def WritesReg (s t : State) (rd : Reg) (v : Word) : Prop :=
  ∀ r, readReg t r = if r = 0#5 then 0#32 else if r = rd then v else readReg s r

/-- HI and LO stay. -/
def SameHiLo (s t : State) : Prop := t.hi = s.hi ∧ t.lo = s.lo

/-- Every coprocessor-0 register but STATUS and CAUSE, and the TLB, stay. -/
def SameMmu (s t : State) : Prop :=
  t.index = s.index ∧ t.tlblo = s.tlblo ∧ t.context = s.context ∧ t.badvaddr = s.badvaddr ∧ t.tlbhi = s.tlbhi ∧
    t.tlb = s.tlb

/-- STATUS, CAUSE and EPC stay. -/
def SameStatus (s t : State) : Prop := t.status = s.status ∧ t.cause = s.cause ∧ t.epc = s.epc

/-- Every coprocessor-0 register and the TLB stay. -/
def SameCp0 (s t : State) : Prop := SameMmu s t ∧ SameStatus s t

/-- The load-linked reservation stays. -/
def SameReservation (s t : State) : Prop := t.llbit = s.llbit ∧ t.lladdr = s.lladdr

/-- Every byte of memory reads as before. -/
def SameMem (s t : State) : Prop := ∀ a, t.mem.read a = s.mem.read a

/-- Every byte of memory outside the `n` bytes from physical address `pa` reads as before. -/
def SameMemOutside (s t : State) (pa : Word) (n : Nat) : Prop :=
  ∀ a, (∀ k, k < n → a ≠ byteAddr pa k) → t.mem.read a = s.mem.read a

/-- Neither asleep nor shut down more than before; lines, pending inputs and parameters as before. -/
def SameOutside (s t : State) : Prop :=
  t.idle = s.idle ∧ t.shutdown = s.shutdown ∧ t.irq = s.irq ∧ t.inputs = s.inputs ∧ t.cfg = s.cfg

/-- The end of an instruction that is no branch (spec/00_scope.md R11). -/
def GoesOn (s t : State) : Prop := t.pc = s.npc ∧ t.npc = s.npc + 4#32 ∧ t.inDelay = false

/-- The end of a branch: the delay slot is next and `next` after it (spec/42_branch_jump.md R260). -/
def Branches (s t : State) (next : Word) : Prop := t.pc = s.npc ∧ t.npc = next ∧ t.inDelay = true

/-- The whole effect of an instruction that writes one general register and goes on. -/
def RegOnly (s t : State) (rd : Reg) (v : Word) : Prop :=
  WritesReg s t rd v ∧ GoesOn s t ∧ SameHiLo s t ∧ SameCp0 s t ∧ SameReservation s t ∧ SameMem s t ∧ SameOutside s t

/-- The whole effect of an instruction that writes HI and LO and goes on. -/
def HiLoOnly (s t : State) (hi lo : Word) : Prop :=
  t.hi = hi ∧ t.lo = lo ∧ SameRegs s t ∧ GoesOn s t ∧ SameCp0 s t ∧ SameReservation s t ∧ SameMem s t ∧ SameOutside s t

/-- The whole effect of an instruction that only goes on. -/
def NothingElse (s t : State) : Prop :=
  GoesOn s t ∧ SameRegs s t ∧ SameHiLo s t ∧ SameCp0 s t ∧ SameReservation s t ∧ SameMem s t ∧ SameOutside s t

/-- Everything but the program counter, its delay-slot bit and the general registers stays: what a branch keeps. -/
def BranchKeeps (s t : State) : Prop :=
  SameHiLo s t ∧ SameCp0 s t ∧ SameReservation s t ∧ SameMem s t ∧ SameOutside s t

/-- The whole effect of an instruction that stores bytes at physical address `pa`, up to what the bytes are. -/
def StoreOnly (s t : State) (pa : Word) (n : Nat) : Prop :=
  SameMemOutside s t pa n ∧ GoesOn s t ∧ SameRegs s t ∧ SameHiLo s t ∧ SameCp0 s t ∧ SameReservation s t ∧
    SameOutside s t

/-- What a coprocessor-0 write keeps besides the coprocessor-0 registers and the TLB. -/
def KernelKeeps (s t : State) : Prop :=
  GoesOn s t ∧ SameRegs s t ∧ SameHiLo s t ∧ SameReservation s t ∧ SameMem s t ∧ SameOutside s t

/-! ## Steps -/

/-- The processor is about to fetch: once the boundary's events have happened it is neither shut down nor asleep, and no
interrupt is pending. `b` is the state the fetch sees (spec/00_scope.md R11). -/
def AboutToFetch (s b : State) : Prop :=
  b = wake (beginStep s) ∧ (beginStep s).shutdown = false ∧ asleep (beginStep s) = false ∧ interruptPending b = false

/-- The processor is about to run the word at physical address `pa`. -/
def AboutToRun (s b : State) (pa : Word) : Prop := AboutToFetch s b ∧ fetchAddress b = .ok pa

/-! ## Invariants -/

/-- Outside a delay slot the next instruction is the one that follows in memory (spec/10_state.md R27). -/
def FlowSound (s : State) : Prop := s.inDelay = false → s.npc = s.pc + 4#32

/-- Memory is in its canonical form. -/
def MemoryCanonical (s : State) : Prop := s.mem.wf = true

/-- No two TLB entries can match the same virtual address (spec/20_memory.md R92). -/
def TlbNoDup (t : Tlb) : Prop := ∀ i j : Slot, i ≠ j → (tlbAt t i).clashes (tlbAt t j) = false

/-- What a processor reset leaves in the TLB holds no such pair: `TLB_RESET_NODUP` for the resets the outside raises
(spec/46_kernel_cp0.md R390). -/
def External.noDup : External → Prop
  | .hardReset tlb => TlbNoDup tlb
  | .lines _ | .busWrite _ _ | .softReset | .nmi => True

/-- The TLB holds no two entries that can match the same address, and no coming reset brings such a pair. -/
def TlbSound (s : State) : Prop := TlbNoDup s.tlb ∧ ∀ events ∈ s.inputs, ∀ e ∈ events, External.noDup e

end Sys2Proof.Machine
end

