-- ==== Sys2Proof/WellFormed.lean ====
section
/-! DEFINITION. Which instructions have operands the spec allows. Every field has the width of its encoding, so the
only checks left are the register operands that spec/42_branch_jump.md R266, R273 and R274 do not allow. -/

namespace Sys2Proof

/-- `JALR` with `rd = rs` and `BLTZAL`, `BGEZAL` with `rs = 31` are not allowed (spec/42_branch_jump.md R266, R273,
R274); every other instruction is well formed whatever its fields. -/
def Instr.wellFormed : Instr → Bool
  | .jalr rs rd => rd != rs
  | .bltzal rs _ => rs != 31#5
  | .bgezal rs _ => rs != 31#5
  | .add .. | .addu .. | .sub .. | .subu .. | .and .. | .or .. | .xor .. | .nor .. | .slt .. | .sltu .. => true
  | .addi .. | .addiu .. | .slti .. | .sltiu .. | .andi .. | .ori .. | .xori .. | .lui .. => true
  | .sll .. | .srl .. | .sra .. | .sllv .. | .srlv .. | .srav .. => true
  | .mult .. | .multu .. | .div .. | .divu .. | .mfhi .. | .mthi .. | .mflo .. | .mtlo .. => true
  | .j .. | .jal .. | .jr .. | .beq .. | .bne .. | .blez .. | .bgtz .. | .bltz .. | .bgez .. => true
  | .lb .. | .lbu .. | .lh .. | .lhu .. | .lw .. | .sb .. | .sh .. | .sw .. => true
  | .lwl .. | .lwr .. | .swl .. | .swr .. | .ll .. | .sc .. => true
  | .syscall .. | .brk .. | .sync | .cache .. => true
  | .mfc1 .. | .mtc1 .. | .cfc1 .. | .ctc1 .. | .bc1f .. | .bc1t .. | .cop1 .. | .lwc1 .. | .swc1 .. => true
  | .mfc2 .. | .mtc2 .. | .cfc2 .. | .ctc2 .. | .bc2f .. | .bc2t .. | .cop2 .. | .lwc2 .. | .swc2 .. => true
  | .mfc3 .. | .mtc3 .. | .cfc3 .. | .ctc3 .. | .bc3f .. | .bc3t .. | .cop3 .. | .lwc3 .. | .swc3 .. => true
  | .mfc0 .. | .mtc0 .. | .tlbr | .tlbwi | .tlbwr | .tlbp | .rfe | .wait => true

end Sys2Proof
end

