-- ==== Sys2Proof/Certificates/Slice0/Obligations.lean ====
section
/-! DEFINITION. The statements for the provers. -/

open Sys2Proof Sys2Proof.Machine

/-! ## Encoding -/

/-- Decoding the word of an instruction gives the instruction back, whatever its operands (spec/30_encoding.md R141,
R144). -/
def Obligations.DecodeOfEncode : Prop := ∀ i : Instr, decode (encode i) = .instr i

/-- A word that decodes to an instruction is the word of that instruction: no two words mean the same, and no bit of a
decoded word is ignored (spec/30_encoding.md R144, R149). -/
def Obligations.EncodeOfDecode : Prop := ∀ (w : Word) (i : Instr), decode w = .instr i → encode i = w

/-- Words written out from the encoding lines of the spec, one or more a family, decode to their instructions. -/
def Obligations.SpecWordsDecode : Prop :=
  decode 0x00221820#32 = .instr (.add 1 2 3) ∧
  decode 0x2022ffff#32 = .instr (.addi 1 2 0xffff) ∧
  decode 0x00021903#32 = .instr (.sra 2 3 4) ∧
  decode 0x0022001a#32 = .instr (.div 1 2) ∧
  decode 0x0320f809#32 = .instr (.jalr 25 31) ∧
  decode 0x04310001#32 = .instr (.bgezal 1 1) ∧
  decode 0xac220008#32 = .instr (.sw 1 2 8) ∧
  decode 0xe0220000#32 = .instr (.sc 1 2 0) ∧
  decode 0x0007000d#32 = .instr (.brk 0x1c00) ∧
  decode 0x46020800#32 = .instr (.cop1 0x0020800) ∧
  decode 0x40846000#32 = .instr (.mtc0 4 12 0) ∧
  decode 0x42000010#32 = .instr .rfe

/-- Which words are no instruction, class by class. The reserved words are those of the `*` cells of the primary, SPECIAL and
REGIMM maps, whatever their other bits (spec/30_encoding.md R145, R146, R147, R160). The undefined words of coprocessor `z` are
those of its opcode that are none of its forms with their must-be-zero bits zero (R148, spec/45_coprocessor.md R362; that
must-be-zero bits of coprocessors 1 to 3 count here is log 22). A word with the opcode of another instruction and
must-be-zero bits that are not zero is a class of its own (R149), and for `SYNC` yet another (log 30). Every word is four
bytes (R140), so that no word is refused for its length. -/
def Obligations.ReservedWordsAreTheStarCells : Prop :=
  (∀ w : Word,
    (decode w = .reserved ↔
      (opOf w).toNat ∈ [0x14, 0x15, 0x16, 0x17, 0x18, 0x19, 0x1a, 0x1b, 0x1c, 0x1d, 0x1e, 0x1f, 0x27, 0x2c, 0x2d, 0x34, 0x35,
        0x36, 0x37, 0x3c, 0x3d, 0x3e, 0x3f] ∨
      ((opOf w).toNat = 0 ∧ (functOf w).toNat ∈ [0x01, 0x05, 0x0a, 0x0b, 0x0e, 0x14, 0x15, 0x16, 0x17, 0x1c, 0x1d, 0x1e, 0x1f,
        0x28, 0x29, 0x2c, 0x2d, 0x2e, 0x2f, 0x30, 0x31, 0x32, 0x33, 0x34, 0x35, 0x36, 0x37, 0x38, 0x39, 0x3a, 0x3b, 0x3c, 0x3d,
        0x3e, 0x3f]) ∨
      ((opOf w).toNat = 1 ∧ (rtOf w).toNat ∉ [0x00, 0x01, 0x10, 0x11])) ∧
    (decode w = .copUndefined 0#2 ↔ (opOf w).toNat = 0x10 ∧
      ¬ (copBitOf w = 1#1 ∧ opZeroOf w = 0#19 ∧ (functOf w).toNat ∈ [0x01, 0x02, 0x06, 0x08, 0x10, 0x20]) ∧
      ¬ ((rsOf w).toNat ∈ [0x00, 0x04] ∧ moveZeroOf w = 0#8)) ∧
    (∀ z : BitVec 2, z ≠ 0#2 → (decode w = .copUndefined z ↔ (opOf w).toNat = 0x10 + z.toNat ∧ copBitOf w = 0#1 ∧
      ¬ ((rsOf w).toNat ∈ [0x00, 0x04] ∧ moveZeroOf w = 0#8) ∧
      ¬ ((rsOf w).toNat ∈ [0x02, 0x06] ∧ moveZeroOf w = 0#8 ∧ selOf w = 0#3) ∧
      ¬ ((rsOf w).toNat = 0x08 ∧ (rtOf w).toNat ∈ [0x00, 0x01]))) ∧
    (decode w = .mustBeZero ↔
      ((opOf w).toNat = 0 ∧ (((functOf w).toNat ∈ [0x00, 0x02, 0x03, 0x10, 0x12] ∧ rsOf w ≠ 0#5) ∨
        ((functOf w).toNat ∈ [0x08, 0x09, 0x10, 0x11, 0x12, 0x13] ∧ rtOf w ≠ 0#5) ∨
        ((functOf w).toNat ∈ [0x08, 0x11, 0x13, 0x18, 0x19, 0x1a, 0x1b] ∧ rdOf w ≠ 0#5) ∨
        ((functOf w).toNat ∈ [0x04, 0x06, 0x07, 0x08, 0x09, 0x10, 0x11, 0x12, 0x13, 0x18, 0x19, 0x1a, 0x1b, 0x20, 0x21, 0x22,
          0x23, 0x24, 0x25, 0x26, 0x27, 0x2a, 0x2b] ∧ shamtOf w ≠ 0#5))) ∨
      ((opOf w).toNat ∈ [0x06, 0x07] ∧ rtOf w ≠ 0#5) ∨
      ((opOf w).toNat = 0x0f ∧ rsOf w ≠ 0#5)) ∧
    (decode w = .syncNotZero ↔ (opOf w).toNat = 0 ∧ (functOf w).toNat = 0x0f ∧ codeOf w ≠ 0#20) ∧
    decode w ≠ .wrongLength) ∧
  ∀ bs : List Byte, decodeBytes bs = .wrongLength ↔ bs.length ≠ 4

/-! ## The step -/

/-- A step runs the decoded instruction: when the four bytes at the physical address of `pc` decode to `i`, the step is
`exec i` on the state the fetch sees (spec/00_scope.md R11, spec/20_memory.md R102). -/
def Obligations.StepRunsDecodedInstruction : Prop :=
  ∀ (s b : State) (pa : Word) (i : Instr), AboutToRun s b pa → decodeBytes (fetchBytes b.mem pa) = .instr i →
    step s = exec i b

/-- An instruction's word stored where the next fetch reads is the instruction the step runs: store, fetch and decode
agree on the byte order, which is big-endian by decision D1 (spec/20_memory.md R85, R115; spec/30_encoding.md R140;
log 1). -/
def Obligations.StepRunsStoredWord : Prop :=
  ∀ (s : State) (pa : Word) (i : Instr), s.inputs = [] → s.shutdown = false → asleep s = false →
    interruptPending s = false → fetchAddress s = .ok pa →
    step (s.withFetchWord 32 (encode i).toNat) = exec i { s with mem := s.mem.write32 pa (encode i), idle := false }

/-- Words that are no instruction: a reserved word raises RI (spec/30_encoding.md R160); a word of coprocessor `z` that the
spec does not define raises CPU(z) where `z` is not usable and is refused where it is (spec/45_coprocessor.md R351, R352,
R362); must-be-zero bits that are not zero are refused (R149). That a `SYNC` word with such bits is reserved, and raises RI, on the
version that lacks `SYNC` is the model's reading (log 30): R149 read alone refuses it, and R161 speaks of `SYNC` itself. That
the usability check comes before the must-be-zero check of a coprocessor word is the model's reading too (log 22). Which
words are of each class is said by `ReservedWordsAreTheStarCells`. -/
def Obligations.WordsThatAreNoInstruction : Prop :=
  ∀ (s b : State) (pa : Word), AboutToRun s b pa →
    (decodeBytes (fetchBytes b.mem pa) = .reserved → step s = .next (trapEntry .ri b)) ∧
    (decodeBytes (fetchBytes b.mem pa) = .mustBeZero → step s = .refused .mustBeZero) ∧
    (decodeBytes (fetchBytes b.mem pa) = .syncNotZero →
      step s = if b.cfg.version = .v2 then .refused .mustBeZero else .next (trapEntry .ri b)) ∧
    (decodeBytes (fetchBytes b.mem pa) = .copUndefined 0#2 →
      step s = if cp0Usable b then .refused (.copUndefined 0#2) else .next (trapEntry (.cpu 0#2) b)) ∧
    (∀ z : BitVec 2, z ≠ 0#2 → decodeBytes (fetchBytes b.mem pa) = .copUndefined z →
      step s = if b.status.copEnabled z then .refused (.copUndefined z) else .next (trapEntry (.cpu z) b))

/-- Fetch exceptions: whatever a fetch raises is taken with nothing executed, a misaligned `pc` and a `pc` with bit 31 set in
user mode as ADEL with that address, a mapped `pc` (kuseg, or kseg2 in kernel mode) that nothing matches or that an invalid
entry matches as TLBL, an unanswered physical address as IBE (spec/20_memory.md R82, R86, R91, R99, R102;
spec/42_branch_jump.md R261). A `pc` that two entries match shuts the processor down (R92). Where a device answers the fetch,
the step runs some word, the device's (R89, R102; that it is a free value is log 23). That a fetch uses the load codes is
decision D22 of spec/92_eei_decisions.md. -/
def Obligations.FetchExceptions : Prop :=
  ∀ s b : State, AboutToFetch s b →
    (b.pc.toNat % 4 ≠ 0 ∨ (b.status.kuc = true ∧ b.pc.msb = true) → step s = .next (trapEntry (.adel b.pc) b)) ∧
    (b.pc.toNat % 4 = 0 → b.pc.toNat < 0x80000000 ∨ (0xc0000000 ≤ b.pc.toNat ∧ b.status.kuc = false) →
      ((∀ i, (tlbAt b.tlb i).hits (pageOf b.pc) b.tlbhi.asid = false) →
        step s = .next (trapEntry (.tlbl b.pc (decide (b.pc.toNat < 0x80000000))) b)) ∧
      (∀ i, (∀ j, (tlbAt b.tlb j).hits (pageOf b.pc) b.tlbhi.asid = true ↔ j = i) → (tlbAt b.tlb i).lo.v = false →
        step s = .next (trapEntry (.tlbl b.pc false) b)) ∧
      ((∃ i j, i ≠ j ∧ (tlbAt b.tlb i).hits (pageOf b.pc) b.tlbhi.asid = true ∧
          (tlbAt b.tlb j).hits (pageOf b.pc) b.tlbhi.asid = true) → step s = .next (shutDown b))) ∧
    (∀ pa, Machine.translate b b.pc .fetch 4 true = .ok pa →
      (physAt b.cfg pa = none → step s = .next (trapEntry .ibe b)) ∧
      (physAt b.cfg pa = some .device → ∃ w, step s = runDecoded (decode w) (countDraw b))) ∧
    ∀ e, fetchAddress b = .raise e → step s = .next (trapEntry e b)

/-- An interrupt is pending exactly when interrupts are enabled and some line is active and enabled; a pending interrupt
is taken before the next fetch, also on waking from `WAIT`, and without one the instruction at `pc` is fetched
(spec/60_exceptions.md R450, R451; the condition is decision D23 of spec/92_eei_decisions.md). -/
def Obligations.InterruptTakenBeforeFetch : Prop :=
  ∀ s b : State, b = wake (beginStep s) → (beginStep s).shutdown = false → asleep (beginStep s) = false →
    (b.status.iec = true ∧ ((∃ n, b.irq.getLsbD n = true ∧ b.status.h.getLsbD n = true) ∨
        ∃ n, b.cause.f.getLsbD n = true ∧ b.status.f.getLsbD n = true) →
      step s = .next (trapEntry .irq b)) ∧
    (¬ (b.status.iec = true ∧ ((∃ n, b.irq.getLsbD n = true ∧ b.status.h.getLsbD n = true) ∨
        ∃ n, b.cause.f.getLsbD n = true ∧ b.status.f.getLsbD n = true)) →
      step s = runNext b)

/-- Sleeping and stopped processors. In `WAIT` with all six lines low nothing changes; any active line wakes the processor,
masked or not, and it then takes the interrupt or runs the next instruction (spec/46_kernel_cp0.md R394), also where the line
is lowered again before the next step (R52 of spec/10_state.md, as log 36 reads it). One that a
machine check has stopped takes no further step, whatever the outside does short of a hard reset (spec/10_state.md R53,
spec/60_exceptions.md R462; that it stops rather than traps is decision D9 of spec/92_eei_decisions.md). R11 and R394 say
"no step" of both: that a sleeping step answers the unchanged state is the model's choice of log 21, that a stopped one
answers the fault is that of log 20. -/
def Obligations.SleepAndShutdown : Prop :=
  (∀ s : State, s.inputs = [] → s.shutdown = false → s.idle = true →
    (s.irq = 0#6 → step s = .next s) ∧
    (s.irq ≠ 0#6 → step s =
      if interruptPending s then .next (trapEntry .irq { s with idle := false }) else runNext { s with idle := false })) ∧
  (∀ (s : State) (level : BitVec 6),
    applyExternal s (.lines level) = { s with irq := level, idle := s.idle && decide (level = 0#6) }) ∧
  ∀ s : State, s.shutdown = true →
    (∀ events, s.inputs.head? = some events → ∀ e ∈ events, ∀ tlb, e ≠ .hardReset tlb) → step s = .fault .shutdown

/-! ## Taking an exception and returning from one -/

/-- EPC, BD, EXC, CE and the bad address. Outside a delay slot EPC is the pc and BD is 0; in one EPC is the branch, four
bytes before, and BD is 1 (spec/60_exceptions.md R441; BD = 0 outside is decision D20). EXC is the code, 0 to 12 for IRQ,
MOD, TLBL, TLBS, ADEL, ADES, IBE, DBE, SYS, BP, RI, CPU, OVF in this order (R421), CE the number for CPU (R442); the five
MMU exceptions load BADVADDR, TLBHI.VPAGE and CONTEXT.VSHIFT from their address, the others none of them (R424, R443; ADEL
and ADES too, decision D38, log 29). -/
def Obligations.TrapRecordsTheEvent : Prop :=
  ∀ (e : Exception) (s : State),
    (trapEntry e s).epc + (if (trapEntry e s).cause.bd then 4#32 else 0#32) = s.pc ∧
    (trapEntry e s).cause.bd = s.inDelay ∧
    (trapEntry e s).cause.exc = (match e with
      | .irq => 0#4
      | .mod _ => 1#4
      | .tlbl _ _ => 2#4
      | .tlbs _ _ => 3#4
      | .adel _ => 4#4
      | .ades _ => 5#4
      | .ibe => 6#4
      | .dbe => 7#4
      | .sys => 8#4
      | .bp => 9#4
      | .ri => 10#4
      | .cpu _ => 11#4
      | .ovf => 12#4) ∧
    (trapEntry e s).cause.exc = e.code ∧
    e.badAddress = (match e with
      | .mod va | .tlbl va _ | .tlbs va _ | .adel va | .ades va => some va
      | .irq | .ibe | .dbe | .sys | .bp | .ri | .cpu _ | .ovf => none) ∧
    (∀ z, e = .cpu z → (trapEntry e s).cause.ce = z) ∧
    (∀ va, e.badAddress = some va →
      1 ≤ e.code.toNat ∧ e.code.toNat ≤ 5 ∧ (trapEntry e s).badvaddr = va ∧
      (trapEntry e s).tlbhi.vpage = va.extractLsb' 12 20 ∧ (trapEntry e s).context.vshift = va.extractLsb' 12 19) ∧
    (e.badAddress = none →
      (e.code.toNat = 0 ∨ 6 ≤ e.code.toNat ∧ e.code.toNat ≤ 12) ∧ (trapEntry e s).badvaddr = s.badvaddr ∧
      (trapEntry e s).tlbhi = s.tlbhi ∧ (trapEntry e s).context = s.context)

/-- The mode stack: STATUS[5:0] becomes STATUS[3:0] and two zeros, no other STATUS bit changes: kernel mode, interrupts
disabled (spec/60_exceptions.md R444). -/
def Obligations.TrapShiftsModeStack : Prop :=
  ∀ (e : Exception) (s : State),
    (trapEntry e s).status.toWord = (s.status.toWord &&& 0xffffffc0#32) ||| ((s.status.toWord &&& 0x0000000f#32) <<< 2) ∧
    (trapEntry e s).status.kuo = s.status.kup ∧ (trapEntry e s).status.ieo = s.status.iep ∧
    (trapEntry e s).status.kup = s.status.kuc ∧ (trapEntry e s).status.iep = s.status.iec ∧
    (trapEntry e s).status.kuc = false ∧ (trapEntry e s).status.iec = false

/-- The vectors: by STATUS.B and by whether the exception is a UTLB exception, which an access raises exactly when it is a
TLB miss (code 2 or 3) at an address with bit 31 clear that no entry matches, in either mode (spec/60_exceptions.md
R445). -/
def Obligations.TrapGoesToVector : Prop :=
  (∀ (e : Exception) (s : State),
    (trapEntry e s).pc =
      (if s.status.b then (if e.isUtlb then 0xbfc00100#32 else 0xbfc00180#32)
        else (if e.isUtlb then 0x80000000#32 else 0x80000080#32)) ∧
    (trapEntry e s).npc = (trapEntry e s).pc + 4#32 ∧ (trapEntry e s).inDelay = false ∧
    (e.isUtlb = true → e.code = 2#4 ∨ e.code = 3#4)) ∧
  ∀ (s : State) (va : Word) (k : AccessKind) (n : Nat) (c : Bool) (e : Exception), memAddress s va k n c = .raise e →
    (e.isUtlb = true ↔ (e.code = 2#4 ∨ e.code = 3#4) ∧ va.msb = false ∧
      ∀ i, (tlbAt s.tlb i).hits (pageOf va) s.tlbhi.asid = false)

/-- What trap entry leaves: general registers, HI, LO, memory, the TLB, INDEX, TLBLO, TLBHI.ASID, CONTEXT.PTBASE, CAUSE.F,
the lines (spec/60_exceptions.md R440, R433, R446); the reservation is given up (R447, decision D18). -/
def Obligations.TrapKeepsTheRest : Prop :=
  ∀ (e : Exception) (s : State),
    SameRegs s (trapEntry e s) ∧ SameHiLo s (trapEntry e s) ∧ SameMem s (trapEntry e s) ∧ SameOutside s (trapEntry e s) ∧
    (trapEntry e s).tlb = s.tlb ∧ (trapEntry e s).index = s.index ∧ (trapEntry e s).tlblo = s.tlblo ∧
    (trapEntry e s).tlbhi.asid = s.tlbhi.asid ∧ (trapEntry e s).context.ptbase = s.context.ptbase ∧
    (trapEntry e s).cause.f = s.cause.f ∧ (trapEntry e s).llbit = false ∧ (trapEntry e s).lladdr = s.lladdr

/-- `RFE` undoes trap entry: in the state trap entry leaves it completes, the current and previous pairs are those of
before the exception, and only the old pair is lost (spec/46_kernel_cp0.md R392; that `RFE` keeps the old pair is
decision D21, log 28). -/
def Obligations.RfeUndoesTrapEntry : Prop :=
  ∀ (e : Exception) (s : State), ∃ t, exec .rfe (trapEntry e s) = .next t ∧
    t.status = { s.status with kuo := s.status.kup, ieo := s.status.iep } ∧ t.epc = (trapEntry e s).epc ∧
    t.cause = (trapEntry e s).cause ∧ t.pc = (trapEntry e s).npc

/-- The return sequence `jr k0; rfe` (any register for k0): after both, the next instruction is the one the register
names, in the restored mode, outside a delay slot (spec/60_exceptions.md R455; that `RFE` keeps the old pair of the mode
stack is decision D21, log 28). -/
def Obligations.ReturnSequence : Prop :=
  ∀ (s : State) (k : Reg), s.inDelay = false → s.status.kuc = false →
    ∃ t u, exec (.jr k) s = .next t ∧ exec .rfe t = .next u ∧
      u.pc = readReg s k ∧ u.npc = readReg s k + 4#32 ∧ u.inDelay = false ∧
      u.status = { s.status with kuc := s.status.kup, iec := s.status.iep, kup := s.status.kuo, iep := s.status.ieo } ∧
      SameRegs s u ∧ SameHiLo s u ∧ SameMmu s u ∧ u.cause = s.cause ∧ u.epc = s.epc ∧ SameReservation s u ∧ SameMem s u ∧
      SameOutside s u

/-! ## Integer arithmetic -/

/-- ADDU, SUBU, AND, OR, XOR, NOR, SLT, SLTU (spec/40_alu.md R202, R204 to R210): the destination holds the result
modulo 2^32, the bitwise result, or the 0 or 1 of the signed or unsigned comparison; nothing else changes. -/
def Obligations.AluRegisterResults : Prop :=
  ∀ (s : State) (rs rt rd : Reg),
    (∃ t v, exec (.addu rs rt rd) s = .next t ∧ RegOnly s t rd v ∧
      v.toNat = ((readReg s rs).toNat + (readReg s rt).toNat) % 2 ^ 32) ∧
    (∃ t v, exec (.subu rs rt rd) s = .next t ∧ RegOnly s t rd v ∧
      (v.toNat + (readReg s rt).toNat) % 2 ^ 32 = (readReg s rs).toNat) ∧
    (∃ t v, exec (.and rs rt rd) s = .next t ∧ RegOnly s t rd v ∧
      ∀ i, v.getLsbD i = ((readReg s rs).getLsbD i && (readReg s rt).getLsbD i)) ∧
    (∃ t v, exec (.or rs rt rd) s = .next t ∧ RegOnly s t rd v ∧
      ∀ i, v.getLsbD i = ((readReg s rs).getLsbD i || (readReg s rt).getLsbD i)) ∧
    (∃ t v, exec (.xor rs rt rd) s = .next t ∧ RegOnly s t rd v ∧
      ∀ i, v.getLsbD i = Bool.xor ((readReg s rs).getLsbD i) ((readReg s rt).getLsbD i)) ∧
    (∃ t v, exec (.nor rs rt rd) s = .next t ∧ RegOnly s t rd v ∧
      ∀ i, i < 32 → v.getLsbD i = !((readReg s rs).getLsbD i || (readReg s rt).getLsbD i)) ∧
    (∃ t, exec (.slt rs rt rd) s = .next t ∧
      RegOnly s t rd (if (readReg s rs).toInt < (readReg s rt).toInt then 1#32 else 0#32)) ∧
    (∃ t, exec (.sltu rs rt rd) s = .next t ∧
      RegOnly s t rd (if (readReg s rs).toNat < (readReg s rt).toNat then 1#32 else 0#32))

/-- ADD, SUB and ADDI: where the exact signed result fits in 32 bits the destination holds it and nothing else changes,
where it does not OVF is taken (spec/40_alu.md R201, R203, R211). -/
def Obligations.SignedOverflowTraps : Prop :=
  ∀ (s : State) (rs rt rd : Reg) (imm : Half),
    (if -2 ^ 31 ≤ (readReg s rs).toInt + (readReg s rt).toInt ∧ (readReg s rs).toInt + (readReg s rt).toInt < 2 ^ 31 then
      ∃ t v, exec (.add rs rt rd) s = .next t ∧ RegOnly s t rd v ∧
        v.toInt = (readReg s rs).toInt + (readReg s rt).toInt
    else exec (.add rs rt rd) s = .next (trapEntry .ovf s)) ∧
    (if -2 ^ 31 ≤ (readReg s rs).toInt - (readReg s rt).toInt ∧ (readReg s rs).toInt - (readReg s rt).toInt < 2 ^ 31 then
      ∃ t v, exec (.sub rs rt rd) s = .next t ∧ RegOnly s t rd v ∧
        v.toInt = (readReg s rs).toInt - (readReg s rt).toInt
    else exec (.sub rs rt rd) s = .next (trapEntry .ovf s)) ∧
    (if -2 ^ 31 ≤ (readReg s rs).toInt + imm.toInt ∧ (readReg s rs).toInt + imm.toInt < 2 ^ 31 then
      ∃ t v, exec (.addi rs rt imm) s = .next t ∧ RegOnly s t rt v ∧ v.toInt = (readReg s rs).toInt + imm.toInt
    else exec (.addi rs rt imm) s = .next (trapEntry .ovf s))

/-- ADDIU, SLTI, SLTIU with the sign-extended immediate, ANDI, ORI, XORI with the zero-extended one, LUI with it in the
upper half (spec/40_alu.md R212 to R218). -/
def Obligations.AluImmediateResults : Prop :=
  ∀ (s : State) (rs rt : Reg) (imm : Half),
    (∃ t, exec (.addiu rs rt imm) s = .next t ∧
      RegOnly s t rt (BitVec.ofInt 32 ((readReg s rs).toNat + imm.toInt))) ∧
    (∃ t, exec (.slti rs rt imm) s = .next t ∧
      RegOnly s t rt (if (readReg s rs).toInt < imm.toInt then 1#32 else 0#32)) ∧
    (∃ t, exec (.sltiu rs rt imm) s = .next t ∧
      RegOnly s t rt
        (if (readReg s rs).toNat < (if imm.msb then imm.toNat + 0xffff0000 else imm.toNat) then 1#32 else 0#32)) ∧
    (∃ t v, exec (.andi rs rt imm) s = .next t ∧ RegOnly s t rt v ∧
      ∀ i, v.getLsbD i = ((readReg s rs).getLsbD i && imm.getLsbD i)) ∧
    (∃ t v, exec (.ori rs rt imm) s = .next t ∧ RegOnly s t rt v ∧
      ∀ i, v.getLsbD i = ((readReg s rs).getLsbD i || imm.getLsbD i)) ∧
    (∃ t v, exec (.xori rs rt imm) s = .next t ∧ RegOnly s t rt v ∧
      ∀ i, v.getLsbD i = Bool.xor ((readReg s rs).getLsbD i) (imm.getLsbD i)) ∧
    (∃ t v, exec (.lui rt imm) s = .next t ∧ RegOnly s t rt v ∧ v.toNat = imm.toNat * 2 ^ 16)

/-- The shifts as arithmetic: left multiplies by a power of two modulo 2^32, logical right divides the unsigned value,
arithmetic right divides the signed value rounding down; a count from a register is taken modulo 32 (spec/40_alu.md R219
to R224). -/
def Obligations.ShiftResults : Prop :=
  ∀ (s : State) (rs rt rd : Reg) (sh : BitVec 5),
    (∃ t v, exec (.sll rt rd sh) s = .next t ∧ RegOnly s t rd v ∧
      v.toNat = (readReg s rt).toNat * 2 ^ sh.toNat % 2 ^ 32) ∧
    (∃ t v, exec (.srl rt rd sh) s = .next t ∧ RegOnly s t rd v ∧ v.toNat = (readReg s rt).toNat / 2 ^ sh.toNat) ∧
    (∃ t v, exec (.sra rt rd sh) s = .next t ∧ RegOnly s t rd v ∧ v.toInt = (readReg s rt).toInt / 2 ^ sh.toNat) ∧
    (∃ t v, exec (.sllv rs rt rd) s = .next t ∧ RegOnly s t rd v ∧
      v.toNat = (readReg s rt).toNat * 2 ^ ((readReg s rs).toNat % 32) % 2 ^ 32) ∧
    (∃ t v, exec (.srlv rs rt rd) s = .next t ∧ RegOnly s t rd v ∧
      v.toNat = (readReg s rt).toNat / 2 ^ ((readReg s rs).toNat % 32)) ∧
    (∃ t v, exec (.srav rs rt rd) s = .next t ∧ RegOnly s t rd v ∧
      v.toInt = (readReg s rt).toInt / 2 ^ ((readReg s rs).toNat % 32))

/-! ## Multiply, divide, HI and LO -/

/-- MFHI, MFLO, MTHI, MTLO (spec/41_muldiv.md R245 to R248). -/
def Obligations.HiLoMoves : Prop :=
  ∀ (s : State) (r : Reg),
    (∃ t, exec (.mfhi r) s = .next t ∧ RegOnly s t r s.hi) ∧
    (∃ t, exec (.mflo r) s = .next t ∧ RegOnly s t r s.lo) ∧
    (∃ t, exec (.mthi r) s = .next t ∧ HiLoOnly s t (readReg s r) s.lo) ∧
    (∃ t, exec (.mtlo r) s = .next t ∧ HiLoOnly s t s.hi (readReg s r))

/-- MULT and MULTU: HI and LO together are the exact signed or unsigned product (spec/41_muldiv.md R241, R242). -/
def Obligations.MultiplyIsExact : Prop :=
  ∀ (s : State) (rs rt : Reg),
    (∃ t hi lo, exec (.mult rs rt) s = .next t ∧ HiLoOnly s t hi lo ∧
      hi.toInt * 2 ^ 32 + lo.toNat = (readReg s rs).toInt * (readReg s rt).toInt) ∧
    (∃ t hi lo, exec (.multu rs rt) s = .next t ∧ HiLoOnly s t hi lo ∧
      hi.toNat * 2 ^ 32 + lo.toNat = (readReg s rs).toNat * (readReg s rt).toNat)

/-- DIV and DIVU by a divisor that is not zero: LO times the divisor plus HI is the dividend, HI is smaller than the
divisor in magnitude, and for DIV it has the dividend's sign or is zero, so that the quotient is rounded toward zero
(spec/41_muldiv.md R243, R244, R249). −2^31 by −1 is left to `DivideParameters`. -/
def Obligations.DivideIsExact : Prop :=
  ∀ (s : State) (rs rt : Reg), readReg s rt ≠ 0#32 →
    (¬ (readReg s rs = 0x80000000#32 ∧ readReg s rt = 0xffffffff#32) →
      ∃ t hi lo, exec (.div rs rt) s = .next t ∧ HiLoOnly s t hi lo ∧
        lo.toInt * (readReg s rt).toInt + hi.toInt = (readReg s rs).toInt ∧
        |hi.toInt| < |(readReg s rt).toInt| ∧ 0 ≤ hi.toInt * (readReg s rs).toInt) ∧
    (∃ t hi lo, exec (.divu rs rt) s = .next t ∧ HiLoOnly s t hi lo ∧
      lo.toNat * (readReg s rt).toNat + hi.toNat = (readReg s rs).toNat ∧ hi.toNat < (readReg s rt).toNat)

/-- The two cases the spec leaves to a parameter: division by zero writes some HI and LO and raises nothing, or raises BP
with HI and LO as they were (spec/41_muldiv.md R250, log 13); −2^31 by −1 writes the values of `DIV_OVF` (R243,
log 14). -/
def Obligations.DivideParameters : Prop :=
  ∀ (s : State) (rs rt : Reg),
    (readReg s rt = 0#32 → s.cfg.divZero = .unpredictable →
      (∃ t hi lo, exec (.div rs rt) s = .next t ∧ HiLoOnly s t hi lo) ∧
      ∃ t hi lo, exec (.divu rs rt) s = .next t ∧ HiLoOnly s t hi lo) ∧
    (readReg s rt = 0#32 → s.cfg.divZero = .trapBp →
      exec (.div rs rt) s = .next (trapEntry .bp s) ∧ exec (.divu rs rt) s = .next (trapEntry .bp s)) ∧
    (readReg s rs = 0x80000000#32 → readReg s rt = 0xffffffff#32 →
      ∃ t, exec (.div rs rt) s = .next t ∧ HiLoOnly s t s.cfg.divOvfHi s.cfg.divOvfLo)

/-! ## Jumps and branches -/

/-- J, JAL, JR, JALR outside a delay slot: the delay slot is next and the target after it; JAL links through x[31], JALR
through `rd`, the link value is `pc + 8`, and JALR's target is read before the link is written (spec/42_branch_jump.md
R260, R263 to R266, R276). -/
def Obligations.JumpsGoToTarget : Prop :=
  ∀ (s : State) (rs rd : Reg) (target : BitVec 26), s.inDelay = false →
    (∃ t v, exec (.j target) s = .next t ∧ Branches s t v ∧
      v.toNat = (s.pc + 4#32).toNat / 2 ^ 28 * 2 ^ 28 + target.toNat * 4 ∧ SameRegs s t ∧ BranchKeeps s t) ∧
    (∃ t v, exec (.jal target) s = .next t ∧ Branches s t v ∧
      v.toNat = (s.pc + 4#32).toNat / 2 ^ 28 * 2 ^ 28 + target.toNat * 4 ∧ WritesReg s t 31#5 (s.pc + 8#32) ∧
      BranchKeeps s t) ∧
    (∃ t, exec (.jr rs) s = .next t ∧ Branches s t (readReg s rs) ∧ SameRegs s t ∧ BranchKeeps s t) ∧
    (rd ≠ rs → ∃ t, exec (.jalr rs rd) s = .next t ∧ Branches s t (readReg s rs) ∧ WritesReg s t rd (s.pc + 8#32) ∧
      BranchKeeps s t)

/-- BEQ, BNE, BLEZ, BGTZ, BLTZ, BGEZ outside a delay slot: the delay slot is next, and after it `pc + 4` plus four times
the signed displacement if the signed condition holds, else the instruction after the delay slot (spec/42_branch_jump.md
R260, R267 to R272). -/
def Obligations.ConditionalBranches : Prop :=
  ∀ (s : State) (rs rt : Reg) (imm : Half) (tgt : Word), s.inDelay = false →
    tgt = BitVec.ofInt 32 (s.pc.toNat + 4 + imm.toInt * 4) →
    (∃ t, exec (.beq rs rt imm) s = .next t ∧ SameRegs s t ∧ BranchKeeps s t ∧
      Branches s t (if readReg s rs = readReg s rt then tgt else s.npc + 4#32)) ∧
    (∃ t, exec (.bne rs rt imm) s = .next t ∧ SameRegs s t ∧ BranchKeeps s t ∧
      Branches s t (if readReg s rs = readReg s rt then s.npc + 4#32 else tgt)) ∧
    (∃ t, exec (.blez rs imm) s = .next t ∧ SameRegs s t ∧ BranchKeeps s t ∧
      Branches s t (if (readReg s rs).toInt ≤ 0 then tgt else s.npc + 4#32)) ∧
    (∃ t, exec (.bgtz rs imm) s = .next t ∧ SameRegs s t ∧ BranchKeeps s t ∧
      Branches s t (if 0 < (readReg s rs).toInt then tgt else s.npc + 4#32)) ∧
    (∃ t, exec (.bltz rs imm) s = .next t ∧ SameRegs s t ∧ BranchKeeps s t ∧
      Branches s t (if (readReg s rs).toInt < 0 then tgt else s.npc + 4#32)) ∧
    (∃ t, exec (.bgez rs imm) s = .next t ∧ SameRegs s t ∧ BranchKeeps s t ∧
      Branches s t (if 0 ≤ (readReg s rs).toInt then tgt else s.npc + 4#32))

/-- BLTZAL and BGEZAL outside a delay slot, `rs` other than 31: x[31] becomes `pc + 8` whether or not the branch is taken,
and the condition is that of `x[rs]` from before (spec/42_branch_jump.md R273, R274). -/
def Obligations.LinkingBranches : Prop :=
  ∀ (s : State) (rs : Reg) (imm : Half) (tgt : Word), s.inDelay = false → rs ≠ 31#5 →
    tgt = BitVec.ofInt 32 (s.pc.toNat + 4 + imm.toInt * 4) →
    (∃ t, exec (.bltzal rs imm) s = .next t ∧ WritesReg s t 31#5 (s.pc + 8#32) ∧ BranchKeeps s t ∧
      Branches s t (if (readReg s rs).toInt < 0 then tgt else s.npc + 4#32)) ∧
    (∃ t, exec (.bgezal rs imm) s = .next t ∧ WritesReg s t 31#5 (s.pc + 8#32) ∧ BranchKeeps s t ∧
      Branches s t (if 0 ≤ (readReg s rs).toInt then tgt else s.npc + 4#32))

/-- Where branches stop: each of the twelve, with operands the spec allows, is refused in a delay slot
(spec/42_branch_jump.md R262, decision D39), and so are JALR with `rd = rs`, BLTZAL and BGEZAL with `rs = 31` anywhere
(R266, R273, R274). -/
def Obligations.BranchStops : Prop :=
  ∀ (s : State) (rs rt rd : Reg) (imm : Half) (target : BitVec 26),
    (s.inDelay = true → ∀ i ∈ [Instr.j target, .jal target, .jr rs, .jalr rs rd, .beq rs rt imm, .bne rs rt imm,
      .blez rs imm, .bgtz rs imm, .bltz rs imm, .bgez rs imm, .bltzal rs imm, .bgezal rs imm], i.wellFormed = true →
      exec i s = .refused .branchInDelaySlot) ∧
    exec (.jalr rs rs) s = .refused .notRestartable ∧
    exec (.bltzal 31#5 imm) s = .refused .notRestartable ∧
    exec (.bgezal 31#5 imm) s = .refused .notRestartable

/-! ## Address translation -/

/-- The direct-mapped segments in kernel mode: kseg0 and kseg1 are two windows on the first 512 MB of physical memory, the
TLB is not consulted (spec/20_memory.md R83). -/
def Obligations.DirectMappedSegments : Prop :=
  ∀ (s : State) (va : Word) (k : AccessKind) (n : Nat) (c : Bool), s.status.kuc = false →
    (c = true → va.toNat % n = 0) →
    (0x80000000 ≤ va.toNat ∧ va.toNat < 0xa0000000 → Machine.translate s va k n c = .ok (va - 0x80000000#32)) ∧
    (0xa0000000 ≤ va.toNat ∧ va.toNat < 0xc0000000 → Machine.translate s va k n c = .ok (va - 0xa0000000#32)) ∧
    (0x80000000 ≤ va.toNat ∧ va.toNat < 0xc0000000 → ∀ tlb, Machine.translate { s with tlb := tlb } va k n c = Machine.translate s va k n c)

/-- Address errors come before translation: a misaligned access, and an access to an address with bit 31 set in user
mode, is ADES for a store and ADEL for a load or a fetch, whatever the TLB holds; a translated address that nothing
answers is DBE for data and IBE for a fetch, one that memory or a device answers reaches it (spec/20_memory.md R82, R86, R99,
R100 to R102). What a device then does is log 23. -/
def Obligations.AddressAndBusErrors : Prop :=
  ∀ (s : State) (va : Word) (k : AccessKind) (n : Nat) (c : Bool),
    ((c = true ∧ va.toNat % n ≠ 0) ∨ (s.status.kuc = true ∧ 0x80000000 ≤ va.toNat) →
      memAddress s va k n c = .raise (if k = .store then .ades va else .adel va)) ∧
    (∀ pa, Machine.translate s va k n c = .ok pa →
      (physAt s.cfg pa = none → memAddress s va k n c = .raise (if k = .fetch then .ibe else .dbe)) ∧
      (physAt s.cfg pa = some .device → memAddress s va k n c = .device pa) ∧
      (physAt s.cfg pa = some .memory → memAddress s va k n c = .ok pa))

/-- The TLB lookup of an aligned address in kuseg, in either mode, or kseg2, in kernel mode: miss, invalid entry, store to
an entry not dirty, success, two matches (spec/20_memory.md R90, R91, R92, R98). An entry matches when its VPAGE is the
page number and its ASID is the current one or its G bit is set, whatever its V bit (R90). -/
def Obligations.TlbLookup : Prop :=
  (∀ (e : TlbEntry) (vpage : BitVec 20) (asid : BitVec 6),
    e.hits vpage asid = true ↔ e.hi.vpage = vpage ∧ (e.hi.asid = asid ∨ e.lo.g = true)) ∧
  ∀ (s : State) (va : Word) (k : AccessKind) (n : Nat) (c : Bool), (c = true → va.toNat % n = 0) →
    (va.toNat < 0x80000000 ∨ (0xc0000000 ≤ va.toNat ∧ s.status.kuc = false)) →
    ((∀ i, (tlbAt s.tlb i).hits (pageOf va) s.tlbhi.asid = false) →
      Machine.translate s va k n c = .raise
        (if k = .store then .tlbs va (decide (va.toNat < 0x80000000)) else .tlbl va (decide (va.toNat < 0x80000000)))) ∧
    (∀ i, (∀ j, (tlbAt s.tlb j).hits (pageOf va) s.tlbhi.asid = true ↔ j = i) →
      ((tlbAt s.tlb i).lo.v = false →
        Machine.translate s va k n c = .raise (if k = .store then .tlbs va false else .tlbl va false)) ∧
      ((tlbAt s.tlb i).lo.v = true → (tlbAt s.tlb i).lo.d = false → k = .store →
        Machine.translate s va k n c = .raise (.mod va)) ∧
      ((tlbAt s.tlb i).lo.v = true → ((tlbAt s.tlb i).lo.d = true ∨ k ≠ .store) →
        ∃ pa, Machine.translate s va k n c = .ok pa ∧ pa.toNat = (tlbAt s.tlb i).lo.ppage.toNat * 4096 + va.toNat % 4096)) ∧
    ((∃ i j, i ≠ j ∧ (tlbAt s.tlb i).hits (pageOf va) s.tlbhi.asid = true ∧
        (tlbAt s.tlb j).hits (pageOf va) s.tlbhi.asid = true) →
      Machine.translate s va k n c = .machineCheck)

/-! ## Loads and stores -/

/-- LB, LBU, LH, LHU, LW: the effective address is the base plus the signed offset modulo 2^32; where memory answers it,
the destination holds the bytes there, big-endian, sign- or zero-extended, and nothing else changes
(spec/43_load_store.md R290 to R295; spec/20_memory.md R85, whose byte order is decision D1, not in the source: log 1). -/
def Obligations.LoadsReadBigEndian : Prop :=
  ∀ (s : State) (rs rt : Reg) (imm : Half) (ea pa : Word), ea = BitVec.ofInt 32 ((readReg s rs).toNat + imm.toInt) →
    (memAddress s ea .load 1 true = .ok pa →
      (∃ t v, exec (.lb rs rt imm) s = .next t ∧ RegOnly s t rt v ∧ v.toInt = (s.mem.read (byteAddr pa 0)).toInt) ∧
      (∃ t v, exec (.lbu rs rt imm) s = .next t ∧ RegOnly s t rt v ∧ v.toNat = (s.mem.read (byteAddr pa 0)).toNat)) ∧
    (memAddress s ea .load 2 true = .ok pa →
      (∃ t v, exec (.lh rs rt imm) s = .next t ∧ RegOnly s t rt v ∧
        v.toInt = (s.mem.read (byteAddr pa 0)).toInt * 2 ^ 8 + (s.mem.read (byteAddr pa 1)).toNat) ∧
      (∃ t v, exec (.lhu rs rt imm) s = .next t ∧ RegOnly s t rt v ∧
        v.toNat = (s.mem.read (byteAddr pa 0)).toNat * 2 ^ 8 + (s.mem.read (byteAddr pa 1)).toNat)) ∧
    (memAddress s ea .load 4 true = .ok pa →
      ∃ t v, exec (.lw rs rt imm) s = .next t ∧ RegOnly s t rt v ∧
        v.toNat = (s.mem.read (byteAddr pa 0)).toNat * 2 ^ 24 + (s.mem.read (byteAddr pa 1)).toNat * 2 ^ 16 +
          (s.mem.read (byteAddr pa 2)).toNat * 2 ^ 8 + (s.mem.read (byteAddr pa 3)).toNat)

/-- SB, SH, SW: where memory answers the effective address, the low byte, the low halfword or the word of `x[rt]` lies
there, most significant byte first, and nothing else changes (spec/43_load_store.md R296 to R298; spec/20_memory.md R85,
R88; the byte order is decision D1, not in the source: log 1). -/
def Obligations.StoresWriteBigEndian : Prop :=
  ∀ (s : State) (rs rt : Reg) (imm : Half) (pa : Word),
    (memAddress s (effectiveAddress s rs imm) .store 1 true = .ok pa →
      ∃ t, exec (.sb rs rt imm) s = .next t ∧ StoreOnly s t pa 1 ∧
        (t.mem.read (byteAddr pa 0)).toNat = (readReg s rt).toNat % 2 ^ 8) ∧
    (memAddress s (effectiveAddress s rs imm) .store 2 true = .ok pa →
      ∃ t, exec (.sh rs rt imm) s = .next t ∧ StoreOnly s t pa 2 ∧
        (t.mem.read (byteAddr pa 0)).toNat * 2 ^ 8 + (t.mem.read (byteAddr pa 1)).toNat = (readReg s rt).toNat % 2 ^ 16) ∧
    (memAddress s (effectiveAddress s rs imm) .store 4 true = .ok pa →
      ∃ t, exec (.sw rs rt imm) s = .next t ∧ StoreOnly s t pa 4 ∧
        (t.mem.read (byteAddr pa 0)).toNat * 2 ^ 24 + (t.mem.read (byteAddr pa 1)).toNat * 2 ^ 16 +
          (t.mem.read (byteAddr pa 2)).toNat * 2 ^ 8 + (t.mem.read (byteAddr pa 3)).toNat = (readReg s rt).toNat)

/-- LWL and LWR: the byte tables. `M k` are the bytes of the aligned memory word, `r k` those of the old `x[rt]`
(spec/43_load_store.md R300, R301; big-endian by decision D1, log 1). -/
def Obligations.PartialLoadTables : Prop :=
  ∀ (s : State) (rs rt : Reg) (imm : Half) (pa : Word) (M r : Nat → Byte),
    memAddress s (effectiveAddress s rs imm) .load 4 false = .ok pa →
    (∀ k, M k = s.mem.read (byteAddr (alignedWord pa) k)) → (∀ k, r k = (readReg s rt).extractLsb' (8 * k) 8) →
    (∃ t, exec (.lwl rs rt imm) s = .next t ∧ RegOnly s t rt
      (match (effectiveAddress s rs imm).toNat % 4 with
        | 0 => wordOfBytes (M 0) (M 1) (M 2) (M 3)
        | 1 => wordOfBytes (M 1) (M 2) (M 3) (r 0)
        | 2 => wordOfBytes (M 2) (M 3) (r 1) (r 0)
        | _ => wordOfBytes (M 3) (r 2) (r 1) (r 0))) ∧
    (∃ t, exec (.lwr rs rt imm) s = .next t ∧ RegOnly s t rt
      (match (effectiveAddress s rs imm).toNat % 4 with
        | 0 => wordOfBytes (r 3) (r 2) (r 1) (M 0)
        | 1 => wordOfBytes (r 3) (r 2) (M 0) (M 1)
        | 2 => wordOfBytes (r 3) (M 0) (M 1) (M 2)
        | _ => wordOfBytes (M 0) (M 1) (M 2) (M 3)))

/-- SWL and SWR: the aligned word after them, and that every byte they do not name is as before (spec/43_load_store.md
R302, R303; big-endian by decision D1, log 1). -/
def Obligations.PartialStoreTables : Prop :=
  ∀ (s : State) (rs rt : Reg) (imm : Half) (pa : Word) (M r : Nat → Byte),
    memAddress s (effectiveAddress s rs imm) .store 4 false = .ok pa →
    (∀ k, M k = s.mem.read (byteAddr (alignedWord pa) k)) → (∀ k, r k = (readReg s rt).extractLsb' (8 * k) 8) →
    (∃ t, exec (.swl rs rt imm) s = .next t ∧ StoreOnly s t (alignedWord pa) 4 ∧
      t.mem.read32 (alignedWord pa) =
        (match (effectiveAddress s rs imm).toNat % 4 with
          | 0 => wordOfBytes (r 3) (r 2) (r 1) (r 0)
          | 1 => wordOfBytes (M 0) (r 3) (r 2) (r 1)
          | 2 => wordOfBytes (M 0) (M 1) (r 3) (r 2)
          | _ => wordOfBytes (M 0) (M 1) (M 2) (r 3))) ∧
    (∃ t, exec (.swr rs rt imm) s = .next t ∧ StoreOnly s t (alignedWord pa) 4 ∧
      t.mem.read32 (alignedWord pa) =
        (match (effectiveAddress s rs imm).toNat % 4 with
          | 0 => wordOfBytes (r 0) (M 1) (M 2) (M 3)
          | 1 => wordOfBytes (r 1) (r 0) (M 2) (M 3)
          | 2 => wordOfBytes (r 2) (r 1) (r 0) (M 3)
          | _ => wordOfBytes (r 3) (r 2) (r 1) (r 0)))

/-- The unaligned load idiom: `lwl rt, 0(a); lwr rt, 3(a)` loads the four bytes at `a`, whatever `a`'s alignment, where the
two accesses reach adjoining memory (spec/43_load_store.md R304; big-endian by decision D1, log 1). The base register is not `rt`, which `lwl` writes. -/
def Obligations.UnalignedLoadIdiom : Prop :=
  ∀ (s : State) (rs rt : Reg) (imm imm3 : Half) (pa : Word), rt ≠ rs → rt ≠ 0#5 →
    effectiveAddress s rs imm3 = effectiveAddress s rs imm + 3#32 →
    memAddress s (effectiveAddress s rs imm) .load 4 false = .ok pa →
    memAddress s (effectiveAddress s rs imm + 3#32) .load 4 false = .ok (pa + 3#32) →
    ∃ t u, exec (.lwl rs rt imm) s = .next t ∧ exec (.lwr rs rt imm3) t = .next u ∧
      readReg u rt = wordOfBytes (s.mem.read (byteAddr pa 0)) (s.mem.read (byteAddr pa 1)) (s.mem.read (byteAddr pa 2))
        (s.mem.read (byteAddr pa 3)) ∧
      (∀ r, r ≠ rt → readReg u r = readReg s r) ∧ SameMem s u

/-- The unaligned store idiom: `swl rt, 0(a); swr rt, 3(a)` stores the four bytes of `x[rt]` at `a` and no other byte
(spec/43_load_store.md R304; big-endian by decision D1, log 1). -/
def Obligations.UnalignedStoreIdiom : Prop :=
  ∀ (s : State) (rs rt : Reg) (imm imm3 : Half) (pa : Word),
    effectiveAddress s rs imm3 = effectiveAddress s rs imm + 3#32 →
    memAddress s (effectiveAddress s rs imm) .store 4 false = .ok pa →
    memAddress s (effectiveAddress s rs imm + 3#32) .store 4 false = .ok (pa + 3#32) →
    ∃ t u, exec (.swl rs rt imm) s = .next t ∧ exec (.swr rs rt imm3) t = .next u ∧
      u.mem.read32 pa = readReg s rt ∧ SameMemOutside s u pa 4 ∧ SameRegs s u

/-- What a load or store does when its access fails, and at a device. The exception is taken and nothing else happens
(spec/43_load_store.md R290; spec/60_exceptions.md R446); two matching TLB entries shut the processor down (R462). Where a
device answers, a load completes with the device's value, extended or merged as the instruction says, and nothing else
changes, and a store completes with memory as it was (spec/20_memory.md R89, R100, R101); that the value is a free one, and
that a store to a device leaves no trace in the model, is log 23. `LL` and `SC` where they exist do the same. `SC` asks for the
translation alone first, and reaches a device, or takes DBE where nothing answers, only if it stores, which it can only under
the reservation (spec/43_load_store.md R313; log 12). -/
def Obligations.FailedAccesses : Prop :=
  ∀ (s : State) (rs rt : Reg) (imm : Half) (ea : Word), ea = effectiveAddress s rs imm →
    (∀ p ∈ [(Instr.lb rs rt imm, memAddress s ea .load 1 true), (.lbu rs rt imm, memAddress s ea .load 1 true),
        (.lh rs rt imm, memAddress s ea .load 2 true), (.lhu rs rt imm, memAddress s ea .load 2 true),
        (.lw rs rt imm, memAddress s ea .load 4 true), (.lwl rs rt imm, memAddress s ea .load 4 false),
        (.lwr rs rt imm, memAddress s ea .load 4 false), (.sb rs rt imm, memAddress s ea .store 1 true),
        (.sh rs rt imm, memAddress s ea .store 2 true), (.sw rs rt imm, memAddress s ea .store 4 true),
        (.swl rs rt imm, memAddress s ea .store 4 false), (.swr rs rt imm, memAddress s ea .store 4 false)],
      (∀ e, p.2 = .raise e → exec p.1 s = .next (trapEntry e s)) ∧
      (p.2 = .machineCheck → exec p.1 s = .next (shutDown s))) ∧
    (∀ pa, memAddress s ea .load 1 true = .device pa →
      (∃ (t : State) (b : Byte), exec (.lb rs rt imm) s = .next t ∧ RegOnly s t rt (b.signExtend 32)) ∧
      ∃ (t : State) (b : Byte), exec (.lbu rs rt imm) s = .next t ∧ RegOnly s t rt (b.zeroExtend 32)) ∧
    (∀ pa, memAddress s ea .load 2 true = .device pa →
      (∃ (t : State) (h : Half), exec (.lh rs rt imm) s = .next t ∧ RegOnly s t rt (h.signExtend 32)) ∧
      ∃ (t : State) (h : Half), exec (.lhu rs rt imm) s = .next t ∧ RegOnly s t rt (h.zeroExtend 32)) ∧
    (∀ pa, memAddress s ea .load 4 true = .device pa → ∃ t w, exec (.lw rs rt imm) s = .next t ∧ RegOnly s t rt w) ∧
    (∀ (pa : Word) (r : Nat → Byte), memAddress s ea .load 4 false = .device pa →
      (∀ k, r k = (readReg s rt).extractLsb' (8 * k) 8) →
      (∃ (t : State) (M : Nat → Byte), exec (.lwl rs rt imm) s = .next t ∧ RegOnly s t rt
        (match ea.toNat % 4 with
          | 0 => wordOfBytes (M 0) (M 1) (M 2) (M 3)
          | 1 => wordOfBytes (M 1) (M 2) (M 3) (r 0)
          | 2 => wordOfBytes (M 2) (M 3) (r 1) (r 0)
          | _ => wordOfBytes (M 3) (r 2) (r 1) (r 0))) ∧
      ∃ (t : State) (M : Nat → Byte), exec (.lwr rs rt imm) s = .next t ∧ RegOnly s t rt
        (match ea.toNat % 4 with
          | 0 => wordOfBytes (r 3) (r 2) (r 1) (M 0)
          | 1 => wordOfBytes (r 3) (r 2) (M 0) (M 1)
          | 2 => wordOfBytes (r 3) (M 0) (M 1) (M 2)
          | _ => wordOfBytes (M 0) (M 1) (M 2) (M 3))) ∧
    (∀ p ∈ [(Instr.sb rs rt imm, memAddress s ea .store 1 true), (.sh rs rt imm, memAddress s ea .store 2 true),
        (.sw rs rt imm, memAddress s ea .store 4 true), (.swl rs rt imm, memAddress s ea .store 4 false),
        (.swr rs rt imm, memAddress s ea .store 4 false)],
      ∀ pa, p.2 = .device pa → ∃ t, exec p.1 s = .next t ∧ NothingElse s t) ∧
    (s.cfg.hasLLSC = true →
      (∀ e, memAddress s ea .load 4 true = .raise e → exec (.ll rs rt imm) s = .next (trapEntry e s)) ∧
      (memAddress s ea .load 4 true = .machineCheck → exec (.ll rs rt imm) s = .next (shutDown s)) ∧
      (∀ pa, memAddress s ea .load 4 true = .device pa → ∃ t w, exec (.ll rs rt imm) s = .next t ∧ WritesReg s t rt w ∧
        t.llbit = true ∧ t.lladdr = pa ∧ GoesOn s t ∧ SameHiLo s t ∧ SameCp0 s t ∧ SameMem s t ∧ SameOutside s t) ∧
      (∀ e, Machine.translate s ea .store 4 true = .raise e → exec (.sc rs rt imm) s = .next (trapEntry e s)) ∧
      (Machine.translate s ea .store 4 true = .machineCheck → exec (.sc rs rt imm) s = .next (shutDown s)) ∧
      ∀ pa, Machine.translate s ea .store 4 true = .ok pa →
        (physAt s.cfg pa = some .device → ∃ t, exec (.sc rs rt imm) s = .next t ∧ t.llbit = false ∧
          t.lladdr = s.lladdr ∧
          (WritesReg s t rt 0#32 ∨ (s.llbit = true ∧ s.lladdr = pa ∧ WritesReg s t rt 1#32)) ∧ SameMem s t ∧
          GoesOn s t ∧ SameHiLo s t ∧ SameCp0 s t ∧ SameOutside s t) ∧
        (physAt s.cfg pa = none →
          (s.llbit = true ∧ s.lladdr = pa ∧ exec (.sc rs rt imm) s = .next (trapEntry .dbe s)) ∨
          ∃ t, exec (.sc rs rt imm) s = .next t ∧ t.llbit = false ∧ t.lladdr = s.lladdr ∧ WritesReg s t rt 0#32 ∧
            SameMem s t ∧ GoesOn s t ∧ SameHiLo s t ∧ SameCp0 s t ∧ SameOutside s t))

/-! ## Load linked and store conditional -/

/-- LL and SC where they exist. LL loads the word and reserves its physical address (spec/43_load_store.md R312). SC stores
and answers 1, or stores nothing and answers 0; it can store only under a reservation of that very address; either way the
reservation is given up (R313). Under a reservation either may happen: the choice is a draw (decision D18, log 11). -/
def Obligations.LoadLinkedStoreConditional : Prop :=
  ∀ (s : State) (rs rt : Reg) (imm : Half) (pa : Word), s.cfg.hasLLSC = true →
    (memAddress s (effectiveAddress s rs imm) .load 4 true = .ok pa →
      ∃ t, exec (.ll rs rt imm) s = .next t ∧ WritesReg s t rt (s.mem.read32 pa) ∧ t.llbit = true ∧ t.lladdr = pa ∧
        GoesOn s t ∧ SameHiLo s t ∧ SameCp0 s t ∧ SameMem s t ∧ SameOutside s t) ∧
    (memAddress s (effectiveAddress s rs imm) .store 4 true = .ok pa →
      ∃ t, exec (.sc rs rt imm) s = .next t ∧ t.llbit = false ∧ t.lladdr = s.lladdr ∧
        ((s.llbit = true ∧ s.lladdr = pa ∧ WritesReg s t rt 1#32 ∧ t.mem.read32 pa = readReg s rt ∧
            SameMemOutside s t pa 4) ∨
          (WritesReg s t rt 0#32 ∧ SameMem s t)) ∧
        GoesOn s t ∧ SameHiLo s t ∧ SameCp0 s t ∧ SameOutside s t)

/-- A write by another processor or a device, where memory or a device answers, to any byte of the reserved aligned word
breaks the reservation, one elsewhere does not; where memory answers the byte is written; nothing else changes
(spec/43_load_store.md R314, spec/20_memory.md R101; decision D18). Where nothing answers, nothing happens. That the outside
writes byte by byte, and that what it writes to a device leaves no other trace, is log 17. -/
def Obligations.OutsideWriteBreaksReservation : Prop :=
  ∀ (s : State) (pa : Word) (b : Byte),
    (applyExternal s (.busWrite pa b)).llbit =
      (s.llbit && !decide (pa.toNat / 4 = s.lladdr.toNat / 4 ∧ physAt s.cfg pa ≠ none)) ∧
    (∀ a, (applyExternal s (.busWrite pa b)).mem.read a =
      if a = pa.toNat ∧ physAt s.cfg pa = some .memory then b else s.mem.read a) ∧
    SameRegs s (applyExternal s (.busWrite pa b)) ∧ SameHiLo s (applyExternal s (.busWrite pa b)) ∧
    SameCp0 s (applyExternal s (.busWrite pa b)) ∧ SameOutside s (applyExternal s (.busWrite pa b)) ∧
    (applyExternal s (.busWrite pa b)).lladdr = s.lladdr ∧ (applyExternal s (.busWrite pa b)).pc = s.pc ∧
    (applyExternal s (.busWrite pa b)).npc = s.npc ∧ (applyExternal s (.busWrite pa b)).inDelay = s.inDelay

/-! ## Instructions that trap, and the version -/

/-- SYSCALL and BREAK take their exceptions whatever their code (spec/44_system_sync.md R330 to R332), and each of the
twenty-seven instructions of coprocessors 1, 2 and 3 takes CPU(z) while its enable bit, STATUS bit 28 + z, is clear, in either
mode, which is the whole effect the spec gives it, and is refused while it is set (spec/45_coprocessor.md R351, R352, R353 to
R361). -/
def Obligations.TrappingInstructions : Prop :=
  ∀ (s : State) (rs rt rd : Reg) (sel : BitVec 3) (imm : Half) (cofun : BitVec 25) (code : BitVec 20),
    (∀ z : BitVec 2, s.status.copEnabled z = s.status.toWord.getLsbD (28 + z.toNat)) ∧
    exec (.syscall code) s = .next (trapEntry .sys s) ∧ exec (.brk code) s = .next (trapEntry .bp s) ∧
    (∀ i ∈ [Instr.mfc1 rt rd sel, .mtc1 rt rd sel, .cfc1 rt rd, .ctc1 rt rd, .bc1f imm, .bc1t imm, .cop1 cofun,
        .lwc1 rs rt imm, .swc1 rs rt imm],
      exec i s = if s.status.copEnabled 1#2 then .refused (.coprocessorAbsent 1#2) else .next (trapEntry (.cpu 1#2) s)) ∧
    (∀ i ∈ [Instr.mfc2 rt rd sel, .mtc2 rt rd sel, .cfc2 rt rd, .ctc2 rt rd, .bc2f imm, .bc2t imm, .cop2 cofun,
        .lwc2 rs rt imm, .swc2 rs rt imm],
      exec i s = if s.status.copEnabled 2#2 then .refused (.coprocessorAbsent 2#2) else .next (trapEntry (.cpu 2#2) s)) ∧
    (∀ i ∈ [Instr.mfc3 rt rd sel, .mtc3 rt rd sel, .cfc3 rt rd, .ctc3 rt rd, .bc3f imm, .bc3t imm, .cop3 cofun,
        .lwc3 rs rt imm, .swc3 rs rt imm],
      exec i s = if s.status.copEnabled 3#2 then .refused (.coprocessorAbsent 3#2) else .next (trapEntry (.cpu 3#2) s))

/-- SYNC on V2 only goes on (spec/44_system_sync.md R334). On V1, SYNC and CACHE are reserved, and so are LL and SC unless
the parameter says otherwise: they take RI (spec/30_encoding.md R161; decisions D28, D29). CACHE on V2 is refused
(spec/44_system_sync.md R336). -/
def Obligations.VersionDependentInstructions : Prop :=
  ∀ (s : State) (rs rt op : Reg) (imm : Half),
    (s.cfg.version = .v2 → (∃ t, exec .sync s = .next t ∧ NothingElse s t) ∧
      exec (.cache rs op imm) s = .refused .cacheUndocumented) ∧
    (s.cfg.version = .v1 → exec .sync s = .next (trapEntry .ri s) ∧ exec (.cache rs op imm) s = .next (trapEntry .ri s)) ∧
    (s.cfg.version = .v1 → s.cfg.llscOnV1 = false →
      exec (.ll rs rt imm) s = .next (trapEntry .ri s) ∧ exec (.sc rs rt imm) s = .next (trapEntry .ri s))

/-! ## Coprocessor 0 -/

/-- Coprocessor 0 is usable in kernel mode; in user mode it is not with STATUS.c0 = 0, and with c0 = 1 the parameter `USER_CP0`
says whether it is (spec/46_kernel_cp0.md R380; decision D7, log 15). Where it is not, the eight kernel instructions take
CPU(0). The enable bit of coprocessor `z` is STATUS bit 28 + `z` (spec/45_coprocessor.md R351, spec/10_state.md R40). -/
def Obligations.KernelInstructionsInUserMode : Prop :=
  ∀ (s : State) (rt rd : Reg) (sel : BitVec 3),
    (∀ z : BitVec 2, s.status.copEnabled z = s.status.toWord.getLsbD (28 + z.toNat)) ∧
    (s.status.kuc = false → cp0Usable s = true) ∧
    (s.status.kuc = true → s.status.copEnabled 0#2 = true → s.cfg.userCp0 = .allowed → cp0Usable s = true) ∧
    (s.status.kuc = true → s.status.copEnabled 0#2 = false ∨ s.cfg.userCp0 = .cpuException →
      cp0Usable s = false ∧
      ∀ i ∈ [Instr.mfc0 rt rd sel, .mtc0 rt rd sel, .tlbr, .tlbwi, .tlbwr, .tlbp, .rfe, .wait],
        exec i s = .next (trapEntry (.cpu 0#2) s))

/-- MFC0 where coprocessor 0 is usable: `rt` holds the register, field by field in its bits; RANDOM reads some slot in
8..63, CAUSE shows the live lines (spec/46_kernel_cp0.md R381, R383). On V1 the select is ignored. -/
def Obligations.Mfc0Reads : Prop :=
  ∀ (s : State) (rt rd : Reg) (sel sl : BitVec 3), cp0Usable s = true →
    sl = (if s.cfg.version = .v2 then sel else 0#3) →
    (∀ p ∈ [(0#5, 0#3, s.index.toWord), (2#5, 0#3, s.tlblo.toWord), (4#5, 0#3, s.context.toWord), (8#5, 0#3, s.badvaddr),
        (10#5, 0#3, s.tlbhi.toWord), (12#5, 0#3, s.status.toWord), (13#5, 0#3, s.cause.toWord s.irq), (14#5, 0#3, s.epc),
        (15#5, 0#3, if s.cfg.version = .v2 then 0x000000a1#32 else 0x000003ff#32), (15#5, 1#3, 0#32), (15#5, 2#3, 0#32)],
      rd = p.1 → sl = p.2.1 → ∃ t, exec (.mfc0 rt rd sel) s = .next t ∧ RegOnly s t rt p.2.2) ∧
    (rd = 1#5 → sl = 0#3 → ∃ t v, exec (.mfc0 rt rd sel) s = .next t ∧ RegOnly s t rt v ∧ 8 ≤ v.toNat / 256 ∧
      v.toNat / 256 ≤ 63 ∧ v.toNat % 256 = 0)

/-- Where each field lies in the word MFC0 reads (spec/10_state.md R33, R34, R36, R37, R39, R40, R44;
spec/46_kernel_cp0.md R381): each word as a sum of its fields, so that every other bit is 0. -/
def Obligations.RegisterLayouts : Prop :=
  ∀ s : State,
    s.index.toWord.toNat = s.index.p.toNat * 2 ^ 31 + s.index.slot.toNat * 2 ^ 8 ∧
    s.tlblo.toWord.toNat = s.tlblo.ppage.toNat * 2 ^ 12 + s.tlblo.n.toNat * 2 ^ 11 + s.tlblo.d.toNat * 2 ^ 10 +
      s.tlblo.v.toNat * 2 ^ 9 + s.tlblo.g.toNat * 2 ^ 8 ∧
    s.context.toWord.toNat = s.context.ptbase.toNat * 2 ^ 21 + s.context.vshift.toNat * 2 ^ 2 ∧
    s.tlbhi.toWord.toNat = s.tlbhi.vpage.toNat * 2 ^ 12 + s.tlbhi.asid.toNat * 2 ^ 6 ∧
    s.status.toWord.toNat = s.status.cu.toNat * 2 ^ 28 + s.status.b.toNat * 2 ^ 22 + s.status.t.toNat * 2 ^ 21 +
      s.status.s.toNat * 2 ^ 20 + s.status.n.toNat * 2 ^ 19 + s.status.h.toNat * 2 ^ 10 + s.status.f.toNat * 2 ^ 8 +
      s.status.kuo.toNat * 2 ^ 5 + s.status.ieo.toNat * 2 ^ 4 + s.status.kup.toNat * 2 ^ 3 + s.status.iep.toNat * 2 ^ 2 +
      s.status.kuc.toNat * 2 + s.status.iec.toNat ∧
    (s.cause.toWord s.irq).toNat = s.cause.bd.toNat * 2 ^ 31 + s.cause.ce.toNat * 2 ^ 28 + s.irq.toNat * 2 ^ 10 +
      s.cause.f.toNat * 2 ^ 8 + s.cause.exc.toNat * 2 ^ 2

/-- MTC0 where coprocessor 0 is usable and the write is one the spec gives an effect: the one register's writable fields
change, every other register, and all else, stays (spec/46_kernel_cp0.md R382; that bits aimed elsewhere are discarded is
decision D13). -/
def Obligations.Mtc0Writes : Prop :=
  ∀ (s : State) (rt rd : Reg) (sel : BitVec 3) (r : Cp0Reg) (v : Word), cp0Usable s = true →
    cp0Reg s.cfg rd sel = some r → v = readReg s rt → r ≠ .random →
    (r = .status → v.getLsbD 17 = false ∧ v.getLsbD 16 = false ∧ (v.getLsbD 21 = true → s.status.t = true) ∧
      (v.getLsbD 20 = true → s.status.s = true) ∧ (v.getLsbD 19 = true → s.status.n = true)) →
    ∃ t, exec (.mtc0 rt rd sel) s = .next t ∧ KernelKeeps s t ∧
      t.index = (if r = .index then { s.index with slot := v.extractLsb' 8 6 } else s.index) ∧
      t.tlblo = (if r = .tlblo then
        ⟨v.extractLsb' 12 20, v.getLsbD 11, v.getLsbD 10, v.getLsbD 9, v.getLsbD 8⟩ else s.tlblo) ∧
      t.context = (if r = .context then { s.context with ptbase := v.extractLsb' 21 11 } else s.context) ∧
      t.tlbhi = (if r = .tlbhi then ⟨v.extractLsb' 12 20, v.extractLsb' 6 6⟩ else s.tlbhi) ∧
      t.status = (if r = .status then
        ⟨v.extractLsb' 28 4, v.getLsbD 22, v.getLsbD 21, v.getLsbD 20, v.getLsbD 19, v.extractLsb' 10 6, v.extractLsb' 8 2,
          v.getLsbD 5, v.getLsbD 4, v.getLsbD 3, v.getLsbD 2, v.getLsbD 1, v.getLsbD 0⟩ else s.status) ∧
      t.cause = (if r = .cause then { s.cause with f := v.extractLsb' 8 2 } else s.cause) ∧
      t.badvaddr = s.badvaddr ∧ t.epc = s.epc ∧ t.tlb = s.tlb

/-- MTC0 and then MFC0 of the same register: each bit reads what was written where the register's mask has a 1 and what it
read before where the mask has a 0 (spec/10_state.md R33; spec/46_kernel_cp0.md R381, R382, R384; decision D13). -/
def Obligations.ReadbackMasks : Prop :=
  ∀ (s t : State) (rt rd : Reg) (sel : BitVec 3) (r : Cp0Reg), cp0Reg s.cfg rd sel = some r → cp0Usable s = true →
    exec (.mtc0 rt rd sel) s = .next t → t.shutdown = false →
    cp0Read t r =
      (readReg s rt &&& (match r with
        | .index => 0x00003f00#32
        | .tlblo => 0xffffff00#32
        | .context => 0xffe00000#32
        | .tlbhi => 0xffffffc0#32
        | .status => 0xf078ff3f#32
        | .cause => 0x00000300#32
        | .random | .badvaddr | .epc | .prid | .cfeat | .ifeat => 0x00000000#32)) |||
      (cp0Read s r &&& ~~~(match r with
        | .index => 0x00003f00#32
        | .tlblo => 0xffffff00#32
        | .context => 0xffe00000#32
        | .tlbhi => 0xffffffc0#32
        | .status => 0xf078ff3f#32
        | .cause => 0x00000300#32
        | .random | .badvaddr | .epc | .prid | .cfeat | .ifeat => 0x00000000#32))

/-- Where MFC0 and MTC0 stop: W or I written 1 in STATUS is a machine check, nothing being written; setting T, S or N from
0, writing RANDOM, and naming a register and select the spec does not list are refused (spec/10_state.md R35, R41, R42,
R49; spec/46_kernel_cp0.md R382, R383). -/
def Obligations.Mtc0Stops : Prop :=
  ∀ (s : State) (rt rd : Reg) (sel : BitVec 3), cp0Usable s = true →
    (((readReg s rt).getLsbD 17 = true ∨ (readReg s rt).getLsbD 16 = true) →
      exec (.mtc0 rt 12#5 0#3) s = .next { s with shutdown := true }) ∧
    ((readReg s rt).getLsbD 17 = false → (readReg s rt).getLsbD 16 = false →
      (((readReg s rt).getLsbD 21 = true ∧ s.status.t = false) ∨ ((readReg s rt).getLsbD 20 = true ∧ s.status.s = false) ∨
        ((readReg s rt).getLsbD 19 = true ∧ s.status.n = false)) →
      exec (.mtc0 rt 12#5 0#3) s = .refused .statusFlagSet) ∧
    exec (.mtc0 rt 1#5 0#3) s = .refused .randomWrite ∧
    (rd ∉ [0#5, 1#5, 2#5, 4#5, 8#5, 10#5, 12#5, 13#5, 14#5, 15#5] ∨
        (s.cfg.version = .v2 ∧ sel ≠ 0#3 ∧ ¬ (rd = 15#5 ∧ (sel = 1#3 ∨ sel = 2#3))) →
      exec (.mfc0 rt rd sel) s = .refused (.cp0RegisterUndefined rd sel) ∧
      exec (.mtc0 rt rd sel) s = .refused (.cp0RegisterUndefined rd sel))

/-! ## The TLB instructions, RFE and WAIT -/

/-- TLBR: the entry INDEX.SLOT names is read into TLBHI, its ASID too, and TLBLO; INDEX and the TLB stay; where coprocessor 0
is not usable it takes CPU(0) (spec/46_kernel_cp0.md R385, R380; in user mode with c0 = 1 the parameter `USER_CP0` says whether
it is usable: decision D7, log 15). -/
def Obligations.TlbrReadsEntry : Prop :=
  encode .tlbr = 0x42000001#32 ∧
  ∀ s : State,
    (cp0Usable s = true → ∃ t, exec .tlbr s = .next t ∧
      t.tlbhi.vpage = (tlbAt s.tlb s.index.slot).hi.vpage ∧ t.tlbhi.asid = (tlbAt s.tlb s.index.slot).hi.asid ∧
      t.tlblo.ppage = (tlbAt s.tlb s.index.slot).lo.ppage ∧ t.tlblo.n = (tlbAt s.tlb s.index.slot).lo.n ∧
      t.tlblo.d = (tlbAt s.tlb s.index.slot).lo.d ∧ t.tlblo.v = (tlbAt s.tlb s.index.slot).lo.v ∧
      t.tlblo.g = (tlbAt s.tlb s.index.slot).lo.g ∧ t.index = s.index ∧ t.tlb = s.tlb ∧ t.context = s.context ∧
      t.badvaddr = s.badvaddr ∧ SameStatus s t ∧ KernelKeeps s t) ∧
    (cp0Usable s = false → exec .tlbr s = .next (trapEntry (.cpu 0#2) s))

/-- TLBWI: the slot INDEX.SLOT names receives TLBHI and TLBLO, the other slots and every register stay; if another slot
holds an entry that can match the same address it is a machine check and nothing is written (spec/46_kernel_cp0.md R386,
R387; that the check is made at the write is decision D10). Two entries can match the same address when their VPAGEs are
equal and their ASIDs are or either G bit is set, whatever their V bits (spec/20_memory.md R92). -/
def Obligations.TlbwiWritesEntry : Prop :=
  (∀ e f : TlbEntry,
    e.clashes f = true ↔ e.hi.vpage = f.hi.vpage ∧ (e.hi.asid = f.hi.asid ∨ e.lo.g = true ∨ f.lo.g = true)) ∧
  ∀ s : State, cp0Usable s = true →
    ((∀ j, j ≠ s.index.slot → (tlbAt s.tlb j).clashes ⟨s.tlbhi, s.tlblo⟩ = false) →
      ∃ t, exec .tlbwi s = .next t ∧
        (∀ j, tlbAt t.tlb j = if j = s.index.slot then ⟨s.tlbhi, s.tlblo⟩ else tlbAt s.tlb j) ∧ t.index = s.index ∧
        t.tlblo = s.tlblo ∧ t.context = s.context ∧ t.badvaddr = s.badvaddr ∧ t.tlbhi = s.tlbhi ∧ SameStatus s t ∧
        KernelKeeps s t) ∧
    ((∃ j, j ≠ s.index.slot ∧ (tlbAt s.tlb j).clashes ⟨s.tlbhi, s.tlblo⟩ = true) →
      exec .tlbwi s = .next { s with shutdown := true })

/-- TLBWR: always a next state. Some slot from 8 to 63 is drawn; where no other slot can match what TLBHI and TLBLO hold, it
receives them and all else stays; where another can, it is a machine check and nothing is written, always so for a match
in slots 0 to 7, which are never touched (spec/46_kernel_cp0.md R387, R389; that the check is made at the write is decision
D10; `draws`, which counts the draw, is the model's own field, log 32). Which entries can match the same address is R92's of
spec/20_memory.md. -/
def Obligations.TlbwrSparesLowSlots : Prop :=
  (∀ e f : TlbEntry,
    e.clashes f = true ↔ e.hi.vpage = f.hi.vpage ∧ (e.hi.asid = f.hi.asid ∨ e.lo.g = true ∨ f.lo.g = true)) ∧
  ∀ s : State, cp0Usable s = true →
    (∃ t i, exec .tlbwr s = .next t ∧ 8 ≤ i.toNat ∧
      (((∀ j, j ≠ i → (tlbAt s.tlb j).clashes ⟨s.tlbhi, s.tlblo⟩ = false) ∧
        (∀ j, tlbAt t.tlb j = if j = i then ⟨s.tlbhi, s.tlblo⟩ else tlbAt s.tlb j) ∧ t.index = s.index ∧
        t.tlblo = s.tlblo ∧ t.context = s.context ∧ t.badvaddr = s.badvaddr ∧ t.tlbhi = s.tlbhi ∧ SameStatus s t ∧
        KernelKeeps s t) ∨
      ((∃ j, j ≠ i ∧ (tlbAt s.tlb j).clashes ⟨s.tlbhi, s.tlblo⟩ = true) ∧
        ∃ k, t = { s with shutdown := true, draws := k }))) ∧
    ((∀ j, (tlbAt s.tlb j).clashes ⟨s.tlbhi, s.tlblo⟩ = false) →
      ∃ t i, exec .tlbwr s = .next t ∧ 8 ≤ i.toNat ∧
        (∀ j, tlbAt t.tlb j = if j = i then ⟨s.tlbhi, s.tlblo⟩ else tlbAt s.tlb j) ∧ t.index = s.index ∧
        t.tlblo = s.tlblo ∧ t.context = s.context ∧ t.badvaddr = s.badvaddr ∧ t.tlbhi = s.tlbhi ∧ SameStatus s t ∧
        KernelKeeps s t) ∧
    ((∃ j, j.toNat < 8 ∧ (tlbAt s.tlb j).clashes ⟨s.tlbhi, s.tlblo⟩ = true) →
      ∃ k, exec .tlbwr s = .next { s with shutdown := true, draws := k }) ∧
    ∃ t, exec .tlbwr s = .next t ∧ ∀ j, j.toNat < 8 → tlbAt t.tlb j = tlbAt s.tlb j

/-- TLBP: no match sets INDEX.P, one match clears it and names the slot, two matches are a machine check; validity is not
looked at, and all else stays (spec/46_kernel_cp0.md R388; P cleared on success is decision D34). Which entries match is
R90's of spec/20_memory.md, for the VPAGE and ASID of TLBHI. -/
def Obligations.TlbpProbes : Prop :=
  (∀ (e : TlbEntry) (vpage : BitVec 20) (asid : BitVec 6),
    e.hits vpage asid = true ↔ e.hi.vpage = vpage ∧ (e.hi.asid = asid ∨ e.lo.g = true)) ∧
  ∀ s : State, cp0Usable s = true →
    ((∀ j, (tlbAt s.tlb j).hits s.tlbhi.vpage s.tlbhi.asid = false) →
      ∃ t, exec .tlbp s = .next t ∧ t.index.p = true ∧ t.tlb = s.tlb ∧ t.tlbhi = s.tlbhi ∧ t.tlblo = s.tlblo ∧
        t.context = s.context ∧ t.badvaddr = s.badvaddr ∧ SameStatus s t ∧ KernelKeeps s t) ∧
    (∀ i, (∀ j, (tlbAt s.tlb j).hits s.tlbhi.vpage s.tlbhi.asid = true ↔ j = i) →
      ∃ t, exec .tlbp s = .next t ∧ t.index.p = false ∧ t.index.slot = i ∧ t.tlb = s.tlb ∧ t.tlbhi = s.tlbhi ∧
        t.tlblo = s.tlblo ∧ t.context = s.context ∧ t.badvaddr = s.badvaddr ∧ SameStatus s t ∧ KernelKeeps s t) ∧
    ((∃ i j, i ≠ j ∧ (tlbAt s.tlb i).hits s.tlbhi.vpage s.tlbhi.asid = true ∧
        (tlbAt s.tlb j).hits s.tlbhi.vpage s.tlbhi.asid = true) →
      exec .tlbp s = .next { s with shutdown := true })

/-- RFE shifts the mode stack back and is no jump; WAIT goes on, and puts the processor to sleep unless a line is already
active; all else stays
(spec/46_kernel_cp0.md R392, R394). That RFE keeps the old pair is decision D21 (log 28); that WAIT leaves the processor
awake where a line is active while it executes is how the model reads "it completes at once" (log 36). -/
def Obligations.RfeAndWait : Prop :=
  ∀ s : State, cp0Usable s = true →
    (∃ t, exec .rfe s = .next t ∧
      t.status.toWord = (s.status.toWord &&& 0xfffffff0#32) ||| ((s.status.toWord &&& 0x0000003c#32) >>> 2) ∧
      SameMmu s t ∧ t.cause = s.cause ∧ t.epc = s.epc ∧ KernelKeeps s t) ∧
    (∃ t, exec .wait s = .next t ∧ t.idle = decide (s.irq = 0#6) ∧ GoesOn s t ∧ SameRegs s t ∧ SameHiLo s t ∧ SameCp0 s t ∧
      SameReservation s t ∧ SameMem s t ∧ t.shutdown = s.shutdown ∧ t.irq = s.irq ∧ t.inputs = s.inputs ∧ t.cfg = s.cfg)

/-! ## Reset and the outside -/

/-- What reset leaves, as far as the spec states it: the pc at the Reset vector, kernel mode, interrupts disabled,
STATUS.B set, x[0] reading 0, no reservation, neither idle nor shut down (spec/10_state.md R60; spec/60_exceptions.md
R460). The three invariants of every step hold there, the one on the TLB for every TLB without duplicates; that memory lists
nothing is the model's choice (log 4). -/
def Obligations.ResetState : Prop :=
  State.reset.pc = 0xbfc00000#32 ∧ State.reset.npc = 0xbfc00004#32 ∧ State.reset.inDelay = false ∧
  State.reset.status.b = true ∧ State.reset.status.kuc = false ∧ State.reset.status.iec = false ∧
  readReg State.reset 0#5 = 0#32 ∧ State.reset.llbit = false ∧ State.reset.idle = false ∧ State.reset.shutdown = false ∧
  MemoryCanonical State.reset ∧ FlowSound State.reset ∧
  ∀ tlb, TlbNoDup tlb → TlbSound { State.reset with tlb := tlb }

/-- Soft reset and NMI go to the Reset vector in kernel mode with interrupts disabled, STATUS.B set and STATUS.S or STATUS.N
set, and keep all else (the spec's own reading: spec/60_exceptions.md R460, decision D26, log 18); a hard reset ends a
shutdown (R462) and leaves what reset leaves, memory being no state of the processor (spec/10_state.md R60, spec/70_reset_and_hazards.md R490,
log 19). -/
def Obligations.ResetClassEvents : Prop :=
  ∀ (s : State) (tlb : Tlb),
    applyExternal s .softReset = { s with
      pc := 0xbfc00000#32, npc := 0xbfc00004#32, inDelay := false,
      status := { s.status with s := true, b := true, kuc := false, iec := false } } ∧
    applyExternal s .nmi = { s with
      pc := 0xbfc00000#32, npc := 0xbfc00004#32, inDelay := false,
      status := { s.status with n := true, b := true, kuc := false, iec := false } } ∧
    (applyExternal s (.hardReset tlb)).shutdown = false ∧ (applyExternal s (.hardReset tlb)).idle = false ∧
    (applyExternal s (.hardReset tlb)).pc = 0xbfc00000#32 ∧ (applyExternal s (.hardReset tlb)).npc = 0xbfc00004#32 ∧
    (applyExternal s (.hardReset tlb)).inDelay = false ∧ readReg (applyExternal s (.hardReset tlb)) 0#5 = 0#32 ∧
    (applyExternal s (.hardReset tlb)).tlb = tlb ∧ (applyExternal s (.hardReset tlb)).status.b = true ∧
    (applyExternal s (.hardReset tlb)).status.kuc = false ∧ (applyExternal s (.hardReset tlb)).status.iec = false ∧
    (applyExternal s (.hardReset tlb)).llbit = false ∧ (applyExternal s (.hardReset tlb)).mem = s.mem

/-! ## Invariants and isolation -/

/-- Every step keeps memory in its canonical form, whatever it executes and whatever the outside does. -/
def Obligations.StepKeepsMemoryCanonical : Prop :=
  ∀ s t : State, MemoryCanonical s → step s = .next t → MemoryCanonical t

/-- Every step keeps the TLB free of two entries that can match the same address (spec/20_memory.md R92;
spec/46_kernel_cp0.md R387), so that from such a TLB no translation is a machine check. Two entries can match the same
address when their VPAGEs are equal and their ASIDs are or either G bit is set (R92). -/
def Obligations.StepKeepsTlbSound : Prop :=
  (∀ e f : TlbEntry,
    e.clashes f = true ↔ e.hi.vpage = f.hi.vpage ∧ (e.hi.asid = f.hi.asid ∨ e.lo.g = true ∨ f.lo.g = true)) ∧
  (∀ s t : State, TlbSound s → step s = .next t → TlbSound t) ∧
  ∀ (s : State) (va : Word) (k : AccessKind) (n : Nat) (c : Bool), TlbSound s → Machine.translate s va k n c ≠ .machineCheck

/-- Every step keeps `npc = pc + 4` outside delay slots (spec/10_state.md R27, R28). -/
def Obligations.StepKeepsFlowSound : Prop :=
  ∀ s t : State, FlowSound s → step s = .next t → FlowSound t

/-- User mode is left only by an exception: a step from user mode, coprocessor 0 not being usable there, leaves every
coprocessor-0 register and the TLB as they are and stays in user mode, or it is a trap entry, or a duplicate TLB entry has
shut the processor down with nothing else changed (spec/60_exceptions.md R470, R471, R464). `draws`, which a fetch from a
device counts up, is the model's own field (log 32). -/
def Obligations.UserModeIsConfined : Prop :=
  ∀ s t : State, (beginStep s).status.kuc = true → cp0Usable (beginStep s) = false → step s = .next t →
    (SameCp0 (beginStep s) t ∧ t.status.kuc = true ∧ SameOutside (wake (beginStep s)) (wake t)) ∨
      (∃ e k, t = trapEntry e { wake (beginStep s) with draws := k }) ∨
      ∃ k, t = shutDown { wake (beginStep s) with draws := k }

/-- User mode writes only where the TLB lets it: a byte of memory that a step from user mode changes lies in the physical
page of a TLB entry that is valid and dirty, maps a page below 2^31, and matches the current address-space id
(spec/20_memory.md R82, R90, R91, R98; spec/60_exceptions.md R470). -/
def Obligations.UserStoresStayInMappedPages : Prop :=
  ∀ (s t : State) (a : Nat), (beginStep s).status.kuc = true → step s = .next t →
    t.mem.read a ≠ (beginStep s).mem.read a →
    ∃ i, (tlbAt (beginStep s).tlb i).lo.v = true ∧ (tlbAt (beginStep s).tlb i).lo.d = true ∧
      (tlbAt (beginStep s).tlb i).hi.vpage.toNat < 0x80000 ∧
      ((tlbAt (beginStep s).tlb i).hi.asid = (beginStep s).tlbhi.asid ∨ (tlbAt (beginStep s).tlb i).lo.g = true) ∧
      a / 4096 = (tlbAt (beginStep s).tlb i).lo.ppage.toNat
end

