-- ==== Sys2Proof/Laws/State.lean ====
section
/-! SUPPORT. What each shared update of the state leaves in each field: one lemma a field and update. -/

namespace Sys2Proof.Machine

/-! ### `setHiLo` -/

@[simp] theorem setHiLo_gpr (s : State) (hi lo : Word) : (setHiLo s hi lo).gpr = s.gpr := rfl

@[simp] theorem setHiLo_hi (s : State) (hi lo : Word) : (setHiLo s hi lo).hi = hi := rfl

@[simp] theorem setHiLo_lo (s : State) (hi lo : Word) : (setHiLo s hi lo).lo = lo := rfl

@[simp] theorem setHiLo_pc (s : State) (hi lo : Word) : (setHiLo s hi lo).pc = s.pc := rfl

@[simp] theorem setHiLo_npc (s : State) (hi lo : Word) : (setHiLo s hi lo).npc = s.npc := rfl

@[simp] theorem setHiLo_inDelay (s : State) (hi lo : Word) : (setHiLo s hi lo).inDelay = s.inDelay := rfl

@[simp] theorem setHiLo_index (s : State) (hi lo : Word) : (setHiLo s hi lo).index = s.index := rfl

@[simp] theorem setHiLo_tlblo (s : State) (hi lo : Word) : (setHiLo s hi lo).tlblo = s.tlblo := rfl

@[simp] theorem setHiLo_context (s : State) (hi lo : Word) : (setHiLo s hi lo).context = s.context := rfl

@[simp] theorem setHiLo_badvaddr (s : State) (hi lo : Word) : (setHiLo s hi lo).badvaddr = s.badvaddr := rfl

@[simp] theorem setHiLo_tlbhi (s : State) (hi lo : Word) : (setHiLo s hi lo).tlbhi = s.tlbhi := rfl

@[simp] theorem setHiLo_status (s : State) (hi lo : Word) : (setHiLo s hi lo).status = s.status := rfl

@[simp] theorem setHiLo_cause (s : State) (hi lo : Word) : (setHiLo s hi lo).cause = s.cause := rfl

@[simp] theorem setHiLo_epc (s : State) (hi lo : Word) : (setHiLo s hi lo).epc = s.epc := rfl

@[simp] theorem setHiLo_tlb (s : State) (hi lo : Word) : (setHiLo s hi lo).tlb = s.tlb := rfl

@[simp] theorem setHiLo_llbit (s : State) (hi lo : Word) : (setHiLo s hi lo).llbit = s.llbit := rfl

@[simp] theorem setHiLo_lladdr (s : State) (hi lo : Word) : (setHiLo s hi lo).lladdr = s.lladdr := rfl

@[simp] theorem setHiLo_idle (s : State) (hi lo : Word) : (setHiLo s hi lo).idle = s.idle := rfl

@[simp] theorem setHiLo_shutdown (s : State) (hi lo : Word) : (setHiLo s hi lo).shutdown = s.shutdown := rfl

@[simp] theorem setHiLo_irq (s : State) (hi lo : Word) : (setHiLo s hi lo).irq = s.irq := rfl

@[simp] theorem setHiLo_mem (s : State) (hi lo : Word) : (setHiLo s hi lo).mem = s.mem := rfl

@[simp] theorem setHiLo_inputs (s : State) (hi lo : Word) : (setHiLo s hi lo).inputs = s.inputs := rfl

@[simp] theorem setHiLo_draws (s : State) (hi lo : Word) : (setHiLo s hi lo).draws = s.draws := rfl

@[simp] theorem setHiLo_cfg (s : State) (hi lo : Word) : (setHiLo s hi lo).cfg = s.cfg := rfl

/-! ### `advance` -/

@[simp] theorem advance_gpr (s : State) : (advance s).gpr = s.gpr := rfl

@[simp] theorem advance_hi (s : State) : (advance s).hi = s.hi := rfl

@[simp] theorem advance_lo (s : State) : (advance s).lo = s.lo := rfl

@[simp] theorem advance_pc (s : State) : (advance s).pc = s.npc := rfl

@[simp] theorem advance_npc (s : State) : (advance s).npc = s.npc + 4#32 := rfl

@[simp] theorem advance_inDelay (s : State) : (advance s).inDelay = false := rfl

@[simp] theorem advance_index (s : State) : (advance s).index = s.index := rfl

@[simp] theorem advance_tlblo (s : State) : (advance s).tlblo = s.tlblo := rfl

@[simp] theorem advance_context (s : State) : (advance s).context = s.context := rfl

@[simp] theorem advance_badvaddr (s : State) : (advance s).badvaddr = s.badvaddr := rfl

@[simp] theorem advance_tlbhi (s : State) : (advance s).tlbhi = s.tlbhi := rfl

@[simp] theorem advance_status (s : State) : (advance s).status = s.status := rfl

@[simp] theorem advance_cause (s : State) : (advance s).cause = s.cause := rfl

@[simp] theorem advance_epc (s : State) : (advance s).epc = s.epc := rfl

@[simp] theorem advance_tlb (s : State) : (advance s).tlb = s.tlb := rfl

@[simp] theorem advance_llbit (s : State) : (advance s).llbit = s.llbit := rfl

@[simp] theorem advance_lladdr (s : State) : (advance s).lladdr = s.lladdr := rfl

@[simp] theorem advance_idle (s : State) : (advance s).idle = s.idle := rfl

@[simp] theorem advance_shutdown (s : State) : (advance s).shutdown = s.shutdown := rfl

@[simp] theorem advance_irq (s : State) : (advance s).irq = s.irq := rfl

@[simp] theorem advance_mem (s : State) : (advance s).mem = s.mem := rfl

@[simp] theorem advance_inputs (s : State) : (advance s).inputs = s.inputs := rfl

@[simp] theorem advance_draws (s : State) : (advance s).draws = s.draws := rfl

@[simp] theorem advance_cfg (s : State) : (advance s).cfg = s.cfg := rfl

/-! ### `branch` -/

@[simp] theorem branch_gpr (s : State) (taken : Bool) (target : Word) : (branch s taken target).gpr = s.gpr := rfl

@[simp] theorem branch_hi (s : State) (taken : Bool) (target : Word) : (branch s taken target).hi = s.hi := rfl

@[simp] theorem branch_lo (s : State) (taken : Bool) (target : Word) : (branch s taken target).lo = s.lo := rfl

@[simp] theorem branch_pc (s : State) (taken : Bool) (target : Word) : (branch s taken target).pc = s.npc := rfl

@[simp] theorem branch_npc (s : State) (taken : Bool) (target : Word) : (branch s taken target).npc = if taken then target else s.npc + 4#32 := rfl

@[simp] theorem branch_inDelay (s : State) (taken : Bool) (target : Word) : (branch s taken target).inDelay = true := rfl

@[simp] theorem branch_index (s : State) (taken : Bool) (target : Word) : (branch s taken target).index = s.index := rfl

@[simp] theorem branch_tlblo (s : State) (taken : Bool) (target : Word) : (branch s taken target).tlblo = s.tlblo := rfl

@[simp] theorem branch_context (s : State) (taken : Bool) (target : Word) : (branch s taken target).context = s.context := rfl

@[simp] theorem branch_badvaddr (s : State) (taken : Bool) (target : Word) : (branch s taken target).badvaddr = s.badvaddr := rfl

@[simp] theorem branch_tlbhi (s : State) (taken : Bool) (target : Word) : (branch s taken target).tlbhi = s.tlbhi := rfl

@[simp] theorem branch_status (s : State) (taken : Bool) (target : Word) : (branch s taken target).status = s.status := rfl

@[simp] theorem branch_cause (s : State) (taken : Bool) (target : Word) : (branch s taken target).cause = s.cause := rfl

@[simp] theorem branch_epc (s : State) (taken : Bool) (target : Word) : (branch s taken target).epc = s.epc := rfl

@[simp] theorem branch_tlb (s : State) (taken : Bool) (target : Word) : (branch s taken target).tlb = s.tlb := rfl

@[simp] theorem branch_llbit (s : State) (taken : Bool) (target : Word) : (branch s taken target).llbit = s.llbit := rfl

@[simp] theorem branch_lladdr (s : State) (taken : Bool) (target : Word) : (branch s taken target).lladdr = s.lladdr := rfl

@[simp] theorem branch_idle (s : State) (taken : Bool) (target : Word) : (branch s taken target).idle = s.idle := rfl

@[simp] theorem branch_shutdown (s : State) (taken : Bool) (target : Word) : (branch s taken target).shutdown = s.shutdown := rfl

@[simp] theorem branch_irq (s : State) (taken : Bool) (target : Word) : (branch s taken target).irq = s.irq := rfl

@[simp] theorem branch_mem (s : State) (taken : Bool) (target : Word) : (branch s taken target).mem = s.mem := rfl

@[simp] theorem branch_inputs (s : State) (taken : Bool) (target : Word) : (branch s taken target).inputs = s.inputs := rfl

@[simp] theorem branch_draws (s : State) (taken : Bool) (target : Word) : (branch s taken target).draws = s.draws := rfl

@[simp] theorem branch_cfg (s : State) (taken : Bool) (target : Word) : (branch s taken target).cfg = s.cfg := rfl

/-! ### `trapEntry` -/

@[simp] theorem trapEntry_gpr (e : Exception) (s : State) : (trapEntry e s).gpr = s.gpr := by cases e <;> rfl

@[simp] theorem trapEntry_hi (e : Exception) (s : State) : (trapEntry e s).hi = s.hi := by cases e <;> rfl

@[simp] theorem trapEntry_lo (e : Exception) (s : State) : (trapEntry e s).lo = s.lo := by cases e <;> rfl

@[simp] theorem trapEntry_pc (e : Exception) (s : State) : (trapEntry e s).pc = vector s.status.b e.isUtlb := by cases e <;> rfl

@[simp] theorem trapEntry_npc (e : Exception) (s : State) : (trapEntry e s).npc = vector s.status.b e.isUtlb + 4#32 := by cases e <;> rfl

@[simp] theorem trapEntry_inDelay (e : Exception) (s : State) : (trapEntry e s).inDelay = false := by cases e <;> rfl

@[simp] theorem trapEntry_index (e : Exception) (s : State) : (trapEntry e s).index = s.index := by cases e <;> rfl

@[simp] theorem trapEntry_tlblo (e : Exception) (s : State) : (trapEntry e s).tlblo = s.tlblo := by cases e <;> rfl

@[simp] theorem trapEntry_context (e : Exception) (s : State) : (trapEntry e s).context = { s.context with vshift := (e.badAddress.map fun va => va.extractLsb' 12 19).getD s.context.vshift } := by cases e <;> rfl

@[simp] theorem trapEntry_badvaddr (e : Exception) (s : State) : (trapEntry e s).badvaddr = e.badAddress.getD s.badvaddr := by cases e <;> rfl

@[simp] theorem trapEntry_tlbhi (e : Exception) (s : State) : (trapEntry e s).tlbhi = { s.tlbhi with vpage := (e.badAddress.map pageOf).getD s.tlbhi.vpage } := by cases e <;> rfl

@[simp] theorem trapEntry_status (e : Exception) (s : State) : (trapEntry e s).status = s.status.push := by cases e <;> rfl

@[simp] theorem trapEntry_cause (e : Exception) (s : State) : (trapEntry e s).cause = { s.cause with bd := s.inDelay, exc := e.code, ce := e.ce s.draws } := by cases e <;> rfl

@[simp] theorem trapEntry_epc (e : Exception) (s : State) : (trapEntry e s).epc = if s.inDelay then s.pc - 4#32 else s.pc := by cases e <;> rfl

@[simp] theorem trapEntry_tlb (e : Exception) (s : State) : (trapEntry e s).tlb = s.tlb := by cases e <;> rfl

@[simp] theorem trapEntry_llbit (e : Exception) (s : State) : (trapEntry e s).llbit = false := by cases e <;> rfl

@[simp] theorem trapEntry_lladdr (e : Exception) (s : State) : (trapEntry e s).lladdr = s.lladdr := by cases e <;> rfl

@[simp] theorem trapEntry_idle (e : Exception) (s : State) : (trapEntry e s).idle = s.idle := by cases e <;> rfl

@[simp] theorem trapEntry_shutdown (e : Exception) (s : State) : (trapEntry e s).shutdown = s.shutdown := by cases e <;> rfl

@[simp] theorem trapEntry_irq (e : Exception) (s : State) : (trapEntry e s).irq = s.irq := by cases e <;> rfl

@[simp] theorem trapEntry_mem (e : Exception) (s : State) : (trapEntry e s).mem = s.mem := by cases e <;> rfl

@[simp] theorem trapEntry_inputs (e : Exception) (s : State) : (trapEntry e s).inputs = s.inputs := by cases e <;> rfl

@[simp] theorem trapEntry_draws (e : Exception) (s : State) : (trapEntry e s).draws = s.draws + 1 := by cases e <;> rfl

@[simp] theorem trapEntry_cfg (e : Exception) (s : State) : (trapEntry e s).cfg = s.cfg := by cases e <;> rfl

/-! ### `returnFromException` -/

@[simp] theorem returnFromException_gpr (s : State) : (returnFromException s).gpr = s.gpr := rfl

@[simp] theorem returnFromException_hi (s : State) : (returnFromException s).hi = s.hi := rfl

@[simp] theorem returnFromException_lo (s : State) : (returnFromException s).lo = s.lo := rfl

@[simp] theorem returnFromException_pc (s : State) : (returnFromException s).pc = s.pc := rfl

@[simp] theorem returnFromException_npc (s : State) : (returnFromException s).npc = s.npc := rfl

@[simp] theorem returnFromException_inDelay (s : State) : (returnFromException s).inDelay = s.inDelay := rfl

@[simp] theorem returnFromException_index (s : State) : (returnFromException s).index = s.index := rfl

@[simp] theorem returnFromException_tlblo (s : State) : (returnFromException s).tlblo = s.tlblo := rfl

@[simp] theorem returnFromException_context (s : State) : (returnFromException s).context = s.context := rfl

@[simp] theorem returnFromException_badvaddr (s : State) : (returnFromException s).badvaddr = s.badvaddr := rfl

@[simp] theorem returnFromException_tlbhi (s : State) : (returnFromException s).tlbhi = s.tlbhi := rfl

@[simp] theorem returnFromException_status (s : State) : (returnFromException s).status = s.status.pop := rfl

@[simp] theorem returnFromException_cause (s : State) : (returnFromException s).cause = s.cause := rfl

@[simp] theorem returnFromException_epc (s : State) : (returnFromException s).epc = s.epc := rfl

@[simp] theorem returnFromException_tlb (s : State) : (returnFromException s).tlb = s.tlb := rfl

@[simp] theorem returnFromException_llbit (s : State) : (returnFromException s).llbit = s.llbit := rfl

@[simp] theorem returnFromException_lladdr (s : State) : (returnFromException s).lladdr = s.lladdr := rfl

@[simp] theorem returnFromException_idle (s : State) : (returnFromException s).idle = s.idle := rfl

@[simp] theorem returnFromException_shutdown (s : State) : (returnFromException s).shutdown = s.shutdown := rfl

@[simp] theorem returnFromException_irq (s : State) : (returnFromException s).irq = s.irq := rfl

@[simp] theorem returnFromException_mem (s : State) : (returnFromException s).mem = s.mem := rfl

@[simp] theorem returnFromException_inputs (s : State) : (returnFromException s).inputs = s.inputs := rfl

@[simp] theorem returnFromException_draws (s : State) : (returnFromException s).draws = s.draws := rfl

@[simp] theorem returnFromException_cfg (s : State) : (returnFromException s).cfg = s.cfg := rfl

/-! ### `shutDown` -/

@[simp] theorem shutDown_gpr (s : State) : (shutDown s).gpr = s.gpr := rfl

@[simp] theorem shutDown_hi (s : State) : (shutDown s).hi = s.hi := rfl

@[simp] theorem shutDown_lo (s : State) : (shutDown s).lo = s.lo := rfl

@[simp] theorem shutDown_pc (s : State) : (shutDown s).pc = s.pc := rfl

@[simp] theorem shutDown_npc (s : State) : (shutDown s).npc = s.npc := rfl

@[simp] theorem shutDown_inDelay (s : State) : (shutDown s).inDelay = s.inDelay := rfl

@[simp] theorem shutDown_index (s : State) : (shutDown s).index = s.index := rfl

@[simp] theorem shutDown_tlblo (s : State) : (shutDown s).tlblo = s.tlblo := rfl

@[simp] theorem shutDown_context (s : State) : (shutDown s).context = s.context := rfl

@[simp] theorem shutDown_badvaddr (s : State) : (shutDown s).badvaddr = s.badvaddr := rfl

@[simp] theorem shutDown_tlbhi (s : State) : (shutDown s).tlbhi = s.tlbhi := rfl

@[simp] theorem shutDown_status (s : State) : (shutDown s).status = s.status := rfl

@[simp] theorem shutDown_cause (s : State) : (shutDown s).cause = s.cause := rfl

@[simp] theorem shutDown_epc (s : State) : (shutDown s).epc = s.epc := rfl

@[simp] theorem shutDown_tlb (s : State) : (shutDown s).tlb = s.tlb := rfl

@[simp] theorem shutDown_llbit (s : State) : (shutDown s).llbit = s.llbit := rfl

@[simp] theorem shutDown_lladdr (s : State) : (shutDown s).lladdr = s.lladdr := rfl

@[simp] theorem shutDown_idle (s : State) : (shutDown s).idle = s.idle := rfl

@[simp] theorem shutDown_shutdown (s : State) : (shutDown s).shutdown = true := rfl

@[simp] theorem shutDown_irq (s : State) : (shutDown s).irq = s.irq := rfl

@[simp] theorem shutDown_mem (s : State) : (shutDown s).mem = s.mem := rfl

@[simp] theorem shutDown_inputs (s : State) : (shutDown s).inputs = s.inputs := rfl

@[simp] theorem shutDown_draws (s : State) : (shutDown s).draws = s.draws := rfl

@[simp] theorem shutDown_cfg (s : State) : (shutDown s).cfg = s.cfg := rfl

/-! ### `countDraw` -/

@[simp] theorem countDraw_gpr (s : State) : (countDraw s).gpr = s.gpr := rfl

@[simp] theorem countDraw_hi (s : State) : (countDraw s).hi = s.hi := rfl

@[simp] theorem countDraw_lo (s : State) : (countDraw s).lo = s.lo := rfl

@[simp] theorem countDraw_pc (s : State) : (countDraw s).pc = s.pc := rfl

@[simp] theorem countDraw_npc (s : State) : (countDraw s).npc = s.npc := rfl

@[simp] theorem countDraw_inDelay (s : State) : (countDraw s).inDelay = s.inDelay := rfl

@[simp] theorem countDraw_index (s : State) : (countDraw s).index = s.index := rfl

@[simp] theorem countDraw_tlblo (s : State) : (countDraw s).tlblo = s.tlblo := rfl

@[simp] theorem countDraw_context (s : State) : (countDraw s).context = s.context := rfl

@[simp] theorem countDraw_badvaddr (s : State) : (countDraw s).badvaddr = s.badvaddr := rfl

@[simp] theorem countDraw_tlbhi (s : State) : (countDraw s).tlbhi = s.tlbhi := rfl

@[simp] theorem countDraw_status (s : State) : (countDraw s).status = s.status := rfl

@[simp] theorem countDraw_cause (s : State) : (countDraw s).cause = s.cause := rfl

@[simp] theorem countDraw_epc (s : State) : (countDraw s).epc = s.epc := rfl

@[simp] theorem countDraw_tlb (s : State) : (countDraw s).tlb = s.tlb := rfl

@[simp] theorem countDraw_llbit (s : State) : (countDraw s).llbit = s.llbit := rfl

@[simp] theorem countDraw_lladdr (s : State) : (countDraw s).lladdr = s.lladdr := rfl

@[simp] theorem countDraw_idle (s : State) : (countDraw s).idle = s.idle := rfl

@[simp] theorem countDraw_shutdown (s : State) : (countDraw s).shutdown = s.shutdown := rfl

@[simp] theorem countDraw_irq (s : State) : (countDraw s).irq = s.irq := rfl

@[simp] theorem countDraw_mem (s : State) : (countDraw s).mem = s.mem := rfl

@[simp] theorem countDraw_inputs (s : State) : (countDraw s).inputs = s.inputs := rfl

@[simp] theorem countDraw_draws (s : State) : (countDraw s).draws = s.draws + 1 := rfl

@[simp] theorem countDraw_cfg (s : State) : (countDraw s).cfg = s.cfg := rfl

/-! ### `wake` -/

@[simp] theorem wake_gpr (s : State) : (wake s).gpr = s.gpr := rfl

@[simp] theorem wake_hi (s : State) : (wake s).hi = s.hi := rfl

@[simp] theorem wake_lo (s : State) : (wake s).lo = s.lo := rfl

@[simp] theorem wake_pc (s : State) : (wake s).pc = s.pc := rfl

@[simp] theorem wake_npc (s : State) : (wake s).npc = s.npc := rfl

@[simp] theorem wake_inDelay (s : State) : (wake s).inDelay = s.inDelay := rfl

@[simp] theorem wake_index (s : State) : (wake s).index = s.index := rfl

@[simp] theorem wake_tlblo (s : State) : (wake s).tlblo = s.tlblo := rfl

@[simp] theorem wake_context (s : State) : (wake s).context = s.context := rfl

@[simp] theorem wake_badvaddr (s : State) : (wake s).badvaddr = s.badvaddr := rfl

@[simp] theorem wake_tlbhi (s : State) : (wake s).tlbhi = s.tlbhi := rfl

@[simp] theorem wake_status (s : State) : (wake s).status = s.status := rfl

@[simp] theorem wake_cause (s : State) : (wake s).cause = s.cause := rfl

@[simp] theorem wake_epc (s : State) : (wake s).epc = s.epc := rfl

@[simp] theorem wake_tlb (s : State) : (wake s).tlb = s.tlb := rfl

@[simp] theorem wake_llbit (s : State) : (wake s).llbit = s.llbit := rfl

@[simp] theorem wake_lladdr (s : State) : (wake s).lladdr = s.lladdr := rfl

@[simp] theorem wake_idle (s : State) : (wake s).idle = false := rfl

@[simp] theorem wake_shutdown (s : State) : (wake s).shutdown = s.shutdown := rfl

@[simp] theorem wake_irq (s : State) : (wake s).irq = s.irq := rfl

@[simp] theorem wake_mem (s : State) : (wake s).mem = s.mem := rfl

@[simp] theorem wake_inputs (s : State) : (wake s).inputs = s.inputs := rfl

@[simp] theorem wake_draws (s : State) : (wake s).draws = s.draws := rfl

@[simp] theorem wake_cfg (s : State) : (wake s).cfg = s.cfg := rfl

/-! ### `resetEntry` -/

@[simp] theorem resetEntry_gpr (s : State) : (resetEntry s).gpr = s.gpr := rfl

@[simp] theorem resetEntry_hi (s : State) : (resetEntry s).hi = s.hi := rfl

@[simp] theorem resetEntry_lo (s : State) : (resetEntry s).lo = s.lo := rfl

@[simp] theorem resetEntry_pc (s : State) : (resetEntry s).pc = 0xbfc00000#32 := rfl

@[simp] theorem resetEntry_npc (s : State) : (resetEntry s).npc = 0xbfc00004#32 := rfl

@[simp] theorem resetEntry_inDelay (s : State) : (resetEntry s).inDelay = false := rfl

@[simp] theorem resetEntry_index (s : State) : (resetEntry s).index = s.index := rfl

@[simp] theorem resetEntry_tlblo (s : State) : (resetEntry s).tlblo = s.tlblo := rfl

@[simp] theorem resetEntry_context (s : State) : (resetEntry s).context = s.context := rfl

@[simp] theorem resetEntry_badvaddr (s : State) : (resetEntry s).badvaddr = s.badvaddr := rfl

@[simp] theorem resetEntry_tlbhi (s : State) : (resetEntry s).tlbhi = s.tlbhi := rfl

@[simp] theorem resetEntry_status (s : State) : (resetEntry s).status = { s.status with b := true, kuc := false, iec := false } := rfl

@[simp] theorem resetEntry_cause (s : State) : (resetEntry s).cause = s.cause := rfl

@[simp] theorem resetEntry_epc (s : State) : (resetEntry s).epc = s.epc := rfl

@[simp] theorem resetEntry_tlb (s : State) : (resetEntry s).tlb = s.tlb := rfl

@[simp] theorem resetEntry_llbit (s : State) : (resetEntry s).llbit = s.llbit := rfl

@[simp] theorem resetEntry_lladdr (s : State) : (resetEntry s).lladdr = s.lladdr := rfl

@[simp] theorem resetEntry_idle (s : State) : (resetEntry s).idle = s.idle := rfl

@[simp] theorem resetEntry_shutdown (s : State) : (resetEntry s).shutdown = s.shutdown := rfl

@[simp] theorem resetEntry_irq (s : State) : (resetEntry s).irq = s.irq := rfl

@[simp] theorem resetEntry_mem (s : State) : (resetEntry s).mem = s.mem := rfl

@[simp] theorem resetEntry_inputs (s : State) : (resetEntry s).inputs = s.inputs := rfl

@[simp] theorem resetEntry_draws (s : State) : (resetEntry s).draws = s.draws := rfl

@[simp] theorem resetEntry_cfg (s : State) : (resetEntry s).cfg = s.cfg := rfl

/-! ### `softReset` -/

@[simp] theorem softReset_gpr (s : State) : (softReset s).gpr = s.gpr := rfl

@[simp] theorem softReset_hi (s : State) : (softReset s).hi = s.hi := rfl

@[simp] theorem softReset_lo (s : State) : (softReset s).lo = s.lo := rfl

@[simp] theorem softReset_pc (s : State) : (softReset s).pc = 0xbfc00000#32 := rfl

@[simp] theorem softReset_npc (s : State) : (softReset s).npc = 0xbfc00004#32 := rfl

@[simp] theorem softReset_inDelay (s : State) : (softReset s).inDelay = false := rfl

@[simp] theorem softReset_index (s : State) : (softReset s).index = s.index := rfl

@[simp] theorem softReset_tlblo (s : State) : (softReset s).tlblo = s.tlblo := rfl

@[simp] theorem softReset_context (s : State) : (softReset s).context = s.context := rfl

@[simp] theorem softReset_badvaddr (s : State) : (softReset s).badvaddr = s.badvaddr := rfl

@[simp] theorem softReset_tlbhi (s : State) : (softReset s).tlbhi = s.tlbhi := rfl

@[simp] theorem softReset_status (s : State) : (softReset s).status = { s.status with b := true, s := true, kuc := false, iec := false } := rfl

@[simp] theorem softReset_cause (s : State) : (softReset s).cause = s.cause := rfl

@[simp] theorem softReset_epc (s : State) : (softReset s).epc = s.epc := rfl

@[simp] theorem softReset_tlb (s : State) : (softReset s).tlb = s.tlb := rfl

@[simp] theorem softReset_llbit (s : State) : (softReset s).llbit = s.llbit := rfl

@[simp] theorem softReset_lladdr (s : State) : (softReset s).lladdr = s.lladdr := rfl

@[simp] theorem softReset_idle (s : State) : (softReset s).idle = s.idle := rfl

@[simp] theorem softReset_shutdown (s : State) : (softReset s).shutdown = s.shutdown := rfl

@[simp] theorem softReset_irq (s : State) : (softReset s).irq = s.irq := rfl

@[simp] theorem softReset_mem (s : State) : (softReset s).mem = s.mem := rfl

@[simp] theorem softReset_inputs (s : State) : (softReset s).inputs = s.inputs := rfl

@[simp] theorem softReset_draws (s : State) : (softReset s).draws = s.draws := rfl

@[simp] theorem softReset_cfg (s : State) : (softReset s).cfg = s.cfg := rfl

/-! ### `nonMaskable` -/

@[simp] theorem nonMaskable_gpr (s : State) : (nonMaskable s).gpr = s.gpr := rfl

@[simp] theorem nonMaskable_hi (s : State) : (nonMaskable s).hi = s.hi := rfl

@[simp] theorem nonMaskable_lo (s : State) : (nonMaskable s).lo = s.lo := rfl

@[simp] theorem nonMaskable_pc (s : State) : (nonMaskable s).pc = 0xbfc00000#32 := rfl

@[simp] theorem nonMaskable_npc (s : State) : (nonMaskable s).npc = 0xbfc00004#32 := rfl

@[simp] theorem nonMaskable_inDelay (s : State) : (nonMaskable s).inDelay = false := rfl

@[simp] theorem nonMaskable_index (s : State) : (nonMaskable s).index = s.index := rfl

@[simp] theorem nonMaskable_tlblo (s : State) : (nonMaskable s).tlblo = s.tlblo := rfl

@[simp] theorem nonMaskable_context (s : State) : (nonMaskable s).context = s.context := rfl

@[simp] theorem nonMaskable_badvaddr (s : State) : (nonMaskable s).badvaddr = s.badvaddr := rfl

@[simp] theorem nonMaskable_tlbhi (s : State) : (nonMaskable s).tlbhi = s.tlbhi := rfl

@[simp] theorem nonMaskable_status (s : State) : (nonMaskable s).status = { s.status with b := true, n := true, kuc := false, iec := false } := rfl

@[simp] theorem nonMaskable_cause (s : State) : (nonMaskable s).cause = s.cause := rfl

@[simp] theorem nonMaskable_epc (s : State) : (nonMaskable s).epc = s.epc := rfl

@[simp] theorem nonMaskable_tlb (s : State) : (nonMaskable s).tlb = s.tlb := rfl

@[simp] theorem nonMaskable_llbit (s : State) : (nonMaskable s).llbit = s.llbit := rfl

@[simp] theorem nonMaskable_lladdr (s : State) : (nonMaskable s).lladdr = s.lladdr := rfl

@[simp] theorem nonMaskable_idle (s : State) : (nonMaskable s).idle = s.idle := rfl

@[simp] theorem nonMaskable_shutdown (s : State) : (nonMaskable s).shutdown = s.shutdown := rfl

@[simp] theorem nonMaskable_irq (s : State) : (nonMaskable s).irq = s.irq := rfl

@[simp] theorem nonMaskable_mem (s : State) : (nonMaskable s).mem = s.mem := rfl

@[simp] theorem nonMaskable_inputs (s : State) : (nonMaskable s).inputs = s.inputs := rfl

@[simp] theorem nonMaskable_draws (s : State) : (nonMaskable s).draws = s.draws := rfl

@[simp] theorem nonMaskable_cfg (s : State) : (nonMaskable s).cfg = s.cfg := rfl

/-! ### `setReg` -/

@[simp] theorem setReg_hi (s : State) (r : Reg) (v : Word) : (setReg s r v).hi = s.hi := by
  unfold setReg; split <;> rfl

@[simp] theorem setReg_lo (s : State) (r : Reg) (v : Word) : (setReg s r v).lo = s.lo := by
  unfold setReg; split <;> rfl

@[simp] theorem setReg_pc (s : State) (r : Reg) (v : Word) : (setReg s r v).pc = s.pc := by
  unfold setReg; split <;> rfl

@[simp] theorem setReg_npc (s : State) (r : Reg) (v : Word) : (setReg s r v).npc = s.npc := by
  unfold setReg; split <;> rfl

@[simp] theorem setReg_inDelay (s : State) (r : Reg) (v : Word) : (setReg s r v).inDelay = s.inDelay := by
  unfold setReg; split <;> rfl

@[simp] theorem setReg_index (s : State) (r : Reg) (v : Word) : (setReg s r v).index = s.index := by
  unfold setReg; split <;> rfl

@[simp] theorem setReg_tlblo (s : State) (r : Reg) (v : Word) : (setReg s r v).tlblo = s.tlblo := by
  unfold setReg; split <;> rfl

@[simp] theorem setReg_context (s : State) (r : Reg) (v : Word) : (setReg s r v).context = s.context := by
  unfold setReg; split <;> rfl

@[simp] theorem setReg_badvaddr (s : State) (r : Reg) (v : Word) : (setReg s r v).badvaddr = s.badvaddr := by
  unfold setReg; split <;> rfl

@[simp] theorem setReg_tlbhi (s : State) (r : Reg) (v : Word) : (setReg s r v).tlbhi = s.tlbhi := by
  unfold setReg; split <;> rfl

@[simp] theorem setReg_status (s : State) (r : Reg) (v : Word) : (setReg s r v).status = s.status := by
  unfold setReg; split <;> rfl

@[simp] theorem setReg_cause (s : State) (r : Reg) (v : Word) : (setReg s r v).cause = s.cause := by
  unfold setReg; split <;> rfl

@[simp] theorem setReg_epc (s : State) (r : Reg) (v : Word) : (setReg s r v).epc = s.epc := by
  unfold setReg; split <;> rfl

@[simp] theorem setReg_tlb (s : State) (r : Reg) (v : Word) : (setReg s r v).tlb = s.tlb := by
  unfold setReg; split <;> rfl

@[simp] theorem setReg_llbit (s : State) (r : Reg) (v : Word) : (setReg s r v).llbit = s.llbit := by
  unfold setReg; split <;> rfl

@[simp] theorem setReg_lladdr (s : State) (r : Reg) (v : Word) : (setReg s r v).lladdr = s.lladdr := by
  unfold setReg; split <;> rfl

@[simp] theorem setReg_idle (s : State) (r : Reg) (v : Word) : (setReg s r v).idle = s.idle := by
  unfold setReg; split <;> rfl

@[simp] theorem setReg_shutdown (s : State) (r : Reg) (v : Word) : (setReg s r v).shutdown = s.shutdown := by
  unfold setReg; split <;> rfl

@[simp] theorem setReg_irq (s : State) (r : Reg) (v : Word) : (setReg s r v).irq = s.irq := by
  unfold setReg; split <;> rfl

@[simp] theorem setReg_mem (s : State) (r : Reg) (v : Word) : (setReg s r v).mem = s.mem := by
  unfold setReg; split <;> rfl

@[simp] theorem setReg_inputs (s : State) (r : Reg) (v : Word) : (setReg s r v).inputs = s.inputs := by
  unfold setReg; split <;> rfl

@[simp] theorem setReg_draws (s : State) (r : Reg) (v : Word) : (setReg s r v).draws = s.draws := by
  unfold setReg; split <;> rfl

@[simp] theorem setReg_cfg (s : State) (r : Reg) (v : Word) : (setReg s r v).cfg = s.cfg := by
  unfold setReg; split <;> rfl

/-! ### `setLines` -/

@[simp] theorem setLines_gpr (s : State) (level : BitVec 6) : (setLines s level).gpr = s.gpr := rfl

@[simp] theorem setLines_hi (s : State) (level : BitVec 6) : (setLines s level).hi = s.hi := rfl

@[simp] theorem setLines_lo (s : State) (level : BitVec 6) : (setLines s level).lo = s.lo := rfl

@[simp] theorem setLines_pc (s : State) (level : BitVec 6) : (setLines s level).pc = s.pc := rfl

@[simp] theorem setLines_npc (s : State) (level : BitVec 6) : (setLines s level).npc = s.npc := rfl

@[simp] theorem setLines_inDelay (s : State) (level : BitVec 6) : (setLines s level).inDelay = s.inDelay := rfl

@[simp] theorem setLines_index (s : State) (level : BitVec 6) : (setLines s level).index = s.index := rfl

@[simp] theorem setLines_tlblo (s : State) (level : BitVec 6) : (setLines s level).tlblo = s.tlblo := rfl

@[simp] theorem setLines_context (s : State) (level : BitVec 6) : (setLines s level).context = s.context := rfl

@[simp] theorem setLines_badvaddr (s : State) (level : BitVec 6) : (setLines s level).badvaddr = s.badvaddr := rfl

@[simp] theorem setLines_tlbhi (s : State) (level : BitVec 6) : (setLines s level).tlbhi = s.tlbhi := rfl

@[simp] theorem setLines_status (s : State) (level : BitVec 6) : (setLines s level).status = s.status := rfl

@[simp] theorem setLines_cause (s : State) (level : BitVec 6) : (setLines s level).cause = s.cause := rfl

@[simp] theorem setLines_epc (s : State) (level : BitVec 6) : (setLines s level).epc = s.epc := rfl

@[simp] theorem setLines_tlb (s : State) (level : BitVec 6) : (setLines s level).tlb = s.tlb := rfl

@[simp] theorem setLines_llbit (s : State) (level : BitVec 6) : (setLines s level).llbit = s.llbit := rfl

@[simp] theorem setLines_lladdr (s : State) (level : BitVec 6) : (setLines s level).lladdr = s.lladdr := rfl

@[simp] theorem setLines_shutdown (s : State) (level : BitVec 6) : (setLines s level).shutdown = s.shutdown := rfl

@[simp] theorem setLines_mem (s : State) (level : BitVec 6) : (setLines s level).mem = s.mem := rfl

@[simp] theorem setLines_inputs (s : State) (level : BitVec 6) : (setLines s level).inputs = s.inputs := rfl

@[simp] theorem setLines_draws (s : State) (level : BitVec 6) : (setLines s level).draws = s.draws := rfl

@[simp] theorem setLines_cfg (s : State) (level : BitVec 6) : (setLines s level).cfg = s.cfg := rfl

@[simp] theorem setLines_irq (s : State) (level : BitVec 6) : (setLines s level).irq = level := rfl

@[simp] theorem setLines_idle (s : State) (level : BitVec 6) : (setLines s level).idle = (s.idle && level == 0#6) := rfl

/-! ### `busWrite` -/

/-- Where nothing answers, a write from outside does nothing. -/
theorem busWrite_none {s : State} {pa : Word} (h : physAt s.cfg pa = none) (b : Byte) : busWrite s pa b = s := by
  simp [busWrite, h]

/-- Where memory answers, it writes the byte and breaks a reservation on the aligned word. -/
theorem busWrite_memory {s : State} {pa : Word} (h : physAt s.cfg pa = some .memory) (b : Byte) :
    busWrite s pa b =
      { s with mem := s.mem.write pa.toNat b, llbit := s.llbit && alignedWord pa != alignedWord s.lladdr } := by
  simp [busWrite, h]

/-- Where a device answers, it breaks a reservation on the aligned word and does nothing else. -/
theorem busWrite_device {s : State} {pa : Word} (h : physAt s.cfg pa = some .device) (b : Byte) :
    busWrite s pa b = { s with llbit := s.llbit && alignedWord pa != alignedWord s.lladdr } := by
  simp [busWrite, h]

@[simp] theorem busWrite_gpr (s : State) (pa : Word) (b : Byte) : (busWrite s pa b).gpr = s.gpr := by
  unfold busWrite; split <;> rfl

@[simp] theorem busWrite_hi (s : State) (pa : Word) (b : Byte) : (busWrite s pa b).hi = s.hi := by
  unfold busWrite; split <;> rfl

@[simp] theorem busWrite_lo (s : State) (pa : Word) (b : Byte) : (busWrite s pa b).lo = s.lo := by
  unfold busWrite; split <;> rfl

@[simp] theorem busWrite_pc (s : State) (pa : Word) (b : Byte) : (busWrite s pa b).pc = s.pc := by
  unfold busWrite; split <;> rfl

@[simp] theorem busWrite_npc (s : State) (pa : Word) (b : Byte) : (busWrite s pa b).npc = s.npc := by
  unfold busWrite; split <;> rfl

@[simp] theorem busWrite_inDelay (s : State) (pa : Word) (b : Byte) : (busWrite s pa b).inDelay = s.inDelay := by
  unfold busWrite; split <;> rfl

@[simp] theorem busWrite_index (s : State) (pa : Word) (b : Byte) : (busWrite s pa b).index = s.index := by
  unfold busWrite; split <;> rfl

@[simp] theorem busWrite_tlblo (s : State) (pa : Word) (b : Byte) : (busWrite s pa b).tlblo = s.tlblo := by
  unfold busWrite; split <;> rfl

@[simp] theorem busWrite_context (s : State) (pa : Word) (b : Byte) : (busWrite s pa b).context = s.context := by
  unfold busWrite; split <;> rfl

@[simp] theorem busWrite_badvaddr (s : State) (pa : Word) (b : Byte) : (busWrite s pa b).badvaddr = s.badvaddr := by
  unfold busWrite; split <;> rfl

@[simp] theorem busWrite_tlbhi (s : State) (pa : Word) (b : Byte) : (busWrite s pa b).tlbhi = s.tlbhi := by
  unfold busWrite; split <;> rfl

@[simp] theorem busWrite_status (s : State) (pa : Word) (b : Byte) : (busWrite s pa b).status = s.status := by
  unfold busWrite; split <;> rfl

@[simp] theorem busWrite_cause (s : State) (pa : Word) (b : Byte) : (busWrite s pa b).cause = s.cause := by
  unfold busWrite; split <;> rfl

@[simp] theorem busWrite_epc (s : State) (pa : Word) (b : Byte) : (busWrite s pa b).epc = s.epc := by
  unfold busWrite; split <;> rfl

@[simp] theorem busWrite_tlb (s : State) (pa : Word) (b : Byte) : (busWrite s pa b).tlb = s.tlb := by
  unfold busWrite; split <;> rfl

@[simp] theorem busWrite_lladdr (s : State) (pa : Word) (b : Byte) : (busWrite s pa b).lladdr = s.lladdr := by
  unfold busWrite; split <;> rfl

@[simp] theorem busWrite_idle (s : State) (pa : Word) (b : Byte) : (busWrite s pa b).idle = s.idle := by
  unfold busWrite; split <;> rfl

@[simp] theorem busWrite_shutdown (s : State) (pa : Word) (b : Byte) : (busWrite s pa b).shutdown = s.shutdown := by
  unfold busWrite; split <;> rfl

@[simp] theorem busWrite_irq (s : State) (pa : Word) (b : Byte) : (busWrite s pa b).irq = s.irq := by
  unfold busWrite; split <;> rfl

@[simp] theorem busWrite_inputs (s : State) (pa : Word) (b : Byte) : (busWrite s pa b).inputs = s.inputs := by
  unfold busWrite; split <;> rfl

@[simp] theorem busWrite_draws (s : State) (pa : Word) (b : Byte) : (busWrite s pa b).draws = s.draws := by
  unfold busWrite; split <;> rfl

@[simp] theorem busWrite_cfg (s : State) (pa : Word) (b : Byte) : (busWrite s pa b).cfg = s.cfg := by
  unfold busWrite; split <;> rfl

/-! ### `countRead` -/

@[simp] theorem countRead_gpr (s : State) (r : Cp0Reg) : (countRead s r).gpr = s.gpr := by
  unfold countRead; split <;> rfl

@[simp] theorem countRead_hi (s : State) (r : Cp0Reg) : (countRead s r).hi = s.hi := by
  unfold countRead; split <;> rfl

@[simp] theorem countRead_lo (s : State) (r : Cp0Reg) : (countRead s r).lo = s.lo := by
  unfold countRead; split <;> rfl

@[simp] theorem countRead_pc (s : State) (r : Cp0Reg) : (countRead s r).pc = s.pc := by
  unfold countRead; split <;> rfl

@[simp] theorem countRead_npc (s : State) (r : Cp0Reg) : (countRead s r).npc = s.npc := by
  unfold countRead; split <;> rfl

@[simp] theorem countRead_inDelay (s : State) (r : Cp0Reg) : (countRead s r).inDelay = s.inDelay := by
  unfold countRead; split <;> rfl

@[simp] theorem countRead_index (s : State) (r : Cp0Reg) : (countRead s r).index = s.index := by
  unfold countRead; split <;> rfl

@[simp] theorem countRead_tlblo (s : State) (r : Cp0Reg) : (countRead s r).tlblo = s.tlblo := by
  unfold countRead; split <;> rfl

@[simp] theorem countRead_context (s : State) (r : Cp0Reg) : (countRead s r).context = s.context := by
  unfold countRead; split <;> rfl

@[simp] theorem countRead_badvaddr (s : State) (r : Cp0Reg) : (countRead s r).badvaddr = s.badvaddr := by
  unfold countRead; split <;> rfl

@[simp] theorem countRead_tlbhi (s : State) (r : Cp0Reg) : (countRead s r).tlbhi = s.tlbhi := by
  unfold countRead; split <;> rfl

@[simp] theorem countRead_status (s : State) (r : Cp0Reg) : (countRead s r).status = s.status := by
  unfold countRead; split <;> rfl

@[simp] theorem countRead_cause (s : State) (r : Cp0Reg) : (countRead s r).cause = s.cause := by
  unfold countRead; split <;> rfl

@[simp] theorem countRead_epc (s : State) (r : Cp0Reg) : (countRead s r).epc = s.epc := by
  unfold countRead; split <;> rfl

@[simp] theorem countRead_tlb (s : State) (r : Cp0Reg) : (countRead s r).tlb = s.tlb := by
  unfold countRead; split <;> rfl

@[simp] theorem countRead_llbit (s : State) (r : Cp0Reg) : (countRead s r).llbit = s.llbit := by
  unfold countRead; split <;> rfl

@[simp] theorem countRead_lladdr (s : State) (r : Cp0Reg) : (countRead s r).lladdr = s.lladdr := by
  unfold countRead; split <;> rfl

@[simp] theorem countRead_idle (s : State) (r : Cp0Reg) : (countRead s r).idle = s.idle := by
  unfold countRead; split <;> rfl

@[simp] theorem countRead_shutdown (s : State) (r : Cp0Reg) : (countRead s r).shutdown = s.shutdown := by
  unfold countRead; split <;> rfl

@[simp] theorem countRead_irq (s : State) (r : Cp0Reg) : (countRead s r).irq = s.irq := by
  unfold countRead; split <;> rfl

@[simp] theorem countRead_mem (s : State) (r : Cp0Reg) : (countRead s r).mem = s.mem := by
  unfold countRead; split <;> rfl

@[simp] theorem countRead_inputs (s : State) (r : Cp0Reg) : (countRead s r).inputs = s.inputs := by
  unfold countRead; split <;> rfl

@[simp] theorem countRead_cfg (s : State) (r : Cp0Reg) : (countRead s r).cfg = s.cfg := by
  unfold countRead; split <;> rfl

/-! ### `hardReset`: memory, lines, inputs, draws and parameters are kept -/

@[simp] theorem hardReset_gpr (s : State) (tlb : Tlb) : (hardReset s tlb).gpr = State.reset.gpr := rfl

@[simp] theorem hardReset_hi (s : State) (tlb : Tlb) : (hardReset s tlb).hi = State.reset.hi := rfl

@[simp] theorem hardReset_lo (s : State) (tlb : Tlb) : (hardReset s tlb).lo = State.reset.lo := rfl

@[simp] theorem hardReset_pc (s : State) (tlb : Tlb) : (hardReset s tlb).pc = State.reset.pc := rfl

@[simp] theorem hardReset_npc (s : State) (tlb : Tlb) : (hardReset s tlb).npc = State.reset.npc := rfl

@[simp] theorem hardReset_inDelay (s : State) (tlb : Tlb) : (hardReset s tlb).inDelay = State.reset.inDelay := rfl

@[simp] theorem hardReset_index (s : State) (tlb : Tlb) : (hardReset s tlb).index = State.reset.index := rfl

@[simp] theorem hardReset_tlblo (s : State) (tlb : Tlb) : (hardReset s tlb).tlblo = State.reset.tlblo := rfl

@[simp] theorem hardReset_context (s : State) (tlb : Tlb) : (hardReset s tlb).context = State.reset.context := rfl

@[simp] theorem hardReset_badvaddr (s : State) (tlb : Tlb) : (hardReset s tlb).badvaddr = State.reset.badvaddr := rfl

@[simp] theorem hardReset_tlbhi (s : State) (tlb : Tlb) : (hardReset s tlb).tlbhi = State.reset.tlbhi := rfl

@[simp] theorem hardReset_status (s : State) (tlb : Tlb) : (hardReset s tlb).status = State.reset.status := rfl

@[simp] theorem hardReset_cause (s : State) (tlb : Tlb) : (hardReset s tlb).cause = State.reset.cause := rfl

@[simp] theorem hardReset_epc (s : State) (tlb : Tlb) : (hardReset s tlb).epc = State.reset.epc := rfl

@[simp] theorem hardReset_tlb (s : State) (tlb : Tlb) : (hardReset s tlb).tlb = tlb := rfl

@[simp] theorem hardReset_llbit (s : State) (tlb : Tlb) : (hardReset s tlb).llbit = State.reset.llbit := rfl

@[simp] theorem hardReset_lladdr (s : State) (tlb : Tlb) : (hardReset s tlb).lladdr = State.reset.lladdr := rfl

@[simp] theorem hardReset_idle (s : State) (tlb : Tlb) : (hardReset s tlb).idle = State.reset.idle := rfl

@[simp] theorem hardReset_shutdown (s : State) (tlb : Tlb) : (hardReset s tlb).shutdown = State.reset.shutdown := rfl

@[simp] theorem hardReset_irq (s : State) (tlb : Tlb) : (hardReset s tlb).irq = s.irq := rfl

@[simp] theorem hardReset_mem (s : State) (tlb : Tlb) : (hardReset s tlb).mem = s.mem := rfl

@[simp] theorem hardReset_inputs (s : State) (tlb : Tlb) : (hardReset s tlb).inputs = s.inputs := rfl

@[simp] theorem hardReset_draws (s : State) (tlb : Tlb) : (hardReset s tlb).draws = s.draws := rfl

@[simp] theorem hardReset_cfg (s : State) (tlb : Tlb) : (hardReset s tlb).cfg = s.cfg := rfl

/-! ### Reading a general register -/

/-- A read depends on the register file alone. -/
theorem readReg_of_gpr_eq {s t : State} (h : t.gpr = s.gpr) (r : Reg) : readReg t r = readReg s r := by
  simp [readReg, h]

@[simp] theorem readReg_zero (s : State) : readReg s 0#5 = 0#32 := by simp [readReg]

/-- A read after a write (spec/10_state.md R21): register 0 reads 0, the written register its value. -/
theorem readReg_setReg (s : State) (rd r : Reg) (v : Word) :
    readReg (setReg s rd v) r = if r = 0#5 then 0#32 else if r = rd then v else readReg s r := by
  by_cases hr : r = 0#5
  · simp [readReg, hr]
  · by_cases hd : rd = 0#5
    · have : r ≠ rd := fun h => hr (h.trans hd)
      simp [setReg, hd, hr]
    · by_cases h : r = rd
      · subst h; simp [readReg, setReg, hr]
      · have h' : rd.toNat ≠ r.toNat := fun e => h (BitVec.eq_of_toNat_eq e.symm)
        simp [readReg, setReg, hr, hd, h, h']

@[simp] theorem readReg_setHiLo (s : State) (hi lo : Word) (r : Reg) : readReg (setHiLo s hi lo) r = readReg s r :=
  readReg_of_gpr_eq (by simp) r

@[simp] theorem readReg_advance (s : State) (r : Reg) : readReg (advance s) r = readReg s r :=
  readReg_of_gpr_eq (by simp) r

@[simp] theorem readReg_branch (s : State) (taken : Bool) (target : Word) (r : Reg) : readReg (branch s taken target) r = readReg s r :=
  readReg_of_gpr_eq (by simp) r

@[simp] theorem readReg_trapEntry (e : Exception) (s : State) (r : Reg) : readReg (trapEntry e s) r = readReg s r :=
  readReg_of_gpr_eq (by simp) r

@[simp] theorem readReg_returnFromException (s : State) (r : Reg) : readReg (returnFromException s) r = readReg s r :=
  readReg_of_gpr_eq (by simp) r

@[simp] theorem readReg_shutDown (s : State) (r : Reg) : readReg (shutDown s) r = readReg s r :=
  readReg_of_gpr_eq (by simp) r

@[simp] theorem readReg_countDraw (s : State) (r : Reg) : readReg (countDraw s) r = readReg s r :=
  readReg_of_gpr_eq (by simp) r

@[simp] theorem readReg_wake (s : State) (r : Reg) : readReg (wake s) r = readReg s r :=
  readReg_of_gpr_eq (by simp) r

@[simp] theorem readReg_resetEntry (s : State) (r : Reg) : readReg (resetEntry s) r = readReg s r :=
  readReg_of_gpr_eq (by simp) r

@[simp] theorem readReg_softReset (s : State) (r : Reg) : readReg (softReset s) r = readReg s r :=
  readReg_of_gpr_eq (by simp) r

@[simp] theorem readReg_nonMaskable (s : State) (r : Reg) : readReg (nonMaskable s) r = readReg s r :=
  readReg_of_gpr_eq (by simp) r

@[simp] theorem readReg_setLines (s : State) (level : BitVec 6) (r : Reg) : readReg (setLines s level) r = readReg s r := rfl

@[simp] theorem readReg_busWrite (s : State) (pa : Word) (b : Byte) (r : Reg) : readReg (busWrite s pa b) r = readReg s r :=
  readReg_of_gpr_eq (by simp) r

@[simp] theorem readReg_countRead (s : State) (c : Cp0Reg) (r : Reg) : readReg (countRead s c) r = readReg s r :=
  readReg_of_gpr_eq (by simp) r

end Sys2Proof.Machine
end

