-- ==== Sys2Proof/Laws/Tlb.lean ====
section
/-! SUPPORT. The TLB: reading a written slot, and the list searches said with quantifiers over slots
(spec/20_memory.md R90, R92; spec/46_kernel_cp0.md R387, R388). -/

namespace Sys2Proof.Machine

@[simp] theorem mem_allSlots (i : Slot) : i ∈ allSlots := by
  simp only [allSlots, List.mem_map, List.mem_range]
  exact ⟨i.toNat, i.isLt, by simp⟩

theorem nodup_allSlots : allSlots.Nodup := by decide

/-- Reading a slot after writing one. -/
theorem tlbAt_tlbSet (t : Tlb) (i j : Slot) (e : TlbEntry) :
    tlbAt (tlbSet t i e) j = if j = i then e else tlbAt t j := by
  by_cases h : j = i
  · subst h; simp [tlbAt, tlbSet]
  · have h' : i.toNat ≠ j.toNat := fun e => h (BitVec.eq_of_toNat_eq e.symm)
    simp [tlbAt, tlbSet, h, h']

@[simp] theorem tlbAt_tlbSet_same (t : Tlb) (i : Slot) (e : TlbEntry) : tlbAt (tlbSet t i e) i = e := by
  simp [tlbAt_tlbSet]

/-- The duplicate check finds a slot other than `i` that can match what `e` matches. -/
theorem tlbClash_iff (t : Tlb) (i : Slot) (e : TlbEntry) :
    tlbClash t i e = true ↔ ∃ j, j ≠ i ∧ (tlbAt t j).clashes e = true := by
  simp [tlbClash]

theorem tlbClash_false_iff (t : Tlb) (i : Slot) (e : TlbEntry) :
    tlbClash t i e = false ↔ ∀ j, j ≠ i → (tlbAt t j).clashes e = false := by
  simp [tlbClash]

theorem mem_tlbHits (t : Tlb) (vp : BitVec 20) (asid : BitVec 6) (i : Slot) :
    i ∈ tlbHits t vp asid ↔ (tlbAt t i).hits vp asid = true := by
  simp [tlbHits]

theorem nodup_tlbHits (t : Tlb) (vp : BitVec 20) (asid : BitVec 6) : (tlbHits t vp asid).Nodup :=
  nodup_allSlots.filter _

/-- No entry matches. -/
theorem tlbHits_nil_iff (t : Tlb) (vp : BitVec 20) (asid : BitVec 6) :
    tlbHits t vp asid = [] ↔ ∀ i, (tlbAt t i).hits vp asid = false := by
  constructor
  · intro h i
    by_contra hi
    have : i ∈ tlbHits t vp asid := (mem_tlbHits ..).2 (by simpa using hi)
    simp [h] at this
  · intro h
    refine List.eq_nil_iff_forall_not_mem.2 fun i hi => ?_
    simpa [h i] using (mem_tlbHits ..).1 hi

/-- Exactly one entry matches, that of slot `i`. -/
theorem tlbHits_singleton_iff (t : Tlb) (vp : BitVec 20) (asid : BitVec 6) (i : Slot) :
    tlbHits t vp asid = [i] ↔ ∀ j, (tlbAt t j).hits vp asid = true ↔ j = i := by
  constructor
  · intro h j
    rw [← mem_tlbHits, h, List.mem_singleton]
  · intro h
    have hm : ∀ j, j ∈ tlbHits t vp asid ↔ j = i := fun j => (mem_tlbHits ..).trans (h j)
    have hn := nodup_tlbHits t vp asid
    generalize tlbHits t vp asid = l at hm hn
    match l with
    | [] => exact absurd ((hm i).2 rfl) (by simp)
    | [a] => rw [(hm a).1 (by simp)]
    | a :: b :: l =>
      have ha := (hm a).1 (by simp)
      have hb := (hm b).1 (by simp)
      simp [ha, hb] at hn

/-- Two or more entries match. -/
theorem tlbHits_many_iff (t : Tlb) (vp : BitVec 20) (asid : BitVec 6) :
    (∃ a b l, tlbHits t vp asid = a :: b :: l) ↔
      ∃ i j, i ≠ j ∧ (tlbAt t i).hits vp asid = true ∧ (tlbAt t j).hits vp asid = true := by
  constructor
  · rintro ⟨a, b, l, h⟩
    have hn := nodup_tlbHits t vp asid
    refine ⟨a, b, ?_, (mem_tlbHits ..).1 (by simp [h]), (mem_tlbHits ..).1 (by simp [h])⟩
    rintro rfl
    simp [h] at hn
  · rintro ⟨i, j, hij, hi, hj⟩
    have hi := (mem_tlbHits ..).2 hi
    have hj := (mem_tlbHits ..).2 hj
    generalize tlbHits t vp asid = l at hi hj
    match l with
    | [] => simp at hi
    | [a] => simp at hi hj; exact absurd (hi.trans hj.symm) hij
    | a :: b :: l => exact ⟨a, b, l, rfl⟩

theorem TlbEntry.clashes_comm (e f : TlbEntry) : e.clashes f = f.clashes e := by
  unfold TlbEntry.clashes
  rw [Bool.beq_comm, Bool.beq_comm (a := e.hi.asid), Bool.or_assoc, Bool.or_assoc, Bool.or_comm e.lo.g]

/-- Two entries that match one address can match the same address. -/
theorem TlbEntry.clashes_of_hits {e f : TlbEntry} {vp : BitVec 20} {asid : BitVec 6} (he : e.hits vp asid = true)
    (hf : f.hits vp asid = true) : e.clashes f = true := by
  simp only [TlbEntry.hits, TlbEntry.clashes, Bool.and_eq_true, Bool.or_eq_true, beq_iff_eq] at *
  obtain ⟨h1, h2⟩ := he
  obtain ⟨h3, h4⟩ := hf
  refine ⟨h1.trans h3.symm, ?_⟩
  rcases h2 with h2 | h2 <;> rcases h4 with h4 | h4 <;> simp [h2, h4]

/-- Writing a slot whose new entry clashes with no other slot keeps the TLB free of clashing pairs. -/
theorem TlbNoDup.tlbSet {t : Tlb} {i : Slot} {e : TlbEntry} (h : TlbNoDup t) (hc : tlbClash t i e = false) :
    TlbNoDup (tlbSet t i e) := by
  intro a b hab
  have hc := (tlbClash_false_iff ..).1 hc
  rw [tlbAt_tlbSet, tlbAt_tlbSet]
  split
  · split
    · rename_i h1 h2; exact absurd (h1.trans h2.symm) hab
    · rw [TlbEntry.clashes_comm]; exact hc b ‹_›
  · split
    · exact hc a ‹_›
    · exact h a b hab

end Sys2Proof.Machine
end

