-- ==== Sys2Proof/Laws/Access.lean ====
section
/-! SUPPORT. What an access can come to, said once (spec/20_memory.md R98 to R102). -/

namespace Sys2Proof.Machine

@[simp] theorem andThen_ok (pa : Word) (s : State) (go dev : Word → Result) :
    (Access.ok pa).andThen s go dev = go pa := rfl

@[simp] theorem andThen_raise (e : Exception) (s : State) (go dev : Word → Result) :
    (Access.raise e).andThen s go dev = .next (trapEntry e s) := rfl

@[simp] theorem andThen_machineCheck (s : State) (go dev : Word → Result) :
    Access.machineCheck.andThen s go dev = .next (shutDown s) := rfl

@[simp] theorem andThen_device (pa : Word) (s : State) (go dev : Word → Result) :
    (Access.device pa).andThen s go dev = dev pa := rfl

/-- An access that answers a next state went on at a physical address, in memory or at a device, took an exception, or shut
down. -/
theorem andThen_next {a : Access} {s t : State} {go dev : Word → Result} (h : a.andThen s go dev = .next t) :
    (∃ pa, a = .ok pa ∧ go pa = .next t) ∨ (∃ pa, a = .device pa ∧ dev pa = .next t) ∨
      (∃ e, a = .raise e ∧ t = trapEntry e s) ∨ (a = .machineCheck ∧ t = shutDown s) := by
  cases a with
  | ok pa => exact .inl ⟨pa, rfl, h⟩
  | raise e => exact .inr (.inr (.inl ⟨e, rfl, by simpa using h.symm⟩))
  | machineCheck => exact .inr (.inr (.inr ⟨rfl, by simpa using h.symm⟩))
  | device pa => exact .inr (.inl ⟨pa, rfl, h⟩)

/-- Every outcome of translation of a mapped address. -/
theorem translateMapped_cases (s : State) (va : Word) (k : AccessKind) :
    ((∀ i, (tlbAt s.tlb i).hits (pageOf va) s.tlbhi.asid = false) ∧
        translateMapped s va k = .raise (tlbError k va (!va.msb))) ∨
      (∃ i, (∀ j, (tlbAt s.tlb j).hits (pageOf va) s.tlbhi.asid = true ↔ j = i) ∧
        translateMapped s va k =
          if !(tlbAt s.tlb i).lo.v then .raise (tlbError k va false)
          else if k = .store ∧ !(tlbAt s.tlb i).lo.d then .raise (.mod va)
          else .ok ((tlbAt s.tlb i).lo.ppage ++ va.extractLsb' 0 12)) ∨
      ((∃ i j, i ≠ j ∧ (tlbAt s.tlb i).hits (pageOf va) s.tlbhi.asid = true ∧
        (tlbAt s.tlb j).hits (pageOf va) s.tlbhi.asid = true) ∧ translateMapped s va k = .machineCheck) := by
  unfold translateMapped
  split
  · rename_i h; exact .inl ⟨(tlbHits_nil_iff ..).1 h, rfl⟩
  · rename_i i h; exact .inr (.inl ⟨i, (tlbHits_singleton_iff ..).1 h, rfl⟩)
  · rename_i a b l h; exact .inr (.inr ⟨(tlbHits_many_iff ..).1 ⟨a, b, l, h⟩, rfl⟩)

/-- Translation itself never reaches a device. -/
theorem translate_ne_device (s : State) (va : Word) (k : AccessKind) (n : Nat) (c : Bool) (pa : Word) :
    translate s va k n c ≠ .device pa := by
  have hm : translateMapped s va k ≠ .device pa := by
    rcases translateMapped_cases s va k with ⟨-, h⟩ | ⟨i, -, h⟩ | ⟨-, h⟩ <;> rw [h]
    · simp
    · split
      · simp
      · split <;> simp
    · simp
  unfold translate
  split
  · simp
  · split
    · simp
    · split <;> simp_all

/-- An access reaches memory exactly when translation gives the address and memory answers there. -/
theorem memAddress_ok_iff (s : State) (va : Word) (k : AccessKind) (n : Nat) (c : Bool) (pa : Word) :
    memAddress s va k n c = .ok pa ↔ translate s va k n c = .ok pa ∧ physAt s.cfg pa = some .memory := by
  unfold memAddress busAddress
  constructor
  · intro h
    split at h
    · rename_i p hp
      split at h
      · simp at h
      · simp at h
      · rename_i hk; cases h; exact ⟨hp, hk⟩
    · simp at h
    · simp at h
    · simp at h
  · rintro ⟨h1, h2⟩
    simp [h1, h2]

/-- An access reaches a device exactly when translation gives the address and a device answers there. -/
theorem memAddress_device_iff (s : State) (va : Word) (k : AccessKind) (n : Nat) (c : Bool) (pa : Word) :
    memAddress s va k n c = .device pa ↔ translate s va k n c = .ok pa ∧ physAt s.cfg pa = some .device := by
  unfold memAddress busAddress
  constructor
  · intro h
    split at h
    · rename_i p hp
      split at h
      · simp at h
      · rename_i hk; cases h; exact ⟨hp, hk⟩
      · simp at h
    · simp at h
    · simp at h
    · rename_i p hp; exact (translate_ne_device _ _ _ _ _ _ hp).elim
  · rintro ⟨h1, h2⟩
    simp [h1, h2]

/-- An exception of an access is translation's, or the bus error of a translated address that nothing answers (R99). -/
theorem memAddress_raise_iff (s : State) (va : Word) (k : AccessKind) (n : Nat) (c : Bool) (e : Exception) :
    memAddress s va k n c = .raise e ↔
      translate s va k n c = .raise e ∨
        ∃ pa, translate s va k n c = .ok pa ∧ physAt s.cfg pa = none ∧ e = busError k := by
  unfold memAddress busAddress
  constructor
  · intro h
    split at h
    · rename_i p hp
      split at h
      · rename_i hk; cases h; exact .inr ⟨p, hp, hk, rfl⟩
      · simp at h
      · simp at h
    · rename_i hp; cases h; exact .inl hp
    · simp at h
    · simp at h
  · rintro (h | ⟨pa, h1, h2, rfl⟩)
    · simp [h]
    · simp [h1, h2]

/-- An access is a machine check exactly when its translation is. -/
theorem memAddress_machineCheck_iff (s : State) (va : Word) (k : AccessKind) (n : Nat) (c : Bool) :
    memAddress s va k n c = .machineCheck ↔ translate s va k n c = .machineCheck := by
  unfold memAddress busAddress
  constructor
  · intro h
    split at h
    · split at h <;> simp at h
    · simp at h
    · assumption
    · simp at h
  · intro h; simp [h]

/-- The segments as ranges of the top bits: an address is direct-mapped exactly when it lies in kseg0 or kseg1. -/
theorem segment_direct_iff (va : Word) :
    (segmentOf va = .kseg0 ∨ segmentOf va = .kseg1) ↔ 0x80000000 ≤ va.toNat ∧ va.toNat < 0xc0000000 := by
  unfold segmentOf
  split
  · simp; omega
  · split
    · simp; omega
    · split
      · simp; omega
      · simp; omega

end Sys2Proof.Machine
end

