-- ==== Sys2Proof/Laws/Bits.lean ====
section
/-! SUPPORT. Concatenation, fields and bytes as arithmetic on `toNat`, where `omega` closes what is left. -/

namespace Sys2Proof

/-- Concatenation as arithmetic. -/
theorem toNat_append_mul {n m : Nat} (x : BitVec n) (y : BitVec m) : (x ++ y).toNat = x.toNat * 2 ^ m + y.toNat := by
  rw [BitVec.toNat_append, ← Nat.shiftLeft_add_eq_or_of_lt y.isLt, Nat.shiftLeft_eq]

/-- A field as arithmetic. -/
theorem toNat_extract {w : Nat} (v : BitVec w) (s l : Nat) : (v.extractLsb' s l).toNat = v.toNat / 2 ^ s % 2 ^ l := by
  rw [BitVec.extractLsb'_toNat, Nat.shiftRight_eq_div_pow]

/-- A field above the lower part of a concatenation lies in its upper part. -/
theorem extract_append_high {n m : Nat} (x : BitVec n) (y : BitVec m) (s l : Nat) (h : m ≤ s) :
    (x ++ y).extractLsb' s l = x.extractLsb' (s - m) l := by
  apply BitVec.eq_of_getLsbD_eq
  intro i hi
  simp [BitVec.getLsbD_append, hi, show ¬ s + i < m by omega, show s + i - m = s - m + i by omega]

/-- A field inside the lower part of a concatenation lies there. -/
theorem extract_append_low {n m : Nat} (x : BitVec n) (y : BitVec m) (s l : Nat) (h : s + l ≤ m) :
    (x ++ y).extractLsb' s l = y.extractLsb' s l := by
  apply BitVec.eq_of_getLsbD_eq
  intro i hi
  simp [BitVec.getLsbD_append, hi, show s + i < m by omega]

/-! ### Bytes of words and halfwords (spec/20_memory.md R85) -/

theorem wordOfBytes_toNat (b0 b1 b2 b3 : Byte) :
    (wordOfBytes b0 b1 b2 b3).toNat = b0.toNat * 2 ^ 24 + b1.toNat * 2 ^ 16 + b2.toNat * 2 ^ 8 + b3.toNat := by
  unfold wordOfBytes
  rw [toNat_append_mul, toNat_append_mul, toNat_append_mul]
  omega

theorem halfOfBytes_toNat (b0 b1 : Byte) : (halfOfBytes b0 b1).toNat = b0.toNat * 2 ^ 8 + b1.toNat := by
  unfold halfOfBytes
  rw [toNat_append_mul]

theorem byteOfWord_toNat (v : Word) (k : Nat) : (byteOfWord v k).toNat = v.toNat / 2 ^ (24 - 8 * k) % 2 ^ 8 :=
  toNat_extract v _ _

theorem byteOfHalf_toNat (v : Half) (k : Nat) : (byteOfHalf v k).toNat = v.toNat / 2 ^ (8 - 8 * k) % 2 ^ 8 :=
  toNat_extract v _ _

theorem regByte_toNat (v : Word) (k : Nat) : (regByte v k).toNat = v.toNat / 2 ^ (8 * k) % 2 ^ 8 :=
  toNat_extract v _ _

/-- A word put together from its own bytes is the word. -/
@[simp] theorem wordOfBytes_byteOfWord (v : Word) :
    wordOfBytes (byteOfWord v 0) (byteOfWord v 1) (byteOfWord v 2) (byteOfWord v 3) = v := by
  apply BitVec.eq_of_toNat_eq
  have := v.isLt
  rw [wordOfBytes_toNat, byteOfWord_toNat, byteOfWord_toNat, byteOfWord_toNat, byteOfWord_toNat]
  omega

/-- A halfword put together from its own bytes is the halfword. -/
@[simp] theorem halfOfBytes_byteOfHalf (v : Half) : halfOfBytes (byteOfHalf v 0) (byteOfHalf v 1) = v := by
  apply BitVec.eq_of_toNat_eq
  have := v.isLt
  rw [halfOfBytes_toNat, byteOfHalf_toNat, byteOfHalf_toNat]
  omega

/-- The bytes of a word from its lowest address up are its most significant byte first. -/
theorem byteOfWord_eq_regByte (v : Word) {k : Nat} (h : k < 4) : byteOfWord v k = regByte v (3 - k) := by
  unfold byteOfWord regByte
  congr 1
  omega

end Sys2Proof
end

