-- ==== Sys2Proof/Laws/Memory.lean ====
section
/-! SUPPORT. Physical memory: read after write, and the canonical form every operation keeps. -/

namespace Sys2Proof.Machine

/-! ### Read after write -/

theorem Memory.read_insert (m : Memory) (a : Nat) (b : Byte) (k : Nat) :
    (Memory.insert m a b).read k = if k = a then b else m.read k := by
  induction m with
  | nil => simp [Memory.insert, Memory.read, eq_comm]
  | cons c rest ih =>
    obtain ⟨c1, c2⟩ := c
    simp only [Memory.insert]
    split
    · simp [Memory.read, eq_comm]
    · split
      · rename_i h; subst h
        by_cases hk : a = k
        · simp [Memory.read, hk]
        · simp [Memory.read, hk, Ne.symm hk]
      · simp only [Memory.read, ih]
        split
        · rename_i h1 h2 h3
          have : k ≠ a := by omega
          simp [this]
        · rfl

theorem Memory.read_filter (m : Memory) (a k : Nat) :
    Memory.read (m.filter fun c => c.1 != a) k = if k = a then unlistedByte else m.read k := by
  induction m with
  | nil => simp [Memory.read]
  | cons c rest ih =>
    obtain ⟨c1, c2⟩ := c
    by_cases h : c1 = a
    · subst h; simp only [List.filter_cons, bne_self_eq_false, Bool.false_eq_true, if_false, ih, Memory.read]
      split
      · rfl
      · rename_i h; rw [if_neg (Ne.symm h)]
    · simp only [List.filter_cons, bne_iff_ne, ne_eq, h, not_false_eq_true, if_true, Memory.read, ih]
      split
      · rename_i h'; subst h'; simp [h]
      · rfl

/-- The read after a write: the byte written at its own address, the old byte everywhere else. -/
theorem Memory.read_write (m : Memory) (a : Nat) (b : Byte) (k : Nat) :
    (m.write a b).read k = if k = a then b else m.read k := by
  unfold Memory.write
  split
  · rename_i h; rw [Memory.read_filter, h]
  · exact Memory.read_insert m a b k

@[simp] theorem Memory.read_write_same (m : Memory) (a : Nat) (b : Byte) : (m.write a b).read a = b := by
  simp [Memory.read_write]

theorem Memory.read_write_other (m : Memory) {a k : Nat} (b : Byte) (h : k ≠ a) : (m.write a b).read k = m.read k := by
  simp [Memory.read_write, h]

@[simp] theorem Memory.read_nil (a : Nat) : Memory.read [] a = unlistedByte := rfl

/-! ### The canonical form -/

theorem Memory.wfFrom_mono {lo lo' : Nat} {m : Memory} (h : Memory.wfFrom lo m = true) (hl : lo' ≤ lo) :
    Memory.wfFrom lo' m = true := by
  cases m with
  | nil => rfl
  | cons c rest =>
    obtain ⟨k, x⟩ := c
    simp only [Memory.wfFrom, Bool.and_eq_true, decide_eq_true_eq] at h ⊢
    exact ⟨⟨⟨le_trans hl h.1.1.1, h.1.1.2⟩, h.1.2⟩, h.2⟩

theorem Memory.wfFrom_insert {lo : Nat} {m : Memory} {a : Nat} {b : Byte} (h : Memory.wfFrom lo m = true) (hlo : lo ≤ a)
    (ha : a < 2 ^ 32) (hb : b ≠ unlistedByte) : Memory.wfFrom lo (Memory.insert m a b) = true := by
  induction m generalizing lo with
  | nil => simp [Memory.insert, Memory.wfFrom, hlo, hb]; exact ha
  | cons c rest ih =>
    obtain ⟨k, x⟩ := c
    simp only [Memory.wfFrom, Bool.and_eq_true, decide_eq_true_eq, bne_iff_ne, ne_eq] at h
    obtain ⟨⟨⟨h1, h2⟩, h3⟩, h4⟩ := h
    simp only [Memory.insert]
    split
    · rename_i hk
      simp only [Memory.wfFrom, Bool.and_eq_true, decide_eq_true_eq, bne_iff_ne, ne_eq]
      exact ⟨⟨⟨hlo, ha⟩, hb⟩, ⟨⟨by omega, h2⟩, h3⟩, h4⟩
    · split
      · rename_i hk; subst hk
        simp only [Memory.wfFrom, Bool.and_eq_true, decide_eq_true_eq, bne_iff_ne, ne_eq]
        exact ⟨⟨⟨h1, h2⟩, hb⟩, h4⟩
      · simp only [Memory.wfFrom, Bool.and_eq_true, decide_eq_true_eq, bne_iff_ne, ne_eq]
        exact ⟨⟨⟨h1, h2⟩, h3⟩, ih h4 (by omega)⟩

theorem Memory.wfFrom_filter {lo : Nat} {m : Memory} (a : Nat) (h : Memory.wfFrom lo m = true) :
    Memory.wfFrom lo (m.filter fun c => c.1 != a) = true := by
  induction m generalizing lo with
  | nil => rfl
  | cons c rest ih =>
    obtain ⟨k, x⟩ := c
    simp only [Memory.wfFrom, Bool.and_eq_true, decide_eq_true_eq, bne_iff_ne, ne_eq] at h
    obtain ⟨⟨⟨h1, h2⟩, h3⟩, h4⟩ := h
    rw [List.filter_cons]
    split
    · simp only [Memory.wfFrom, Bool.and_eq_true, decide_eq_true_eq, bne_iff_ne, ne_eq]
      exact ⟨⟨⟨h1, h2⟩, h3⟩, ih h4⟩
    · exact Memory.wfFrom_mono (ih h4) (by omega)

/-- A write of one byte keeps the canonical form. -/
theorem Memory.wf_write {m : Memory} {a : Nat} (b : Byte) (h : m.wf = true) (ha : a < 2 ^ 32) :
    (m.write a b).wf = true := by
  unfold Memory.write
  split
  · exact Memory.wfFrom_filter a h
  · exact Memory.wfFrom_insert h (Nat.zero_le a) ha ‹_›

/-- A write of bytes at rising addresses keeps the canonical form. -/
theorem Memory.wf_writeBytes {m : Memory} (pa : Word) (bs : List Byte) (h : m.wf = true) :
    (m.writeBytes pa bs).wf = true := by
  induction bs generalizing m pa with
  | nil => exact h
  | cons b bs ih => exact ih (pa + 1#32) (Memory.wf_write b h pa.isLt)

theorem Memory.wf_write8 {m : Memory} (pa : Word) (v : Byte) (h : m.wf = true) : (m.write8 pa v).wf = true :=
  Memory.wf_writeBytes pa _ h

theorem Memory.wf_write16 {m : Memory} (pa : Word) (v : Half) (h : m.wf = true) : (m.write16 pa v).wf = true :=
  Memory.wf_writeBytes pa _ h

theorem Memory.wf_write32 {m : Memory} (pa : Word) (v : Word) (h : m.wf = true) : (m.write32 pa v).wf = true :=
  Memory.wf_writeBytes pa _ h

theorem Memory.read_below {lo : Nat} {m : Memory} (h : Memory.wfFrom lo m = true) {a : Nat} (ha : a < lo) :
    m.read a = unlistedByte := by
  induction m generalizing lo with
  | nil => rfl
  | cons c rest ih =>
    obtain ⟨k, x⟩ := c
    simp only [Memory.wfFrom, Bool.and_eq_true, decide_eq_true_eq] at h
    have hk : k ≠ a := by omega
    simp only [Memory.read, if_neg hk]
    exact ih h.2 (by omega)

theorem Memory.eq_of_read_eq_from {lo lo' : Nat} {m m' : Memory} (h : Memory.wfFrom lo m = true)
    (h' : Memory.wfFrom lo' m' = true) (hr : ∀ a, m.read a = m'.read a) : m = m' := by
  induction m generalizing lo lo' m' with
  | nil =>
    cases m' with
    | nil => rfl
    | cons c rest =>
      obtain ⟨k, x⟩ := c
      simp only [Memory.wfFrom, Bool.and_eq_true, bne_iff_ne, ne_eq] at h'
      have := hr k
      simp only [Memory.read, if_true] at this
      exact absurd this.symm h'.1.2
  | cons c rest ih =>
    obtain ⟨k, x⟩ := c
    cases m' with
    | nil =>
      simp only [Memory.wfFrom, Bool.and_eq_true, bne_iff_ne, ne_eq] at h
      have := hr k
      simp only [Memory.read, if_true] at this
      exact absurd this h.1.2
    | cons c' rest' =>
      obtain ⟨k', x'⟩ := c'
      simp only [Memory.wfFrom, Bool.and_eq_true, decide_eq_true_eq, bne_iff_ne, ne_eq] at h h'
      have hkk : k = k' := by
        by_contra hne
        rcases Nat.lt_or_gt_of_ne hne with hlt | hlt
        · have := hr k
          simp only [Memory.read, if_true, if_neg (Ne.symm hne)] at this
          rw [Memory.read_below h'.2 (by omega)] at this
          exact h.1.2 this
        · have := hr k'
          simp only [Memory.read, if_true, if_neg hne] at this
          rw [Memory.read_below h.2 (by omega)] at this
          exact h'.1.2 this.symm
      subst hkk
      have hx : x = x' := by simpa [Memory.read] using hr k
      subst hx
      congr 1
      refine ih h.2 h'.2 fun a => ?_
      by_cases ha : k = a
      · subst ha; rw [Memory.read_below h.2 (by omega), Memory.read_below h'.2 (by omega)]
      · simpa [Memory.read, ha] using hr a

/-- Equal memories are equal data: two canonical lists that read alike are the same list. -/
theorem Memory.eq_of_read_eq {m m' : Memory} (h : m.wf = true) (h' : m'.wf = true) (hr : ∀ a, m.read a = m'.read a) :
    m = m' := Memory.eq_of_read_eq_from h h' hr

/-! ### Stores of several bytes -/

/-- Outside the stored bytes a store changes nothing. -/
theorem Memory.read_writeBytes_other (m : Memory) (pa : Word) (bs : List Byte) (a : Nat)
    (h : ∀ k, k < bs.length → a ≠ byteAddr pa k) : (m.writeBytes pa bs).read a = m.read a := by
  induction bs generalizing m pa with
  | nil => rfl
  | cons b bs ih =>
    rw [Memory.writeBytes, ih]
    · refine Memory.read_write_other m b ?_
      have := h 0 (by simp)
      simpa [byteAddr] using this
    · intro k hk
      have := h (k + 1) (by simpa using hk)
      have e : pa + BitVec.ofNat 32 (k + 1) = pa + 1#32 + BitVec.ofNat 32 k := by
        apply BitVec.eq_of_toNat_eq; simp [BitVec.toNat_add]; omega
      simpa [byteAddr, e] using this

end Sys2Proof.Machine
end

