-- ==== Sys2Proof/Laws/Effects.lean ====
section
/-! SUPPORT. What each shared ending of an instruction does, said once: the frame it leaves, in the terms of Safety. -/

namespace Sys2Proof.Machine

/-! ### Instructions that go on -/

theorem sameCp0_refl (s : State) : SameCp0 s s := ⟨⟨rfl, rfl, rfl, rfl, rfl, rfl⟩, rfl, rfl, rfl⟩

theorem writesReg_setReg (s : State) (rd : Reg) (v : Word) : WritesReg s (setReg s rd v) rd v :=
  fun r => readReg_setReg s rd r v

/-- Writing one general register and going on changes nothing else. -/
theorem regOnly_advance_setReg (s : State) (rd : Reg) (v : Word) : RegOnly s (advance (setReg s rd v)) rd v := by
  refine ⟨fun r => by simp [readReg_setReg], ?_, ?_, ?_, ?_, ?_, ?_⟩ <;>
    simp [GoesOn, SameHiLo, SameCp0, SameMmu, SameStatus, SameReservation, SameMem, SameOutside]

/-- Writing one general register and going on, with draws counted. -/
theorem regOnly_advance_setReg_countRead (s : State) (c : Cp0Reg) (rd : Reg) (v : Word) :
    RegOnly s (advance (setReg (countRead s c) rd v)) rd v := by
  refine ⟨fun r => by simp [readReg_setReg], ?_, ?_, ?_, ?_, ?_, ?_⟩ <;>
    simp [GoesOn, SameHiLo, SameCp0, SameMmu, SameStatus, SameReservation, SameMem, SameOutside]

/-- `regResult` completes, with that frame. -/
theorem regResult_spec (s : State) (rd : Reg) (v : Word) : ∃ t, regResult s rd v = .next t ∧ RegOnly s t rd v :=
  ⟨_, rfl, regOnly_advance_setReg s rd v⟩

/-- Writing HI and LO and going on changes nothing else. -/
theorem hiLoOnly_advance_setHiLo (s : State) (hi lo : Word) : HiLoOnly s (advance (setHiLo s hi lo)) hi lo := by
  refine ⟨rfl, rfl, fun r => by simp, ?_, ?_, ?_, ?_, ?_⟩ <;>
    simp [GoesOn, SameCp0, SameMmu, SameStatus, SameReservation, SameMem, SameOutside]

theorem hiLoOnly_advance_countDraw (s : State) (hi lo : Word) :
    HiLoOnly s (advance (countDraw (setHiLo s hi lo))) hi lo := by
  refine ⟨rfl, rfl, fun r => by simp, ?_, ?_, ?_, ?_, ?_⟩ <;>
    simp [GoesOn, SameCp0, SameMmu, SameStatus, SameReservation, SameMem, SameOutside]

/-- Going on changes nothing else. -/
theorem nothingElse_advance (s : State) : NothingElse s (advance s) := by
  refine ⟨?_, fun r => by simp, ?_, ?_, ?_, ?_, ?_⟩ <;>
    simp [GoesOn, SameHiLo, SameCp0, SameMmu, SameStatus, SameReservation, SameMem, SameOutside]

/-! ### Branches -/

/-- A branch outside a delay slot, with no link. -/
theorem branchResult_spec (s : State) (taken : Bool) (target : Word) (h : s.inDelay = false) :
    ∃ t, branchResult s s taken target = .next t ∧ Branches s t (if taken then target else s.npc + 4#32) ∧
      SameRegs s t ∧ BranchKeeps s t := by
  refine ⟨branch s taken target, by simp [branchResult, h], ⟨rfl, rfl, rfl⟩, fun r => by simp, ?_⟩
  simp [BranchKeeps, SameHiLo, SameCp0, SameMmu, SameStatus, SameReservation, SameMem, SameOutside]

/-- A branch outside a delay slot that writes a link register. -/
theorem branchResult_link_spec (s : State) (rd : Reg) (v : Word) (taken : Bool) (target : Word)
    (h : s.inDelay = false) :
    ∃ t, branchResult s (setReg s rd v) taken target = .next t ∧
      Branches s t (if taken then target else s.npc + 4#32) ∧ WritesReg s t rd v ∧ BranchKeeps s t := by
  refine ⟨branch (setReg s rd v) taken target, by simp [branchResult, h], ⟨by simp, by simp, rfl⟩,
    fun r => by simp [readReg_setReg], ?_⟩
  simp [BranchKeeps, SameHiLo, SameCp0, SameMmu, SameStatus, SameReservation, SameMem, SameOutside]

/-! ### Loads and stores -/

theorem loadResult_ok {s : State} {ea pa : Word} {n : Nat} {c : Bool} (h : memAddress s ea .load n c = .ok pa)
    (rt : Reg) (value : Memory → Word → Word) : loadResult s rt ea n c value = regResult s rt (value s.mem pa) := by
  simp [loadResult, h]

/-- A load from a device completes with the value read from the device's bytes. -/
theorem loadResult_device {s : State} {ea pa : Word} {n : Nat} {c : Bool} (h : memAddress s ea .load n c = .device pa)
    (rt : Reg) (value : Memory → Word → Word) :
    ∃ t, loadResult s rt ea n c value = .next t ∧ RegOnly s t rt (value (deviceBytes s pa) pa) := by
  refine ⟨_, by rw [loadResult, h]; rfl, fun r => by simp [readReg_setReg], ?_, ?_, ?_, ?_, ?_, ?_⟩ <;>
    simp [GoesOn, SameHiLo, SameCp0, SameMmu, SameStatus, SameReservation, SameMem, SameOutside]

theorem storeResult_ok {s : State} {ea pa : Word} {n : Nat} {c : Bool} (h : memAddress s ea .store n c = .ok pa)
    (update : Word → Memory) : storeResult s ea n c update = .next (advance { s with mem := update pa }) := by
  simp [storeResult, h]

/-- A store to a device goes on with memory as it was. -/
theorem storeResult_device {s : State} {ea pa : Word} {n : Nat} {c : Bool} (h : memAddress s ea .store n c = .device pa)
    (update : Word → Memory) : storeResult s ea n c update = .next (advance s) := by
  simp [storeResult, h]

/-- Storing a list of bytes and going on changes nothing but the bytes. -/
theorem storeOnly_writeBytes (s : State) (pa : Word) (bs : List Byte) (n : Nat) (h : bs.length = n) :
    StoreOnly s (advance { s with mem := s.mem.writeBytes pa bs }) pa n := by
  refine ⟨fun a ha => ?_, ?_, fun r => ?_, ?_, ?_, ?_, ?_⟩
  · simpa using Memory.read_writeBytes_other s.mem pa bs a (by rw [h]; exact ha)
  all_goals
    simp [GoesOn, SameHiLo, SameCp0, SameMmu, SameStatus, SameReservation, SameOutside, readReg]

/-- A translated address keeps its place in the page. -/
theorem translate_ok_mod (s : State) (va : Word) (k : AccessKind) (n : Nat) (c : Bool) (pa : Word)
    (h : translate s va k n c = .ok pa) : pa.toNat % 4096 = va.toNat % 4096 := by
  have hd : (directAddress va).toNat % 4096 = va.toNat % 4096 := by
    unfold directAddress; rw [toNat_append_mul, toNat_extract]; simp
  have hm : ∀ pa, translateMapped s va k = .ok pa → pa.toNat % 4096 = va.toNat % 4096 := by
    intro pa h
    rcases translateMapped_cases s va k with ⟨-, h'⟩ | ⟨i, -, h'⟩ | ⟨-, h'⟩ <;> rw [h'] at h
    · simp at h
    · split at h
      · simp at h
      · split at h
        · simp at h
        · cases h; rw [toNat_append_mul, toNat_extract]; omega
    · simp at h
  unfold translate at h
  split at h
  · simp at h
  · split at h
    · simp at h
    · split at h
      · cases h; exact hd
      · cases h; exact hd
      · exact hm pa h
      · exact hm pa h

/-! ### The byte a store leaves at each address -/

/-- Four bytes stored in a row: each address below `pa + 4` holds its byte. -/
theorem Memory.read_writeBytes_at (m : Memory) (pa : Word) (bs : List Byte) (k : Nat) (hk : k < bs.length)
    (hn : bs.length ≤ 4) : (m.writeBytes pa bs).read (byteAddr pa k) = bs[k] := by
  induction bs generalizing m pa k with
  | nil => simp at hk
  | cons b bs ih =>
    cases k with
    | zero =>
      rw [Memory.writeBytes, Memory.read_writeBytes_other]
      · simp [byteAddr]
      · intro j hj he
        simp only [List.length_cons] at hn
        have : (pa + 1#32 + BitVec.ofNat 32 j) = pa + BitVec.ofNat 32 0 := BitVec.eq_of_toNat_eq (by simpa [byteAddr] using he.symm)
        have := congrArg BitVec.toNat this
        simp [BitVec.toNat_add] at this
        omega
    | succ k =>
      have e : byteAddr pa (k + 1) = byteAddr (pa + 1#32) k := by
        unfold byteAddr
        congr 1
        apply BitVec.eq_of_toNat_eq; simp [BitVec.toNat_add]; omega
      simp only [List.length_cons] at hk hn
      rw [Memory.writeBytes, e, ih _ _ _ (by omega) (by omega)]
      simp

end Sys2Proof.Machine
end

