-- ==== Sys2Proof/Laws/Encoding.lean ====
section
/-! SUPPORT. The fields of each encoded format (spec/30_encoding.md R141, R142), as arithmetic and field by field. -/

namespace Sys2Proof

/-! ### Each format as arithmetic -/

theorem encR_toNat (op : BitVec 6) (rs rt rd : Reg) (shamt : BitVec 5) (funct : BitVec 6) :
    (encR op rs rt rd shamt funct).toNat =
      op.toNat * 2 ^ 26 + rs.toNat * 2 ^ 21 + rt.toNat * 2 ^ 16 + rd.toNat * 2 ^ 11 + shamt.toNat * 2 ^ 6 + funct.toNat := by
  unfold encR
  rw [toNat_append_mul, toNat_append_mul, toNat_append_mul, toNat_append_mul, toNat_append_mul]
  omega

theorem encI_toNat (op : BitVec 6) (rs rt : Reg) (imm : Half) :
    (encI op rs rt imm).toNat = op.toNat * 2 ^ 26 + rs.toNat * 2 ^ 21 + rt.toNat * 2 ^ 16 + imm.toNat := by
  unfold encI
  rw [toNat_append_mul, toNat_append_mul, toNat_append_mul]
  omega

theorem encJ_toNat (op : BitVec 6) (target : BitVec 26) :
    (encJ op target).toNat = op.toNat * 2 ^ 26 + target.toNat := by
  unfold encJ
  rw [toNat_append_mul]

theorem encCode_toNat (code : BitVec 20) (funct : BitVec 6) :
    (encCode code funct).toNat = code.toNat * 2 ^ 6 + funct.toNat := by
  unfold encCode
  rw [toNat_append_mul, toNat_append_mul]
  simp

theorem encMove_toNat (op : BitVec 6) (sub rt rd : Reg) (sel : BitVec 3) :
    (encMove op sub rt rd sel).toNat =
      op.toNat * 2 ^ 26 + sub.toNat * 2 ^ 21 + rt.toNat * 2 ^ 16 + rd.toNat * 2 ^ 11 + sel.toNat := by
  unfold encMove
  rw [toNat_append_mul, toNat_append_mul, toNat_append_mul, toNat_append_mul, toNat_append_mul]
  simp
  omega

theorem encCop_toNat (op : BitVec 6) (cofun : BitVec 25) :
    (encCop op cofun).toNat = op.toNat * 2 ^ 26 + 2 ^ 25 + cofun.toNat := by
  unfold encCop
  rw [toNat_append_mul, toNat_append_mul]
  simp
  omega

theorem encCop0_toNat (funct : BitVec 6) : (encCop0 funct).toNat = 0x42000000 + funct.toNat := by
  unfold encCop0
  rw [toNat_append_mul, toNat_append_mul, toNat_append_mul]
  simp

/-! ### Each field as arithmetic -/

theorem opOf_toNat (w : Word) : (opOf w).toNat = w.toNat / 2 ^ 26 % 2 ^ 6 := toNat_extract w _ _
theorem rsOf_toNat (w : Word) : (rsOf w).toNat = w.toNat / 2 ^ 21 % 2 ^ 5 := toNat_extract w _ _
theorem rtOf_toNat (w : Word) : (rtOf w).toNat = w.toNat / 2 ^ 16 % 2 ^ 5 := toNat_extract w _ _
theorem rdOf_toNat (w : Word) : (rdOf w).toNat = w.toNat / 2 ^ 11 % 2 ^ 5 := toNat_extract w _ _
theorem shamtOf_toNat (w : Word) : (shamtOf w).toNat = w.toNat / 2 ^ 6 % 2 ^ 5 := toNat_extract w _ _
theorem functOf_toNat (w : Word) : (functOf w).toNat = w.toNat / 2 ^ 0 % 2 ^ 6 := toNat_extract w _ _
theorem immOf_toNat (w : Word) : (immOf w).toNat = w.toNat / 2 ^ 0 % 2 ^ 16 := toNat_extract w _ _
theorem targetOf_toNat (w : Word) : (targetOf w).toNat = w.toNat / 2 ^ 0 % 2 ^ 26 := toNat_extract w _ _
theorem selOf_toNat (w : Word) : (selOf w).toNat = w.toNat / 2 ^ 0 % 2 ^ 3 := toNat_extract w _ _
theorem codeOf_toNat (w : Word) : (codeOf w).toNat = w.toNat / 2 ^ 6 % 2 ^ 20 := toNat_extract w _ _
theorem copBitOf_toNat (w : Word) : (copBitOf w).toNat = w.toNat / 2 ^ 25 % 2 ^ 1 := toNat_extract w _ _
theorem cofunOf_toNat (w : Word) : (cofunOf w).toNat = w.toNat / 2 ^ 0 % 2 ^ 25 := toNat_extract w _ _
theorem moveZeroOf_toNat (w : Word) : (moveZeroOf w).toNat = w.toNat / 2 ^ 3 % 2 ^ 8 := toNat_extract w _ _
theorem opZeroOf_toNat (w : Word) : (opZeroOf w).toNat = w.toNat / 2 ^ 6 % 2 ^ 19 := toNat_extract w _ _

/-! ### The fields of each format -/

@[simp] theorem opOf_encR (op : BitVec 6) (rs rt rd : Reg) (shamt : BitVec 5) (funct : BitVec 6) : opOf (encR op rs rt rd shamt funct) = op := by
  have := op.isLt
  have := rs.isLt
  have := rt.isLt
  have := rd.isLt
  have := shamt.isLt
  have := funct.isLt
  apply BitVec.eq_of_toNat_eq
  rw [opOf_toNat, encR_toNat]
  omega

@[simp] theorem rsOf_encR (op : BitVec 6) (rs rt rd : Reg) (shamt : BitVec 5) (funct : BitVec 6) : rsOf (encR op rs rt rd shamt funct) = rs := by
  have := op.isLt
  have := rs.isLt
  have := rt.isLt
  have := rd.isLt
  have := shamt.isLt
  have := funct.isLt
  apply BitVec.eq_of_toNat_eq
  rw [rsOf_toNat, encR_toNat]
  omega

@[simp] theorem rtOf_encR (op : BitVec 6) (rs rt rd : Reg) (shamt : BitVec 5) (funct : BitVec 6) : rtOf (encR op rs rt rd shamt funct) = rt := by
  have := op.isLt
  have := rs.isLt
  have := rt.isLt
  have := rd.isLt
  have := shamt.isLt
  have := funct.isLt
  apply BitVec.eq_of_toNat_eq
  rw [rtOf_toNat, encR_toNat]
  omega

@[simp] theorem rdOf_encR (op : BitVec 6) (rs rt rd : Reg) (shamt : BitVec 5) (funct : BitVec 6) : rdOf (encR op rs rt rd shamt funct) = rd := by
  have := op.isLt
  have := rs.isLt
  have := rt.isLt
  have := rd.isLt
  have := shamt.isLt
  have := funct.isLt
  apply BitVec.eq_of_toNat_eq
  rw [rdOf_toNat, encR_toNat]
  omega

@[simp] theorem shamtOf_encR (op : BitVec 6) (rs rt rd : Reg) (shamt : BitVec 5) (funct : BitVec 6) : shamtOf (encR op rs rt rd shamt funct) = shamt := by
  have := op.isLt
  have := rs.isLt
  have := rt.isLt
  have := rd.isLt
  have := shamt.isLt
  have := funct.isLt
  apply BitVec.eq_of_toNat_eq
  rw [shamtOf_toNat, encR_toNat]
  omega

@[simp] theorem functOf_encR (op : BitVec 6) (rs rt rd : Reg) (shamt : BitVec 5) (funct : BitVec 6) : functOf (encR op rs rt rd shamt funct) = funct := by
  have := op.isLt
  have := rs.isLt
  have := rt.isLt
  have := rd.isLt
  have := shamt.isLt
  have := funct.isLt
  apply BitVec.eq_of_toNat_eq
  rw [functOf_toNat, encR_toNat]
  omega

@[simp] theorem opOf_encI (op : BitVec 6) (rs rt : Reg) (imm : Half) : opOf (encI op rs rt imm) = op := by
  have := op.isLt
  have := rs.isLt
  have := rt.isLt
  have := imm.isLt
  apply BitVec.eq_of_toNat_eq
  rw [opOf_toNat, encI_toNat]
  omega

@[simp] theorem rsOf_encI (op : BitVec 6) (rs rt : Reg) (imm : Half) : rsOf (encI op rs rt imm) = rs := by
  have := op.isLt
  have := rs.isLt
  have := rt.isLt
  have := imm.isLt
  apply BitVec.eq_of_toNat_eq
  rw [rsOf_toNat, encI_toNat]
  omega

@[simp] theorem rtOf_encI (op : BitVec 6) (rs rt : Reg) (imm : Half) : rtOf (encI op rs rt imm) = rt := by
  have := op.isLt
  have := rs.isLt
  have := rt.isLt
  have := imm.isLt
  apply BitVec.eq_of_toNat_eq
  rw [rtOf_toNat, encI_toNat]
  omega

@[simp] theorem immOf_encI (op : BitVec 6) (rs rt : Reg) (imm : Half) : immOf (encI op rs rt imm) = imm := by
  have := op.isLt
  have := rs.isLt
  have := rt.isLt
  have := imm.isLt
  apply BitVec.eq_of_toNat_eq
  rw [immOf_toNat, encI_toNat]
  omega

/-- Bit 25 of an I-type word is the top bit of its `rs` field. -/
theorem copBitOf_encI (op : BitVec 6) (rs rt : Reg) (imm : Half) (h : rs.toNat < 16) : copBitOf (encI op rs rt imm) = 0#1 := by
  have := op.isLt
  have := rs.isLt
  have := rt.isLt
  have := imm.isLt
  apply BitVec.eq_of_toNat_eq
  rw [copBitOf_toNat, encI_toNat]
  simp only [BitVec.toNat_ofNat]
  omega

@[simp] theorem opOf_encJ (op : BitVec 6) (target : BitVec 26) : opOf (encJ op target) = op := by
  have := op.isLt
  have := target.isLt
  apply BitVec.eq_of_toNat_eq
  rw [opOf_toNat, encJ_toNat]
  omega

@[simp] theorem targetOf_encJ (op : BitVec 6) (target : BitVec 26) : targetOf (encJ op target) = target := by
  have := op.isLt
  have := target.isLt
  apply BitVec.eq_of_toNat_eq
  rw [targetOf_toNat, encJ_toNat]
  omega

@[simp] theorem opOf_encCode (code : BitVec 20) (funct : BitVec 6) : opOf (encCode code funct) = 0#6 := by
  have := code.isLt
  have := funct.isLt
  apply BitVec.eq_of_toNat_eq
  rw [opOf_toNat, encCode_toNat]
  simp only [BitVec.toNat_ofNat]
  omega

@[simp] theorem codeOf_encCode (code : BitVec 20) (funct : BitVec 6) : codeOf (encCode code funct) = code := by
  have := code.isLt
  have := funct.isLt
  apply BitVec.eq_of_toNat_eq
  rw [codeOf_toNat, encCode_toNat]
  omega

@[simp] theorem functOf_encCode (code : BitVec 20) (funct : BitVec 6) : functOf (encCode code funct) = funct := by
  have := code.isLt
  have := funct.isLt
  apply BitVec.eq_of_toNat_eq
  rw [functOf_toNat, encCode_toNat]
  omega

@[simp] theorem opOf_encMove (op : BitVec 6) (sub rt rd : Reg) (sel : BitVec 3) : opOf (encMove op sub rt rd sel) = op := by
  have := op.isLt
  have := sub.isLt
  have := rt.isLt
  have := rd.isLt
  have := sel.isLt
  apply BitVec.eq_of_toNat_eq
  rw [opOf_toNat, encMove_toNat]
  omega

@[simp] theorem rsOf_encMove (op : BitVec 6) (sub rt rd : Reg) (sel : BitVec 3) : rsOf (encMove op sub rt rd sel) = sub := by
  have := op.isLt
  have := sub.isLt
  have := rt.isLt
  have := rd.isLt
  have := sel.isLt
  apply BitVec.eq_of_toNat_eq
  rw [rsOf_toNat, encMove_toNat]
  omega

@[simp] theorem rtOf_encMove (op : BitVec 6) (sub rt rd : Reg) (sel : BitVec 3) : rtOf (encMove op sub rt rd sel) = rt := by
  have := op.isLt
  have := sub.isLt
  have := rt.isLt
  have := rd.isLt
  have := sel.isLt
  apply BitVec.eq_of_toNat_eq
  rw [rtOf_toNat, encMove_toNat]
  omega

@[simp] theorem rdOf_encMove (op : BitVec 6) (sub rt rd : Reg) (sel : BitVec 3) : rdOf (encMove op sub rt rd sel) = rd := by
  have := op.isLt
  have := sub.isLt
  have := rt.isLt
  have := rd.isLt
  have := sel.isLt
  apply BitVec.eq_of_toNat_eq
  rw [rdOf_toNat, encMove_toNat]
  omega

@[simp] theorem selOf_encMove (op : BitVec 6) (sub rt rd : Reg) (sel : BitVec 3) : selOf (encMove op sub rt rd sel) = sel := by
  have := op.isLt
  have := sub.isLt
  have := rt.isLt
  have := rd.isLt
  have := sel.isLt
  apply BitVec.eq_of_toNat_eq
  rw [selOf_toNat, encMove_toNat]
  omega

@[simp] theorem moveZeroOf_encMove (op : BitVec 6) (sub rt rd : Reg) (sel : BitVec 3) : moveZeroOf (encMove op sub rt rd sel) = 0#8 := by
  have := op.isLt
  have := sub.isLt
  have := rt.isLt
  have := rd.isLt
  have := sel.isLt
  apply BitVec.eq_of_toNat_eq
  rw [moveZeroOf_toNat, encMove_toNat]
  simp only [BitVec.toNat_ofNat]
  omega

/-- Bit 25 of a coprocessor move is the top bit of its sub-opcode. -/
theorem copBitOf_encMove (op : BitVec 6) (sub rt rd : Reg) (sel : BitVec 3) (h : sub.toNat < 16) : copBitOf (encMove op sub rt rd sel) = 0#1 := by
  have := op.isLt
  have := sub.isLt
  have := rt.isLt
  have := rd.isLt
  have := sel.isLt
  apply BitVec.eq_of_toNat_eq
  rw [copBitOf_toNat, encMove_toNat]
  simp only [BitVec.toNat_ofNat]
  omega

@[simp] theorem opOf_encCop (op : BitVec 6) (cofun : BitVec 25) : opOf (encCop op cofun) = op := by
  have := op.isLt
  have := cofun.isLt
  apply BitVec.eq_of_toNat_eq
  rw [opOf_toNat, encCop_toNat]
  omega

@[simp] theorem copBitOf_encCop (op : BitVec 6) (cofun : BitVec 25) : copBitOf (encCop op cofun) = 1#1 := by
  have := op.isLt
  have := cofun.isLt
  apply BitVec.eq_of_toNat_eq
  rw [copBitOf_toNat, encCop_toNat]
  simp only [BitVec.toNat_ofNat]
  omega

@[simp] theorem cofunOf_encCop (op : BitVec 6) (cofun : BitVec 25) : cofunOf (encCop op cofun) = cofun := by
  have := op.isLt
  have := cofun.isLt
  apply BitVec.eq_of_toNat_eq
  rw [cofunOf_toNat, encCop_toNat]
  omega

@[simp] theorem opOf_encCop0 (funct : BitVec 6) : opOf (encCop0 funct) = 0x10#6 := by
  have := funct.isLt
  apply BitVec.eq_of_toNat_eq
  rw [opOf_toNat, encCop0_toNat]
  simp only [BitVec.toNat_ofNat]
  omega

@[simp] theorem copBitOf_encCop0 (funct : BitVec 6) : copBitOf (encCop0 funct) = 1#1 := by
  have := funct.isLt
  apply BitVec.eq_of_toNat_eq
  rw [copBitOf_toNat, encCop0_toNat]
  simp only [BitVec.toNat_ofNat]
  omega

@[simp] theorem opZeroOf_encCop0 (funct : BitVec 6) : opZeroOf (encCop0 funct) = 0#19 := by
  have := funct.isLt
  apply BitVec.eq_of_toNat_eq
  rw [opZeroOf_toNat, encCop0_toNat]
  simp only [BitVec.toNat_ofNat]
  omega

@[simp] theorem functOf_encCop0 (funct : BitVec 6) : functOf (encCop0 funct) = funct := by
  have := funct.isLt
  apply BitVec.eq_of_toNat_eq
  rw [functOf_toNat, encCop0_toNat]
  omega

/-! ### A word put together from its own fields -/

theorem encR_fields (w : Word) : encR (opOf w) (rsOf w) (rtOf w) (rdOf w) (shamtOf w) (functOf w) = w := by
  have := w.isLt
  apply BitVec.eq_of_toNat_eq
  rw [encR_toNat, opOf_toNat, rsOf_toNat, rtOf_toNat, rdOf_toNat, shamtOf_toNat, functOf_toNat]
  omega

theorem encI_fields (w : Word) : encI (opOf w) (rsOf w) (rtOf w) (immOf w) = w := by
  have := w.isLt
  apply BitVec.eq_of_toNat_eq
  rw [encI_toNat, opOf_toNat, rsOf_toNat, rtOf_toNat, immOf_toNat]
  omega

theorem encJ_fields (w : Word) : encJ (opOf w) (targetOf w) = w := by
  have := w.isLt
  apply BitVec.eq_of_toNat_eq
  rw [encJ_toNat, opOf_toNat, targetOf_toNat]
  omega

theorem encCode_fields (w : Word) (h : opOf w = 0#6) : encCode (codeOf w) (functOf w) = w := by
  have := w.isLt
  have h := congrArg BitVec.toNat h
  rw [opOf_toNat] at h
  simp only [BitVec.toNat_ofNat] at h
  apply BitVec.eq_of_toNat_eq
  rw [encCode_toNat, codeOf_toNat, functOf_toNat]
  omega

theorem encMove_fields (w : Word) (h : moveZeroOf w = 0#8) :
    encMove (opOf w) (rsOf w) (rtOf w) (rdOf w) (selOf w) = w := by
  have := w.isLt
  have h := congrArg BitVec.toNat h
  rw [moveZeroOf_toNat] at h
  simp only [BitVec.toNat_ofNat] at h
  apply BitVec.eq_of_toNat_eq
  rw [encMove_toNat, opOf_toNat, rsOf_toNat, rtOf_toNat, rdOf_toNat, selOf_toNat]
  omega

theorem encCop_fields (w : Word) (h : copBitOf w = 1#1) : encCop (opOf w) (cofunOf w) = w := by
  have := w.isLt
  have h := congrArg BitVec.toNat h
  rw [copBitOf_toNat] at h
  simp only [BitVec.toNat_ofNat] at h
  apply BitVec.eq_of_toNat_eq
  rw [encCop_toNat, opOf_toNat, cofunOf_toNat]
  omega

theorem encCop0_fields (w : Word) (ho : opOf w = 0x10#6) (h : copBitOf w = 1#1) (hz : opZeroOf w = 0#19) :
    encCop0 (functOf w) = w := by
  have := w.isLt
  have ho := congrArg BitVec.toNat ho
  have h := congrArg BitVec.toNat h
  have hz := congrArg BitVec.toNat hz
  rw [opOf_toNat] at ho
  rw [copBitOf_toNat] at h
  rw [opZeroOf_toNat] at hz
  simp only [BitVec.toNat_ofNat] at ho h hz
  apply BitVec.eq_of_toNat_eq
  rw [encCop0_toNat, functOf_toNat]
  omega

/-! ### What the two checks of must-be-zero bits answer -/

@[simp] theorem strict_ne_reserved (b : Bool) (i : Instr) : strict b i ≠ .reserved := by cases b <;> simp [strict]

@[simp] theorem strict_ne_wrongLength (b : Bool) (i : Instr) : strict b i ≠ .wrongLength := by cases b <;> simp [strict]

@[simp] theorem strict_ne_syncNotZero (b : Bool) (i : Instr) : strict b i ≠ .syncNotZero := by cases b <;> simp [strict]

@[simp] theorem strict_ne_copUndefined (b : Bool) (i : Instr) (y : BitVec 2) : strict b i ≠ .copUndefined y := by cases b <;> simp [strict]

@[simp] theorem strict_eq_mustBeZero (b : Bool) (i : Instr) : strict b i = .mustBeZero ↔ b = false := by cases b <;> simp [strict]

@[simp] theorem strictCop_ne_reserved (z : BitVec 2) (b : Bool) (i : Instr) : strictCop z b i ≠ .reserved := by cases b <;> simp [strictCop]

@[simp] theorem strictCop_ne_wrongLength (z : BitVec 2) (b : Bool) (i : Instr) : strictCop z b i ≠ .wrongLength := by cases b <;> simp [strictCop]

@[simp] theorem strictCop_ne_syncNotZero (z : BitVec 2) (b : Bool) (i : Instr) : strictCop z b i ≠ .syncNotZero := by cases b <;> simp [strictCop]

@[simp] theorem strictCop_ne_mustBeZero (z : BitVec 2) (b : Bool) (i : Instr) : strictCop z b i ≠ .mustBeZero := by cases b <;> simp [strictCop]

@[simp] theorem strictCop_eq_copUndefined (z : BitVec 2) (b : Bool) (i : Instr) (y : BitVec 2) :
    strictCop z b i = .copUndefined y ↔ b = false ∧ z = y := by cases b <;> simp [strictCop]

end Sys2Proof
end

