-- ==== Sys2Proof/Laws/StepCases.lean ====
section
/-! SUPPORT. What a step can do, said once: every next state of every instruction is a trap entry, a shutdown, or a state in
which the instruction has retired; and what the boundary's events keep. -/

namespace Sys2Proof.Machine

/-- `t` is a state in which an instruction executed at `s` has retired. -/
structure Retires (s t : State) : Prop where
  flow : t.inDelay = false → t.npc = t.pc + 4#32
  inputs : t.inputs = s.inputs
  irq : t.irq = s.irq
  cfg : t.cfg = s.cfg
  shutdown : t.shutdown = s.shutdown
  idle : t.idle = s.idle ∨ cp0Usable s = true
  cp0 : SameCp0 s t ∨ cp0Usable s = true
  tlb : t.tlb = s.tlb ∨ ∃ i, tlbClash s.tlb i (entryToWrite s) = false ∧ t.tlb = tlbSet s.tlb i (entryToWrite s)
  mem : t.mem = s.mem ∨ ∃ va pa n c q bs, memAddress s va .store n c = .ok pa ∧ t.mem = s.mem.writeBytes q bs ∧
    ∀ k, k < bs.length → byteAddr q k / 4096 = pa.toNat / 4096

/-- The outcomes of an instruction that answers a next state. -/
def Outcomes (s t : State) : Prop :=
  (∃ e, t = trapEntry e s) ∨ (t = shutDown s ∨ (t = shutDown (countDraw s) ∧ cp0Usable s = true)) ∨ Retires s t

theorem Outcomes.trap {s : State} (e : Exception) : Outcomes s (trapEntry e s) := .inl ⟨e, rfl⟩

theorem outcomes_raise {e : Exception} {s t : State} (h : raise e s = .next t) : Outcomes s t := by
  cases h; exact .trap e

theorem outcomes_regResult {s t : State} {rd : Reg} {v : Word} (h : regResult s rd v = .next t) : Outcomes s t := by
  cases h
  refine .inr (.inr ⟨by simp, ?_, ?_, ?_, ?_, .inl ?_, .inl ?_, .inl ?_, .inl ?_⟩) <;>
    simp [SameCp0, SameMmu, SameStatus]

theorem outcomes_regResult_countDraw {s t : State} {rd : Reg} {v : Word} (h : regResult (countDraw s) rd v = .next t) :
    Outcomes s t := by
  cases h
  refine .inr (.inr ⟨by simp, ?_, ?_, ?_, ?_, .inl ?_, .inl ?_, .inl ?_, .inl ?_⟩) <;>
    simp [SameCp0, SameMmu, SameStatus]

theorem outcomes_trapOnOverflow {s t : State} {o : Bool} {rd : Reg} {v : Word}
    (h : trapOnOverflow s o rd v = .next t) : Outcomes s t := by
  unfold trapOnOverflow at h
  split at h
  · exact outcomes_raise h
  · exact outcomes_regResult h

/-- An instruction that goes on with HI and LO written, or draws counted, or neither. -/
theorem outcomes_advance {s u : State} (hi : u.inputs = s.inputs) (hq : u.irq = s.irq) (hc : u.cfg = s.cfg)
    (hs : u.shutdown = s.shutdown) (hd : u.idle = s.idle) (h0 : SameCp0 s u) (hm : u.mem = s.mem) :
    Outcomes s (advance u) := by
  refine .inr (.inr ⟨by simp, by simpa, by simpa, by simpa, by simpa, .inl (by simpa), .inl ?_, .inl ?_, .inl (by simpa)⟩)
  · simpa [SameCp0, SameMmu, SameStatus] using h0
  · simpa using h0.1.2.2.2.2.2

theorem outcomes_divideByZero {s t : State} (h : divideByZero s = .next t) : Outcomes s t := by
  unfold divideByZero at h
  split at h
  · cases h; exact outcomes_advance rfl rfl rfl rfl rfl (sameCp0_refl s) rfl
  · exact outcomes_raise h

theorem outcomes_branchResult {s u t : State} {taken : Bool} {target : Word} (hu : u = s ∨ ∃ rd v, u = setReg s rd v)
    (h : branchResult s u taken target = .next t) : Outcomes s t := by
  unfold branchResult at h
  split at h
  · cases h
  · cases h
    refine .inr (.inr ⟨by simp, ?_, ?_, ?_, ?_, .inl ?_, .inl ?_, .inl ?_, .inl ?_⟩) <;>
      rcases hu with rfl | ⟨rd, v, rfl⟩ <;> simp [SameCp0, SameMmu, SameStatus]

theorem outcomes_branchIf {s t : State} {taken : Bool} {imm : Half} (h : branchIf s taken imm = .next t) :
    Outcomes s t := outcomes_branchResult (.inl rfl) h

theorem outcomes_branchLinkIf {s t : State} {rs : Reg} {taken : Bool} {imm : Half}
    (h : branchLinkIf s rs taken imm = .next t) : Outcomes s t := by
  unfold branchLinkIf at h
  split at h
  · cases h
  · exact outcomes_branchResult (.inr ⟨_, _, rfl⟩) h

theorem outcomes_andThen {a : Access} {s t : State} {go dev : Word → Result}
    (hgo : ∀ pa, a = .ok pa → go pa = .next t → Outcomes s t)
    (hdev : ∀ pa, a = .device pa → dev pa = .next t → Outcomes s t) (h : a.andThen s go dev = .next t) :
    Outcomes s t := by
  rcases andThen_next h with ⟨pa, ha, h⟩ | ⟨pa, ha, h⟩ | ⟨e, -, rfl⟩ | ⟨-, rfl⟩
  · exact hgo pa ha h
  · exact hdev pa ha h
  · exact .trap e
  · exact .inr (.inl (.inl rfl))

theorem outcomes_loadResult {s t : State} {rt : Reg} {ea : Word} {n : Nat} {c : Bool}
    {value : Memory → Word → Word} (h : loadResult s rt ea n c value = .next t) : Outcomes s t :=
  outcomes_andThen (fun _ _ h => outcomes_regResult h) (fun _ _ h => outcomes_regResult_countDraw h) h

theorem outcomes_storeResult {s t : State} {ea : Word} {n : Nat} {c : Bool} {q : Word → Word} {bs : Word → List Byte}
    (hq : ∀ pa, memAddress s ea .store n c = .ok pa →
      ∀ k, k < (bs pa).length → byteAddr (q pa) k / 4096 = pa.toNat / 4096)
    (h : storeResult s ea n c (fun pa => s.mem.writeBytes (q pa) (bs pa)) = .next t) : Outcomes s t := by
  refine outcomes_andThen (fun pa ha h => ?_)
    (fun _ _ h => by cases h; exact outcomes_advance rfl rfl rfl rfl rfl (sameCp0_refl s) rfl) h
  cases h
  refine .inr (.inr ⟨by simp, rfl, rfl, rfl, rfl, .inl rfl, .inl (sameCp0_refl s), .inl rfl, .inr ?_⟩)
  exact ⟨ea, pa, n, c, q pa, bs pa, ha, rfl, hq pa ha⟩

/-! ### The bytes of each store lie in one page -/

theorem alignedWord_toNat (pa : Word) : (alignedWord pa).toNat = pa.toNat / 4 * 4 := by
  have h : alignedWord pa = (pa >>> 2) <<< 2 := by
    apply BitVec.eq_of_getLsbD_eq
    intro i hi
    have hm : (0xfffffffc#32).getLsbD i = decide (2 ≤ i) := by
      rcases Nat.lt_or_ge i 32 with h32 | h32
      · revert i; decide
      · omega
    by_cases h2 : 2 ≤ i
    · simp [alignedWord, hm, h2, hi, show ¬ i < 2 by omega, show 2 + (i - 2) = i by omega]
    · simp [alignedWord, hm, h2, show i < 2 by omega]
  rw [h, BitVec.toNat_shiftLeft, BitVec.toNat_ushiftRight, Nat.shiftRight_eq_div_pow, Nat.shiftLeft_eq]
  have := pa.isLt
  omega

theorem byteAddr_page {pa : Word} {n k : Nat} (hn : n ∣ 4096) (ha : pa.toNat % n = 0) (hk : k < n) :
    byteAddr pa k / 4096 = pa.toNat / 4096 := by
  obtain ⟨m, hm⟩ := hn
  have hn0 : 0 < n := by omega
  have hpa := pa.isLt
  have h1 : pa.toNat = n * (pa.toNat / n) := by have := Nat.div_add_mod pa.toNat n; omega
  generalize pa.toNat / n = d at h1
  have hm0 : 0 < m := by rcases Nat.eq_zero_or_pos m with h | h; · subst h; omega
                         · exact h
  have e1 : (n * d + k) / 4096 = d / m := by
    rw [hm, ← Nat.div_div_eq_div_mul, Nat.mul_add_div hn0, Nat.div_eq_of_lt hk, Nat.add_zero]
  have e2 : n * d / 4096 = d / m := by
    rw [hm, ← Nat.div_div_eq_div_mul, Nat.mul_div_cancel_left _ hn0]
  have hlt : n * d + k < 2 ^ 32 := by
    have h4 : (2 : Nat) ^ 32 = n * (m * 2 ^ 20) := by rw [← Nat.mul_assoc, ← hm]; norm_num
    have : d < m * 2 ^ 20 := by
      by_contra hc
      have := Nat.mul_le_mul_left n (Nat.le_of_not_lt hc)
      omega
    have : n * (d + 1) ≤ n * (m * 2 ^ 20) := Nat.mul_le_mul_left n this
    rw [Nat.mul_add] at this
    omega
  have : byteAddr pa k = n * d + k := by
    unfold byteAddr
    rw [BitVec.toNat_add, BitVec.toNat_ofNat, h1, Nat.mod_eq_of_lt (show k < 2 ^ 32 by omega), Nat.mod_eq_of_lt hlt]
  rw [this, h1, e1, e2]

theorem translate_aligned {s : State} {va : Word} {k : AccessKind} {n : Nat} {pa : Word}
    (h : translate s va k n true = .ok pa) : va.toNat % n = 0 := by
  unfold translate at h
  split at h
  · simp at h
  · rename_i hn; simpa using hn

/-- An aligned access that reaches memory reaches an aligned physical address. -/
theorem memAddress_aligned {s : State} {va : Word} {k : AccessKind} {n : Nat} {pa : Word} (hn : n ∣ 4096)
    (h : memAddress s va k n true = .ok pa) : pa.toNat % n = 0 := by
  have ht := ((memAddress_ok_iff ..).1 h).1
  have h1 := translate_ok_mod s va k n true pa ht
  have h2 := translate_aligned ht
  rw [← Nat.mod_mod_of_dvd pa.toNat hn, h1, Nat.mod_mod_of_dvd va.toNat hn, h2]

/-- The place in its word that an access has is that of its physical address. -/
theorem memAddress_byteInWord {s : State} {va : Word} {k : AccessKind} {n : Nat} {c : Bool} {pa : Word}
    (h : memAddress s va k n c = .ok pa) : byteInWord va = pa.toNat % 4 := by
  have h1 := translate_ok_mod s va k n c pa ((memAddress_ok_iff ..).1 h).1
  unfold byteInWord
  omega

theorem swlBytes_length (v : Word) (b : Nat) : (swlBytes v b).length = min (4 - b) 4 := by simp [swlBytes]

theorem swrBytes_length (v : Word) (b : Nat) : (swrBytes v b).length = 4 - (3 - b) := by simp [swrBytes]

theorem byteAddr_of_lt {pa : Word} {k : Nat} (h : pa.toNat + k < 2 ^ 32) : byteAddr pa k = pa.toNat + k := by
  unfold byteAddr
  rw [BitVec.toNat_add, BitVec.toNat_ofNat]
  omega

theorem swl_page {pa : Word} {v : Word} {k : Nat} (hk : k < (swlBytes v (pa.toNat % 4)).length) :
    byteAddr pa k / 4096 = pa.toNat / 4096 := by
  rw [swlBytes_length] at hk
  have := pa.isLt
  rw [byteAddr_of_lt (by omega)]
  omega

theorem swr_page {pa : Word} {v : Word} {k : Nat} (hk : k < (swrBytes v (pa.toNat % 4)).length) :
    byteAddr (alignedWord pa) k / 4096 = pa.toNat / 4096 := by
  rw [swrBytes_length] at hk
  have := pa.isLt
  have ha := alignedWord_toNat pa
  rw [byteAddr_of_lt (by omega), ha]
  omega

/-! ### Coprocessor 0 -/

theorem outcomes_cp0Guard {s t : State} {go : Result} (hgo : cp0Usable s = true → go = .next t → Outcomes s t)
    (h : cp0Guard s go = .next t) : Outcomes s t := by
  unfold cp0Guard at h
  split at h
  · exact hgo ‹_› h
  · exact outcomes_raise h

/-- An instruction of a usable coprocessor 0 that goes on and writes no memory. -/
theorem outcomes_kernel {s u : State} (hu : cp0Usable s = true) (hi : u.inputs = s.inputs) (hq : u.irq = s.irq)
    (hc : u.cfg = s.cfg) (hs : u.shutdown = s.shutdown) (hm : u.mem = s.mem)
    (ht : u.tlb = s.tlb ∨ ∃ i, tlbClash s.tlb i (entryToWrite s) = false ∧ u.tlb = tlbSet s.tlb i (entryToWrite s)) :
    Outcomes s (advance u) :=
  .inr (.inr ⟨by simp, by simpa, by simpa, by simpa, by simpa, .inr hu, .inr hu, by simpa using ht, .inl (by simpa)⟩)

theorem outcomes_tlbWrite {s u : State} (hu : cp0Usable s = true) (h : u = s ∨ u = countDraw s) (i : Slot) :
    Outcomes s (tlbWrite u i) := by
  unfold tlbWrite
  split
  · rcases h with rfl | rfl
    · exact .inr (.inl (.inl rfl))
    · exact .inr (.inl (.inr ⟨rfl, hu⟩))
  · rename_i hc
    refine outcomes_kernel hu ?_ ?_ ?_ ?_ ?_ (.inr ⟨i, ?_, ?_⟩) <;> rcases h with rfl | rfl <;>
      first | rfl | simpa [entryToWrite] using hc

theorem outcomes_probeWith {s : State} (hu : cp0Usable s = true) (hits : List Slot) : Outcomes s (probeWith s hits) := by
  unfold probeWith
  split
  · exact outcomes_kernel hu rfl rfl rfl rfl rfl (.inl rfl)
  · exact outcomes_kernel hu rfl rfl rfl rfl rfl (.inl rfl)
  · exact .inr (.inl (.inl rfl))

theorem outcomes_cp0Write {s t : State} {r : Cp0Reg} {v : Word} (hu : cp0Usable s = true)
    (h : cp0Write s r v = .next t) : Outcomes s t := by
  cases r
  case random => cases h
  case status =>
    change writeStatus s v = .next t at h
    unfold writeStatus at h
    split at h
    · cases h; exact .inr (.inl (.inl rfl))
    · split at h
      · cases h
      · cases h; exact outcomes_kernel hu rfl rfl rfl rfl rfl (.inl rfl)
  all_goals
    cases h; exact outcomes_kernel hu rfl rfl rfl rfl rfl (.inl rfl)

theorem outcomes_copResult {s t : State} {z : BitVec 2} (h : copResult z s = .next t) : Outcomes s t := by
  unfold copResult at h
  split at h
  · cases h
  · exact outcomes_raise h

/-! ### Load linked and store conditional -/

theorem outcomes_llscGuard {s t : State} {go : Result} (hgo : go = .next t → Outcomes s t)
    (h : llscGuard s go = .next t) : Outcomes s t := by
  unfold llscGuard at h
  split at h
  · exact hgo h
  · exact outcomes_raise h

theorem outcomes_scFails {s : State} {rt : Reg} {t : State} (h : t = scFails s rt ∨ t = countDraw (scFails s rt)) :
    Outcomes s t := by
  refine .inr (.inr ⟨?_, ?_, ?_, ?_, ?_, .inl ?_, .inl ?_, .inl ?_, .inl ?_⟩) <;>
    rcases h with rfl | rfl <;> simp [scFails, SameCp0, SameMmu, SameStatus]

/-- An `SC` that stores to a device. -/
theorem outcomes_scStores_device {s : State} {rt : Reg} : Outcomes s (countDraw (scStores s rt s.mem)) := by
  refine .inr (.inr ⟨?_, ?_, ?_, ?_, ?_, .inl ?_, .inl ?_, .inl ?_, .inl ?_⟩) <;>
    simp [scStores, SameCp0, SameMmu, SameStatus]

theorem outcomes_llLoads {s u : State} {rt : Reg} {pa v : Word} (h : u = s ∨ u = countDraw s) :
    Outcomes s (llLoads u rt pa v) := by
  refine .inr (.inr ⟨?_, ?_, ?_, ?_, ?_, .inl ?_, .inl ?_, .inl ?_, .inl ?_⟩) <;>
    rcases h with rfl | rfl <;> simp [llLoads, SameCp0, SameMmu, SameStatus]

theorem outcomes_scAt {s t : State} {rt : Reg} {va pa : Word} (ht : translate s va .store 4 true = .ok pa)
    (h : scAt s rt pa = .next t) : Outcomes s t := by
  unfold scAt at h
  split at h
  · split at h
    · refine outcomes_andThen (fun p hp h => ?_) (fun _ _ h => by cases h; exact outcomes_scStores_device) h
      cases h
      have hm : memAddress s va .store 4 true = .ok p := by rw [memAddress, ht]; exact hp
      refine .inr (.inr ⟨by simp [scStores], by simp [scStores], by simp [scStores], by simp [scStores],
        by simp [scStores], .inl (by simp [scStores]), .inl (by simp [scStores, SameCp0, SameMmu, SameStatus]),
        .inl (by simp [scStores]), .inr ⟨va, p, 4, true, p, _, hm, by simp [scStores]; rfl, fun k hk => ?_⟩⟩)
      exact byteAddr_page (by decide) (memAddress_aligned (by decide) hm) hk
    · cases h; exact outcomes_scFails (.inr rfl)
  · cases h; exact outcomes_scFails (.inl rfl)

/-! ### Every instruction -/

/-- Every next state of every instruction is a trap entry, a shutdown, or a state in which it has retired. -/
theorem exec_next_cases {i : Instr} {s t : State} (h : exec i s = .next t) : Outcomes s t := by
  cases i
  case add | sub | addi => exact outcomes_trapOnOverflow h
  case addu | subu | and | or | xor | nor | slt | sltu | addiu | slti | sltiu | andi | ori | xori | lui | sll | srl | sra
      | sllv | srlv | srav | mfhi | mflo =>
    exact outcomes_regResult h
  case mult | multu | mthi | mtlo => cases h; exact outcomes_advance rfl rfl rfl rfl rfl (sameCp0_refl s) rfl
  case div rs rt =>
    simp only [exec, execDiv] at h
    split at h
    · exact outcomes_divideByZero h
    · split at h <;> cases h <;> exact outcomes_advance rfl rfl rfl rfl rfl (sameCp0_refl s) rfl
  case divu rs rt =>
    simp only [exec, execDivu] at h
    split at h
    · exact outcomes_divideByZero h
    · cases h; exact outcomes_advance rfl rfl rfl rfl rfl (sameCp0_refl s) rfl
  case j | jr => exact outcomes_branchResult (.inl rfl) h
  case jal => exact outcomes_branchResult (.inr ⟨_, _, rfl⟩) h
  case jalr rs rd =>
    simp only [exec, execJalr] at h
    split at h
    · cases h
    · exact outcomes_branchResult (.inr ⟨_, _, rfl⟩) h
  case beq | bne | blez | bgtz | bltz | bgez => exact outcomes_branchIf h
  case bltzal | bgezal => exact outcomes_branchLinkIf h
  case lb | lbu | lh | lhu | lw | lwl | lwr =>
    simp only [exec, execLb, execLbu, execLh, execLhu, execLw, execLwl, execLwr, loadPart] at h
    exact outcomes_loadResult h
  case sb rs rt imm =>
    exact outcomes_storeResult (q := id) (bs := fun _ => [_]) (fun pa hp k hk => byteAddr_page (n := 1) (by decide)
      (memAddress_aligned (by decide) hp) hk) h
  case sh rs rt imm =>
    exact outcomes_storeResult (q := id) (bs := fun _ => [_, _]) (fun pa hp k hk => byteAddr_page (n := 2) (by decide)
      (memAddress_aligned (by decide) hp) hk) h
  case sw rs rt imm =>
    exact outcomes_storeResult (q := id) (bs := fun _ => [_, _, _, _]) (fun pa hp k hk => byteAddr_page (n := 4) (by decide)
      (memAddress_aligned (by decide) hp) hk) h
  case swl rs rt imm =>
    exact outcomes_storeResult (q := id) (fun pa hp k hk => swl_page (by rw [memAddress_byteInWord hp] at hk; exact hk)) h
  case swr rs rt imm =>
    exact outcomes_storeResult (q := alignedWord)
      (fun pa hp k hk => swr_page (by rw [memAddress_byteInWord hp] at hk; exact hk)) h
  case ll rs rt imm =>
    exact outcomes_llscGuard (fun h => outcomes_andThen (fun _ _ h => by cases h; exact outcomes_llLoads (.inl rfl))
      (fun _ _ h => by cases h; exact outcomes_llLoads (.inr rfl)) h) h
  case sc rs rt imm =>
    exact outcomes_llscGuard (fun h => outcomes_andThen (fun pa ht h => outcomes_scAt ht h)
      (fun _ hd => (translate_ne_device _ _ _ _ _ _ hd).elim) h) h
  case syscall | brk => exact outcomes_raise h
  case sync =>
    simp only [exec, execSync] at h
    split at h
    · cases h; exact outcomes_advance rfl rfl rfl rfl rfl (sameCp0_refl s) rfl
    · exact outcomes_raise h
  case cache =>
    simp only [exec, execCache] at h
    split at h
    · cases h
    · exact outcomes_raise h
  case mfc1 | mtc1 | cfc1 | ctc1 | bc1f | bc1t | cop1 | lwc1 | swc1 => exact outcomes_copResult h
  case mfc2 | mtc2 | cfc2 | ctc2 | bc2f | bc2t | cop2 | lwc2 | swc2 => exact outcomes_copResult h
  case mfc3 | mtc3 | cfc3 | ctc3 | bc3f | bc3t | cop3 | lwc3 | swc3 => exact outcomes_copResult h
  case mfc0 rt rd sel =>
    refine outcomes_cp0Guard (fun hu h => ?_) h
    split at h
    · cases h; exact outcomes_kernel hu (by simp) (by simp) (by simp) (by simp) (by simp) (.inl (by simp))
    · cases h
  case mtc0 rt rd sel =>
    refine outcomes_cp0Guard (fun hu h => ?_) h
    split at h
    · exact outcomes_cp0Write hu h
    · cases h
  case tlbr | rfe =>
    refine outcomes_cp0Guard (fun hu h => ?_) h
    cases h; exact outcomes_kernel hu rfl rfl rfl rfl rfl (.inl rfl)
  case wait =>
    refine outcomes_cp0Guard (fun hu h => ?_) h
    cases h
    exact .inr (.inr ⟨fun _ => rfl, rfl, rfl, rfl, rfl, .inr hu, .inr hu, .inl rfl, .inl rfl⟩)
  case tlbwi =>
    refine outcomes_cp0Guard (fun hu h => ?_) h
    cases h; exact outcomes_tlbWrite hu (.inl rfl) _
  case tlbwr =>
    refine outcomes_cp0Guard (fun hu h => ?_) h
    cases h; exact outcomes_tlbWrite hu (.inr rfl) _
  case tlbp =>
    refine outcomes_cp0Guard (fun hu h => ?_) h
    cases h; exact outcomes_probeWith hu _

/-- The words that are no instruction answer a next state only by a trap entry. -/
theorem runDecoded_next_cases {d : Decoded} {s t : State} (h : runDecoded d s = .next t) : Outcomes s t := by
  cases d with
  | instr i => exact exec_next_cases h
  | reserved => exact outcomes_raise h
  | mustBeZero => cases h
  | wrongLength => exact outcomes_raise h
  | syncNotZero =>
    simp only [runDecoded, syncNotZeroResult] at h
    split at h
    · cases h
    · exact outcomes_raise h
  | copUndefined z =>
    simp only [runDecoded, undefinedCop] at h
    split at h
    · exact outcomes_cp0Guard (fun _ h => by cases h) h
    · split at h
      · cases h
      · exact outcomes_raise h

/-- A step of a processor that is about to fetch fetches and runs (spec/00_scope.md R11). -/
theorem step_of_aboutToFetch {s b : State} (h : AboutToFetch s b) : step s = runNext b := by
  obtain ⟨rfl, h1, h2, h3⟩ := h
  simp [step, stepAfterEvents, h1, h2, h3]

theorem runNext_of_raise {b : State} {e : Exception} (h : fetchAddress b = .raise e) :
    runNext b = .next (trapEntry e b) := by
  rw [runNext, h]; rfl

theorem runNext_of_ok {b : State} {pa : Word} (h : fetchAddress b = .ok pa) :
    runNext b = runDecoded (decodeBytes (fetchBytes b.mem pa)) b := by
  rw [runNext, h]; rfl

/-- The bytes fetched from where a word was stored are the word's, so that they decode as the word does. -/
theorem decodeBytes_fetchBytes_write32 (m : Memory) (pa w : Word) :
    decodeBytes (fetchBytes (m.write32 pa w) pa) = decode w := by
  have hr : ∀ k, (hk : k < 4) → (m.write32 pa w).read (byteAddr pa k) = byteOfWord w k := by
    intro k hk
    rw [Memory.write32, Memory.read_writeBytes_at _ _ _ k (by simpa using hk) (by simp)]
    rcases k with _ | _ | _ | _ | k <;> simp; omega
  simp only [fetchBytes, decodeBytes, hr 0 (by omega), hr 1 (by omega), hr 2 (by omega), hr 3 (by omega),
    wordOfBytes_byteOfWord]

/-- The bytes of a device at an aligned address are those of the word it answers with. -/
theorem decodeBytes_fetchBytes_device (s : State) (pa : Word) (h : pa.toNat % 4 = 0) :
    decodeBytes (fetchBytes (deviceBytes s pa) pa) = decode (Config.deviceDraw s.draws) := by
  have ha : alignedWord pa = pa := BitVec.eq_of_toNat_eq (by rw [alignedWord_toNat]; omega)
  rw [deviceBytes, ha, decodeBytes_fetchBytes_write32]

/-- A fetch that a device answers runs the word the device answers with. -/
theorem runNext_of_device {b : State} {pa : Word} (h : fetchAddress b = .device pa) :
    runNext b = runDecoded (decode (Config.deviceDraw b.draws)) (countDraw b) := by
  have ht := ((memAddress_device_iff ..).1 h).1
  have hp : pa.toNat % 4 = 0 := by
    have h1 := translate_ok_mod _ _ _ _ _ _ ht
    have h2 := translate_aligned ht
    omega
  rw [runNext, h, andThen_device, decodeBytes_fetchBytes_device _ _ hp]

/-- A step that answers a next state: the processor sleeps, or it is one of the outcomes from the state the fetch sees, in
which a fetch from a device has counted its draw. -/
theorem step_next_cases {s t : State} (h : step s = .next t) :
    (beginStep s).shutdown = false ∧ ((asleep (beginStep s) = true ∧ t = beginStep s) ∨
      ∃ k, Outcomes { wake (beginStep s) with draws := k } t) := by
  unfold step stepAfterEvents at h
  split at h
  · cases h
  · rename_i hs
    refine ⟨by simpa using hs, ?_⟩
    split at h
    · cases h; exact .inl ⟨‹_›, rfl⟩
    · split at h
      · exact .inr ⟨_, outcomes_raise h⟩
      · rcases andThen_next h with ⟨pa, -, h⟩ | ⟨pa, -, h⟩ | ⟨e, -, rfl⟩ | ⟨-, rfl⟩
        · exact .inr ⟨_, runDecoded_next_cases h⟩
        · exact .inr ⟨_, runDecoded_next_cases h⟩
        · exact .inr ⟨_, .trap e⟩
        · exact .inr ⟨_, .inr (.inl (.inl rfl))⟩

/-! ### What the boundary's events keep -/

/-- A property of states that each event of the outside keeps holds after the boundary's events. -/
theorem beginStep_keeps {P : State → Prop} {s : State} (h : P s) (hi : ∀ u rest, P u → P { u with inputs := rest })
    (he : ∀ u e, P u → P (applyExternal u e)) : P (beginStep s) := by
  have hl : ∀ (l : List External) (u : State), P u → P (l.foldl applyExternal u) := by
    intro l
    induction l with
    | nil => exact fun u hu => hu
    | cons e l ih => exact fun u hu => ih _ (he u e hu)
  unfold beginStep
  split
  · exact h
  · exact hl _ _ (hi _ _ h)

theorem applyExternal_inputs (s : State) (e : External) : (applyExternal s e).inputs = s.inputs := by
  cases e <;> simp [applyExternal]

/-- Every event of the outside keeps memory canonical. -/
theorem applyExternal_memory {s : State} (e : External) (h : s.mem.wf = true) : (applyExternal s e).mem.wf = true := by
  cases e with
  | busWrite pa b =>
    change (busWrite s pa b).mem.wf = true
    rcases hk : physAt s.cfg pa with _ | _ | _
    · rw [busWrite_none hk]; exact h
    · rw [busWrite_memory hk]; exact Memory.wf_write b h pa.isLt
    · rw [busWrite_device hk]; exact h
  | _ => simpa [applyExternal] using h

/-- Every event of the outside keeps the flow of instructions. -/
theorem applyExternal_flow {s : State} (e : External) (h : FlowSound s) : FlowSound (applyExternal s e) := by
  cases e with
  | busWrite pa b =>
    change FlowSound (busWrite s pa b)
    simpa [FlowSound] using h
  | lines level => exact h
  | softReset => exact fun _ => rfl
  | nmi => exact fun _ => rfl
  | hardReset tlb => exact fun _ => rfl

end Sys2Proof.Machine
end

