-- ==== Sys2Proof/Laws/Kernel.lean ====
section
/-! SUPPORT. What the coprocessor-0 operations and the draws can do, said once: the range of RANDOM, the TLB write and the
probe. -/

namespace Sys2Proof.Machine

/-- An observation of RANDOM lies in 8..63 (spec/10_state.md R35). -/
theorem randomSlot_ge (k : Nat) : 8 ≤ (randomSlot k).toNat := by
  simp [randomSlot]
  omega

/-- A TLB write: the slot written and nothing else of the TLB, or shut down with nothing written (spec/46_kernel_cp0.md R386,
R387). -/
theorem tlbWrite_cases (s : State) (i : Slot) :
    ((∀ j, j ≠ i → (tlbAt s.tlb j).clashes (entryToWrite s) = false) ∧
        tlbWrite s i = advance { s with tlb := tlbSet s.tlb i (entryToWrite s) }) ∨
      ((∃ j, j ≠ i ∧ (tlbAt s.tlb j).clashes (entryToWrite s) = true) ∧ tlbWrite s i = shutDown s) := by
  cases hc : tlbClash s.tlb i (entryToWrite s) with
  | false => exact .inl ⟨(tlbClash_false_iff ..).1 hc, by simp [tlbWrite, hc]⟩
  | true => exact .inr ⟨(tlbClash_iff ..).1 hc, by simp [tlbWrite, hc]⟩

/-- A probe: no match, one match, or two (spec/46_kernel_cp0.md R388). -/
theorem probeWith_cases (s : State) (hits : List Slot) :
    (hits = [] ∧ probeWith s hits = advance (countDraw { s with index := ⟨true, Config.probeSlotDraw s.draws⟩ })) ∨
      (∃ i, hits = [i] ∧ probeWith s hits = advance { s with index := ⟨false, i⟩ }) ∨
      (∃ i j rest, hits = i :: j :: rest ∧ probeWith s hits = shutDown s) := by
  match hits with
  | [] => exact .inl ⟨rfl, rfl⟩
  | [i] => exact .inr (.inl ⟨i, rfl, rfl⟩)
  | i :: j :: rest => exact .inr (.inr ⟨i, j, rest, rfl, rfl⟩)

end Sys2Proof.Machine
end

