-- ==== Sys2Proof/Laws/Operands.lean ====
section
/-! SUPPORT. What the operand forms, the overflow test and the partial-word operations compute, said once in arithmetic or
byte by byte: statements about instructions cite these instead of unfolding the forms. -/

namespace Sys2Proof.Machine

/-! ## Overflow -/

theorem topBitsDiffer_iff (v : BitVec 33) : topBitsDiffer v = true ↔ ¬ (-2 ^ 31 ≤ v.toInt ∧ v.toInt < 2 ^ 31) := by
  have hv := v.isLt
  have h1 : v.getLsbD 32 = decide (2 ^ 32 ≤ v.toNat) := by
    rw [BitVec.getLsbD, Nat.testBit_eq_decide_div_mod_eq]
    exact decide_eq_decide.2 (by omega)
  have h2 : v.getLsbD 31 = decide (2 ^ 31 ≤ v.toNat % 2 ^ 32) := by
    rw [BitVec.getLsbD, Nat.testBit_eq_decide_div_mod_eq]
    exact decide_eq_decide.2 (by omega)
  rw [topBitsDiffer, h1, h2, BitVec.toInt_eq_toNat_cond]
  by_cases a : 2 ^ 32 ≤ v.toNat <;> by_cases b : 2 ^ 31 ≤ v.toNat % 2 ^ 32 <;> simp [a, b] <;> split <;> omega

/-- `addOverflows` says that the exact signed sum does not fit (spec/40_alu.md R201). -/
theorem addOverflows_iff (a b : Word) :
    addOverflows a b = true ↔ ¬ (-2 ^ 31 ≤ a.toInt + b.toInt ∧ a.toInt + b.toInt < 2 ^ 31) := by
  have h : (a.signExtend 33 + b.signExtend 33).toInt = a.toInt + b.toInt := by
    rw [BitVec.toInt_add, BitVec.toInt_signExtend_of_le (by decide), BitVec.toInt_signExtend_of_le (by decide)]
    have := a.toInt_lt; have := b.toInt_lt; have := a.le_toInt; have := b.le_toInt
    rw [Int.bmod_eq_of_le] <;> simp at * <;> omega
  rw [addOverflows, topBitsDiffer_iff, h]

/-- `subOverflows` says that the exact signed difference does not fit (spec/40_alu.md R203). -/
theorem subOverflows_iff (a b : Word) :
    subOverflows a b = true ↔ ¬ (-2 ^ 31 ≤ a.toInt - b.toInt ∧ a.toInt - b.toInt < 2 ^ 31) := by
  have h : (a.signExtend 33 - b.signExtend 33).toInt = a.toInt - b.toInt := by
    rw [BitVec.toInt_sub, BitVec.toInt_signExtend_of_le (by decide), BitVec.toInt_signExtend_of_le (by decide)]
    have := a.toInt_lt; have := b.toInt_lt; have := a.le_toInt; have := b.le_toInt
    rw [Int.bmod_eq_of_le] <;> simp at * <;> omega
  rw [subOverflows, topBitsDiffer_iff, h]

/-! ## Addresses -/

/-- The effective address as a sum (spec/43_load_store.md R290). -/
theorem effectiveAddress_eq (s : State) (rs : Reg) (imm : Half) :
    effectiveAddress s rs imm = BitVec.ofInt 32 ((readReg s rs).toNat + imm.toInt) := by
  have hi : (sext16 imm).toInt = imm.toInt := by simp [sext16, BitVec.toInt_signExtend_of_le]
  apply BitVec.eq_of_toInt_eq
  rw [effectiveAddress, BitVec.toInt_add, BitVec.toInt_ofInt, hi, BitVec.toInt_eq_toNat_bmod]
  simp

/-- The branch target as a sum (spec/30_encoding.md R143). -/
theorem branchTarget_eq (pc : Word) (imm : Half) :
    branchTarget pc imm = BitVec.ofInt 32 (pc.toNat + 4 + imm.toInt * 4) := by
  apply BitVec.eq_of_toInt_eq
  have h : ((imm ++ 0#2 : BitVec 18).signExtend 32).toInt = imm.toInt * 4 := by
    rw [BitVec.toInt_signExtend_of_le (by decide), BitVec.toInt_eq_toNat_cond, BitVec.toInt_eq_toNat_cond,
      toNat_append_mul]
    have := imm.isLt
    simp
    split <;> split <;> omega
  rw [branchTarget, BitVec.toInt_add, BitVec.toInt_add, BitVec.toInt_ofInt, h, BitVec.toInt_eq_toNat_bmod]
  simp

/-- The jump target: the region of `pc + 4` and four times the index (spec/30_encoding.md R143). -/
theorem jumpTarget_toNat (pc : Word) (t : BitVec 26) :
    (jumpTarget pc t).toNat = (pc + 4#32).toNat / 2 ^ 28 * 2 ^ 28 + t.toNat * 4 := by
  have := (pc + 4#32).isLt
  rw [jumpTarget, toNat_append_mul, toNat_append_mul, toNat_extract]
  simp only [BitVec.toNat_ofNat]
  omega

/-- An access depends on STATUS, the TLB, TLBHI and the parameters alone. -/
theorem memAddress_congr {s t : State} (h1 : t.status = s.status) (h2 : t.tlb = s.tlb) (h3 : t.tlbhi = s.tlbhi)
    (h4 : t.cfg = s.cfg) (va : Word) (k : AccessKind) (n : Nat) (c : Bool) :
    memAddress t va k n c = memAddress s va k n c := by
  simp only [memAddress, Machine.translate, translateMapped, busAddress, h1, h2, h3, h4]

theorem byteAddr_toNat (pa : Word) (k : Nat) : byteAddr pa k = (pa.toNat + k) % 2 ^ 32 := by
  rw [byteAddr, BitVec.toNat_add, BitVec.toNat_ofNat]
  omega

/-- The bytes of the aligned word that holds `pa`. -/
theorem byteAddr_alignedWord (pa : Word) (k : Nat) (hk : k < 4) : byteAddr (alignedWord pa) k = pa.toNat / 4 * 4 + k := by
  have := pa.isLt
  rw [byteAddr_of_lt, alignedWord_toNat]
  rw [alignedWord_toNat]
  omega

/-- Reading after a write of up to four bytes that does not run past the top of memory. -/
theorem Memory.read_writeBytes (m : Memory) (pa : Word) (bs : List Byte) (a : Nat) (hn : bs.length ≤ 4)
    (hf : pa.toNat + bs.length ≤ 2 ^ 32) :
    (m.writeBytes pa bs).read a =
      if h : pa.toNat ≤ a ∧ a < pa.toNat + bs.length then bs[a - pa.toNat] else m.read a := by
  split
  · rename_i h
    have hr := Memory.read_writeBytes_at m pa bs (a - pa.toNat) (by omega) hn
    rw [byteAddr_of_lt (by omega), show pa.toNat + (a - pa.toNat) = a by omega] at hr
    exact hr
  · rename_i h
    apply Memory.read_writeBytes_other
    intro k hk
    rw [byteAddr_of_lt (by omega)]
    omega

/-! ## Partial words -/

/-- `lwlMerge` byte by byte (spec/43_load_store.md R300). -/
theorem lwlMerge_bytes (b0 b1 b2 b3 : Byte) (old : Word) (b : Nat) : b < 4 →
    lwlMerge (wordOfBytes b0 b1 b2 b3) old b =
      match b with
      | 0 => wordOfBytes b0 b1 b2 b3
      | 1 => wordOfBytes b1 b2 b3 (regByte old 0)
      | 2 => wordOfBytes b2 b3 (regByte old 1) (regByte old 0)
      | _ => wordOfBytes b3 (regByte old 2) (regByte old 1) (regByte old 0) := by
  intro hb
  apply BitVec.eq_of_getLsbD_eq
  intro i hi
  have e : ∀ k, (BitVec.ofNat 32 (2 ^ k - 1)).getLsbD i = decide (i < k) := by
    intro k
    rw [BitVec.getLsbD_ofNat, Nat.testBit_two_pow_sub_one]
    simp [hi]
  interval_cases b <;>
    simp only [lwlMerge, wordOfBytes, regByte, BitVec.getLsbD_or, BitVec.getLsbD_and, BitVec.getLsbD_shiftLeft,
      BitVec.getLsbD_append, BitVec.getLsbD_extractLsb', e] <;>
    interval_cases i <;> simp

/-- `lwrMerge` byte by byte (spec/43_load_store.md R301). -/
theorem lwrMerge_bytes (b0 b1 b2 b3 : Byte) (old : Word) (b : Nat) : b < 4 →
    lwrMerge (wordOfBytes b0 b1 b2 b3) old b =
      match b with
      | 0 => wordOfBytes (regByte old 3) (regByte old 2) (regByte old 1) b0
      | 1 => wordOfBytes (regByte old 3) (regByte old 2) b0 b1
      | 2 => wordOfBytes (regByte old 3) b0 b1 b2
      | _ => wordOfBytes b0 b1 b2 b3 := by
  intro hb
  apply BitVec.eq_of_getLsbD_eq
  intro i hi
  have e : ∀ k, (~~~(0xffffffff#32 >>> k)).getLsbD i = decide (32 ≤ k + i) := by
    intro k
    simp only [BitVec.getLsbD_not, hi, BitVec.getLsbD_ushiftRight]
    by_cases h : 32 ≤ k + i
    · simp [h]
    · have hk : (0xffffffff#32).getLsbD (k + i) = true := by
        have : k + i < 32 := by omega
        generalize k + i = j at *
        interval_cases j <;> rfl
      simp [hk]
      omega
  interval_cases b <;>
    simp only [lwrMerge, wordOfBytes, regByte, BitVec.getLsbD_or, BitVec.getLsbD_and, BitVec.getLsbD_ushiftRight,
      BitVec.getLsbD_append, BitVec.getLsbD_extractLsb', e] <;>
    interval_cases i <;> simp

end Sys2Proof.Machine
end

