-- ==== Sys2Proof/Tests/Slice0.lean ====
section
/-! SUPPORT. The model's own tests: the checks of WellFormed, one word for every constructor, one step of each instruction on
the values of spec/95_test_vectors.md (section 2, whose row each test names), and for every statement with hypotheses a state
and operands that meet them. -/

namespace Sys2Proof.Tests

open Sys2Proof Sys2Proof.Machine

/-! ## WellFormed: each check refuses an ill-formed term -/

theorem test_wellFormed_refuses_jalr : Instr.wellFormed (.jalr 25 25) = false := by decide
theorem test_wellFormed_refuses_bltzal : Instr.wellFormed (.bltzal 31 1) = false := by decide
theorem test_wellFormed_refuses_bgezal : Instr.wellFormed (.bgezal 31 1) = false := by decide
theorem test_wellFormed_accepts_jalr : Instr.wellFormed (.jalr 25 31) = true := by decide

/-! ## Decoding -/

/-- alu_register: each word is the row's fixed bits of spec/opcode_table.json with the operands in their fields. -/
theorem test_decode_alu_register : ∀ p ∈ ([
    (0x00221820#32, .add 1 2 3),
    (0x00221821#32, .addu 1 2 3),
    (0x00221822#32, .sub 1 2 3),
    (0x00221823#32, .subu 1 2 3),
    (0x00221824#32, .and 1 2 3),
    (0x00221825#32, .or 1 2 3),
    (0x00221826#32, .xor 1 2 3),
    (0x00221827#32, .nor 1 2 3),
    (0x0022182a#32, .slt 1 2 3),
    (0x0022182b#32, .sltu 1 2 3)] : List (Word × Instr)), decode p.1 = .instr p.2 := by
  decide

/-- alu_immediate: each word is the row's fixed bits of spec/opcode_table.json with the operands in their fields. -/
theorem test_decode_alu_immediate : ∀ p ∈ ([
    (0x20228005#32, .addi 1 2 0x8005),
    (0x24228005#32, .addiu 1 2 0x8005),
    (0x28228005#32, .slti 1 2 0x8005),
    (0x2c228005#32, .sltiu 1 2 0x8005),
    (0x30228005#32, .andi 1 2 0x8005),
    (0x34228005#32, .ori 1 2 0x8005),
    (0x38228005#32, .xori 1 2 0x8005),
    (0x3c028005#32, .lui 2 0x8005)] : List (Word × Instr)), decode p.1 = .instr p.2 := by
  decide

/-- shifts: each word is the row's fixed bits of spec/opcode_table.json with the operands in their fields. -/
theorem test_decode_shifts : ∀ p ∈ ([
    (0x00021900#32, .sll 2 3 4),
    (0x00021902#32, .srl 2 3 4),
    (0x00021903#32, .sra 2 3 4),
    (0x00221804#32, .sllv 1 2 3),
    (0x00221806#32, .srlv 1 2 3),
    (0x00221807#32, .srav 1 2 3)] : List (Word × Instr)), decode p.1 = .instr p.2 := by
  decide

/-- muldiv: each word is the row's fixed bits of spec/opcode_table.json with the operands in their fields. -/
theorem test_decode_muldiv : ∀ p ∈ ([
    (0x00220018#32, .mult 1 2),
    (0x00220019#32, .multu 1 2),
    (0x0022001a#32, .div 1 2),
    (0x0022001b#32, .divu 1 2),
    (0x00001810#32, .mfhi 3),
    (0x00200011#32, .mthi 1),
    (0x00001812#32, .mflo 3),
    (0x00200013#32, .mtlo 1)] : List (Word × Instr)), decode p.1 = .instr p.2 := by
  decide

/-- branch_jump: each word is the row's fixed bits of spec/opcode_table.json with the operands in their fields. -/
theorem test_decode_branch_jump : ∀ p ∈ ([
    (0x0a000401#32, .j 0x2000401),
    (0x0e000401#32, .jal 0x2000401),
    (0x00200008#32, .jr 1),
    (0x00201809#32, .jalr 1 3),
    (0x10228005#32, .beq 1 2 0x8005),
    (0x14228005#32, .bne 1 2 0x8005),
    (0x18208005#32, .blez 1 0x8005),
    (0x1c208005#32, .bgtz 1 0x8005),
    (0x04208005#32, .bltz 1 0x8005),
    (0x04218005#32, .bgez 1 0x8005),
    (0x04308005#32, .bltzal 1 0x8005),
    (0x04318005#32, .bgezal 1 0x8005)] : List (Word × Instr)), decode p.1 = .instr p.2 := by
  decide

/-- load_store: each word is the row's fixed bits of spec/opcode_table.json with the operands in their fields. -/
theorem test_decode_load_store : ∀ p ∈ ([
    (0x80228005#32, .lb 1 2 0x8005),
    (0x90228005#32, .lbu 1 2 0x8005),
    (0x84228005#32, .lh 1 2 0x8005),
    (0x94228005#32, .lhu 1 2 0x8005),
    (0x8c228005#32, .lw 1 2 0x8005),
    (0xa0228005#32, .sb 1 2 0x8005),
    (0xa4228005#32, .sh 1 2 0x8005),
    (0xac228005#32, .sw 1 2 0x8005),
    (0x88228005#32, .lwl 1 2 0x8005),
    (0x98228005#32, .lwr 1 2 0x8005),
    (0xa8228005#32, .swl 1 2 0x8005),
    (0xb8228005#32, .swr 1 2 0x8005),
    (0xc0228005#32, .ll 1 2 0x8005),
    (0xe0228005#32, .sc 1 2 0x8005)] : List (Word × Instr)), decode p.1 = .instr p.2 := by
  decide

/-- system: each word is the row's fixed bits of spec/opcode_table.json with the operands in their fields. -/
theorem test_decode_system : ∀ p ∈ ([
    (0x020048cc#32, .syscall 0x80123),
    (0x020048cd#32, .brk 0x80123),
    (0x0000000f#32, .sync),
    (0xbc318005#32, .cache 1 17 0x8005)] : List (Word × Instr)), decode p.1 = .instr p.2 := by
  decide

/-- coprocessor1: each word is the row's fixed bits of spec/opcode_table.json with the operands in their fields. -/
theorem test_decode_coprocessor1 : ∀ p ∈ ([
    (0x44021805#32, .mfc1 2 3 5),
    (0x44821805#32, .mtc1 2 3 5),
    (0x44421800#32, .cfc1 2 3),
    (0x44c21800#32, .ctc1 2 3),
    (0x45008005#32, .bc1f 0x8005),
    (0x45018005#32, .bc1t 0x8005),
    (0x47002003#32, .cop1 0x1002003),
    (0xc4228005#32, .lwc1 1 2 0x8005),
    (0xe4228005#32, .swc1 1 2 0x8005)] : List (Word × Instr)), decode p.1 = .instr p.2 := by
  decide

/-- coprocessor2: each word is the row's fixed bits of spec/opcode_table.json with the operands in their fields. -/
theorem test_decode_coprocessor2 : ∀ p ∈ ([
    (0x48021805#32, .mfc2 2 3 5),
    (0x48821805#32, .mtc2 2 3 5),
    (0x48421800#32, .cfc2 2 3),
    (0x48c21800#32, .ctc2 2 3),
    (0x49008005#32, .bc2f 0x8005),
    (0x49018005#32, .bc2t 0x8005),
    (0x4b002003#32, .cop2 0x1002003),
    (0xc8228005#32, .lwc2 1 2 0x8005),
    (0xe8228005#32, .swc2 1 2 0x8005)] : List (Word × Instr)), decode p.1 = .instr p.2 := by
  decide

/-- coprocessor3: each word is the row's fixed bits of spec/opcode_table.json with the operands in their fields. -/
theorem test_decode_coprocessor3 : ∀ p ∈ ([
    (0x4c021805#32, .mfc3 2 3 5),
    (0x4c821805#32, .mtc3 2 3 5),
    (0x4c421800#32, .cfc3 2 3),
    (0x4cc21800#32, .ctc3 2 3),
    (0x4d008005#32, .bc3f 0x8005),
    (0x4d018005#32, .bc3t 0x8005),
    (0x4f002003#32, .cop3 0x1002003),
    (0xcc228005#32, .lwc3 1 2 0x8005),
    (0xec228005#32, .swc3 1 2 0x8005)] : List (Word × Instr)), decode p.1 = .instr p.2 := by
  decide

/-- kernel: each word is the row's fixed bits of spec/opcode_table.json with the operands in their fields. -/
theorem test_decode_kernel : ∀ p ∈ ([
    (0x40021805#32, .mfc0 2 3 5),
    (0x40821805#32, .mtc0 2 3 5),
    (0x42000001#32, .tlbr),
    (0x42000002#32, .tlbwi),
    (0x42000006#32, .tlbwr),
    (0x42000008#32, .tlbp),
    (0x42000010#32, .rfe),
    (0x42000020#32, .wait)] : List (Word × Instr)), decode p.1 = .instr p.2 := by
  decide
/-- The rows' words through the host's entry, and words that are no row (V-S5, V-S6, V-S7). -/
theorem test_decodeTableWord : decodeTableWord 32 0x00221820 = some (.add 1 2 3) := by decide
theorem test_decode_reserved : [0x0000000e#32, 0x70000000#32, 0x50220003#32].all (fun w => decode w == .reserved) = true := by
  decide
theorem test_decode_mustBeZero : decode 0x00221860#32 = .mustBeZero := by decide
theorem test_decode_cop0_undefined : decode 0x42000018#32 = .copUndefined 0 := by decide
/-- CFC0, BC1 with another condition, MFC2 with bit 3 set, SYNC with its lowest must-be-zero bit set. -/
theorem test_decode_classes : decode 0x40421800#32 = .copUndefined 0 ∧ decode 0x45020001#32 = .copUndefined 1 ∧
    decode 0x48021808#32 = .copUndefined 2 ∧ decode 0x0000004f#32 = .syncNotZero := by decide

/-! ## The test states (the conventions of spec/95_test_vectors.md) -/

/-- An entry nothing below looks up: entry `i` maps page 0x70000 + `i`, and is not valid. -/
def quietEntry (i : Nat) : TlbEntry := ⟨⟨BitVec.ofNat 20 (0x70000 + i), 0⟩, ⟨0, false, false, false, false⟩⟩

/-- A TLB of such entries. -/
def quietTlb : Tlb := ⟨((List.range 64).map quietEntry).toArray, by simp⟩

/-- V2, memory at physical 0 .. 0xfffff, nothing elsewhere. -/
def testConfig : Config := ⟨.v2, false, .unpredictable, 0, 0x80000000, .cpuException, [⟨0, 0x100000, .memory⟩]⟩

/-- STATUS = 0. -/
def zeroStatus : Status := Status.ofWord 0

/-- The start state of section 2: kernel mode, STATUS = 0, pc = 0x80002000, x1 = `a`, x2 = `b`. -/
def start (a b : Word) : State :=
  setReg (setReg { State.reset with
    pc := 0x80002000, npc := 0x80002004, status := zeroStatus, tlb := quietTlb, cfg := testConfig } 1 a) 2 b

/-- The memory of section 2.4: 0x11223344, 0x55667788, 0x80ff7f01 at physical 0x1000. -/
def startMem (a b : Word) : State :=
  { start a b with
    mem := ((Memory.write32 [] 0x1000 0x11223344).write32 0x1004 0x55667788).write32 0x1008 0x80ff7f01 }

/-- The outcome is a next state of which `p` holds. -/
def nextIs (r : Result) (p : State → Bool) : Bool :=
  match r with
  | .next t => p t
  | .fault _ => false
  | .refused _ => false

/-- The outcome is that refusal. -/
def refusedAs (r : Result) (w : Refusal) : Bool :=
  match r with
  | .refused v => v == w
  | .next _ => false
  | .fault _ => false

/-- The instruction leaves `v` in `x[rd]` and goes on to 0x80002004. -/
def leaves (r : Result) (rd : Reg) (v : Word) : Bool :=
  nextIs r fun t => readReg t rd == v && t.pc == 0x80002004 && t.npc == 0x80002008 && !t.inDelay

/-- The instruction leaves `hi` and `lo` in HI and LO. -/
def leavesHiLo (r : Result) (hi lo : Word) : Bool := nextIs r fun t => t.hi == hi && t.lo == lo && t.pc == 0x80002004

/-- The instruction leaves the word `v` at physical `a`. -/
def leavesMem (r : Result) (a v : Word) : Bool := nextIs r fun t => t.mem.read32 a == v && t.pc == 0x80002004

/-- The instruction traps with code `c` through the vector `v`, EPC 0x80002000. -/
def traps (r : Result) (c : BitVec 4) (v : Word) : Bool :=
  nextIs r fun t => t.cause.exc == c && t.pc == v && t.epc == 0x80002000 && !t.cause.bd

/-! ## Arithmetic and logic (2.1) -/

theorem test_add_overflow : traps (exec (.add 1 2 3) (start 0x7fffffff 1)) 12 0x80000080 = true := by decide
theorem test_add : leaves (exec (.add 1 2 3) (start 0x7fffffff 0xffffffff)) 3 0x7ffffffe = true := by decide
theorem test_addu : leaves (exec (.addu 1 2 3) (start 0x7fffffff 1)) 3 0x80000000 = true := by decide
theorem test_sub_overflow : traps (exec (.sub 1 2 3) (start 0x80000000 1)) 12 0x80000080 = true := by decide
theorem test_sub_overflow_min : traps (exec (.sub 1 2 3) (start 0 0x80000000)) 12 0x80000080 = true := by decide
theorem test_subu : leaves (exec (.subu 1 2 3) (start 0 1)) 3 0xffffffff = true := by decide
theorem test_addi_overflow : traps (exec (.addi 1 2 0xffff) (start 0x80000000 0)) 12 0x80000080 = true := by decide
theorem test_addi : leaves (exec (.addi 1 2 0xffff) (start 5 0)) 2 4 = true := by decide
theorem test_addiu : leaves (exec (.addiu 1 2 0xffff) (start 0x80000000 0)) 2 0x7fffffff = true := by decide
theorem test_addiu_zero : leaves (exec (.addiu 1 0 5) (start 1 0)) 0 0 = true := by decide
theorem test_slt : leaves (exec (.slt 1 2 3) (start 0xffffffff 1)) 3 1 = true := by decide
theorem test_sltu : leaves (exec (.sltu 1 2 3) (start 0xffffffff 1)) 3 0 = true := by decide
theorem test_slti : leaves (exec (.slti 1 2 0xffff) (start 0xfffffffe 0)) 2 1 = true := by decide
theorem test_sltiu : leaves (exec (.sltiu 1 2 0xffff) (start 0xfffffffe 0)) 2 1 = true := by decide
theorem test_sltiu_equal : leaves (exec (.sltiu 1 2 0xffff) (start 0xffffffff 0)) 2 0 = true := by decide
theorem test_andi : leaves (exec (.andi 1 2 0xff00) (start 0x12345678 0)) 2 0x00005600 = true := by decide
theorem test_ori : leaves (exec (.ori 1 2 0xff00) (start 0x12345678 0)) 2 0x1234ff78 = true := by decide
theorem test_xori : leaves (exec (.xori 1 2 0xffff) (start 0x12345678 0)) 2 0x1234a987 = true := by decide
theorem test_lui : leaves (exec (.lui 2 0x1234) (start 0 0xffffffff)) 2 0x12340000 = true := by decide
theorem test_and : leaves (exec (.and 1 2 3) (start 0x0f0f0f0f 0x00ff00ff)) 3 0x000f000f = true := by decide
theorem test_or : leaves (exec (.or 1 2 3) (start 0x0f0f0f0f 0x00ff00ff)) 3 0x0fff0fff = true := by decide
theorem test_xor : leaves (exec (.xor 1 2 3) (start 0x0f0f0f0f 0x00ff00ff)) 3 0x0ff00ff0 = true := by decide
theorem test_nor : leaves (exec (.nor 1 2 3) (start 0x0f0f0f0f 0x00ff00ff)) 3 0xf000f000 = true := by decide
theorem test_sll : leaves (exec (.sll 2 3 4) (start 0 0x80000001)) 3 0x00000010 = true := by decide
theorem test_srl : leaves (exec (.srl 2 3 4) (start 0 0x80000001)) 3 0x08000000 = true := by decide
theorem test_sra : leaves (exec (.sra 2 3 4) (start 0 0x80000001)) 3 0xf8000000 = true := by decide
theorem test_sra_all : leaves (exec (.sra 2 3 31) (start 0 0x80000001)) 3 0xffffffff = true := by decide
theorem test_sllv : leaves (exec (.sllv 1 2 3) (start 36 0x80000001)) 3 0x00000010 = true := by decide
theorem test_srlv : leaves (exec (.srlv 1 2 3) (start 36 0x80000001)) 3 0x08000000 = true := by decide
theorem test_srav : leaves (exec (.srav 1 2 3) (start 0xffffffff 0x80000001)) 3 0xffffffff = true := by decide

/-! ## Multiply and divide (2.2) -/

theorem test_mult : leavesHiLo (exec (.mult 1 2) (start 0x7fffffff 0xfffffffe)) 0xffffffff 2 = true := by decide
theorem test_mult_min : leavesHiLo (exec (.mult 1 2) (start 0x80000000 0x80000000)) 0x40000000 0 = true := by decide
theorem test_multu : leavesHiLo (exec (.multu 1 2) (start 0xffffffff 0xffffffff)) 0xfffffffe 1 = true := by decide
theorem test_div : leavesHiLo (exec (.div 1 2) (start 0xfffffff9 2)) 0xffffffff 0xfffffffd = true := by decide
theorem test_div_negative : leavesHiLo (exec (.div 1 2) (start 7 0xfffffffe)) 1 0xfffffffd = true := by decide
theorem test_divu : leavesHiLo (exec (.divu 1 2) (start 0xfffffff9 2)) 1 0x7ffffffc = true := by decide
theorem test_mfhi : leaves (exec (.mfhi 3) { start 0 0 with hi := 0x11111111 }) 3 0x11111111 = true := by decide
theorem test_mflo : leaves (exec (.mflo 3) { start 0 0 with lo := 0x22222222 }) 3 0x22222222 = true := by decide
theorem test_mthi : leavesHiLo (exec (.mthi 1) { start 0xabcdef01 0 with lo := 7 }) 0xabcdef01 7 = true := by decide
theorem test_mtlo : leavesHiLo (exec (.mtlo 1) { start 0xabcdef01 0 with hi := 7 }) 7 0xabcdef01 = true := by decide

/-! ## Branches and jumps (2.3), at pc = 0x80001000 -/

/-- Section 2.3's start. -/
def startBranch (a b : Word) : State := { start a b with pc := 0x80001000, npc := 0x80001004 }

/-- The delay slot is next and `v` after it. -/
def goesTo (r : Result) (v : Word) : Bool := nextIs r fun t => t.pc == 0x80001004 && t.npc == v && t.inDelay

/-- The same, and x[31] holds the link. -/
def linksTo (r : Result) (v : Word) : Bool :=
  nextIs r fun t => t.pc == 0x80001004 && t.npc == v && t.inDelay && readReg t 31 == 0x80001008

theorem test_beq_taken : goesTo (exec (.beq 1 2 3) (startBranch 5 5)) 0x80001010 = true := by decide
theorem test_beq_not_taken : goesTo (exec (.beq 1 2 3) (startBranch 5 6)) 0x80001008 = true := by decide
theorem test_bne_taken : goesTo (exec (.bne 1 2 0xfffe) (startBranch 5 6)) 0x80000ffc = true := by decide
theorem test_bne_not_taken : goesTo (exec (.bne 1 2 0xfffe) (startBranch 5 5)) 0x80001008 = true := by decide
theorem test_blez_zero : goesTo (exec (.blez 1 2) (startBranch 0 0)) 0x8000100c = true := by decide
theorem test_blez_positive : goesTo (exec (.blez 1 2) (startBranch 1 0)) 0x80001008 = true := by decide
theorem test_bgtz_zero : goesTo (exec (.bgtz 1 2) (startBranch 0 0)) 0x80001008 = true := by decide
theorem test_bgtz_positive : goesTo (exec (.bgtz 1 2) (startBranch 1 0)) 0x8000100c = true := by decide
theorem test_bltz_zero : goesTo (exec (.bltz 1 2) (startBranch 0 0)) 0x80001008 = true := by decide
theorem test_bltz_negative : goesTo (exec (.bltz 1 2) (startBranch 0xffffffff 0)) 0x8000100c = true := by decide
theorem test_bgez_zero : goesTo (exec (.bgez 1 2) (startBranch 0 0)) 0x8000100c = true := by decide
theorem test_bgez_negative : goesTo (exec (.bgez 1 2) (startBranch 0xffffffff 0)) 0x80001008 = true := by decide
theorem test_bltzal_not_taken : linksTo (exec (.bltzal 1 2) (startBranch 0 0)) 0x80001008 = true := by decide
theorem test_bgezal_taken : linksTo (exec (.bgezal 1 2) (startBranch 0 0)) 0x8000100c = true := by decide
theorem test_j : goesTo (exec (.j 0x400) (startBranch 0 0)) 0x80001000 = true := by decide
theorem test_j_region : nextIs (exec (.j 0x400) { start 0 0 with pc := 0x8ffffffc, npc := 0x90000000 })
    (fun t => t.npc == 0x90001000) = true := by decide
theorem test_jal : linksTo (exec (.jal 0x400) (startBranch 0 0)) 0x80001000 = true := by decide
theorem test_jr : goesTo (exec (.jr 1) (startBranch 0x80003002 0)) 0x80003002 = true := by decide
theorem test_jalr : linksTo (exec (.jalr 1 31) (startBranch 0x80004000 0)) 0x80004000 = true := by decide
theorem test_jalr_same : refusedAs (exec (.jalr 25 25) (startBranch 0 0)) .notRestartable = true := by decide
theorem test_bgezal_link_base : refusedAs (exec (.bgezal 31 1) (startBranch 0 0)) .notRestartable = true := by decide
theorem test_branch_in_slot : refusedAs (exec (.beq 0 0 1) { startBranch 0 0 with inDelay := true }) .branchInDelaySlot =
    true := by decide

/-! ## Loads and stores (2.4) -/

theorem test_lb : leaves (exec (.lb 1 2 0) (startMem 0x80001008 0xaabbccdd)) 2 0xffffff80 = true := by decide
theorem test_lb_positive : leaves (exec (.lb 1 2 2) (startMem 0x80001008 0xaabbccdd)) 2 0x7f = true := by decide
theorem test_lbu : leaves (exec (.lbu 1 2 1) (startMem 0x80001008 0xaabbccdd)) 2 0xff = true := by decide
theorem test_lh : leaves (exec (.lh 1 2 0) (startMem 0x80001008 0xaabbccdd)) 2 0xffff80ff = true := by decide
theorem test_lh_misaligned : nextIs (exec (.lh 1 2 1) (startMem 0x80001000 0xaabbccdd)) (fun t =>
    t.cause.exc == 4 && t.badvaddr == 0x80001001 && t.tlbhi.vpage == 0x80001 && t.context.toWord == 4 &&
    readReg t 2 == 0xaabbccdd) = true := by decide
theorem test_lhu : leaves (exec (.lhu 1 2 0) (startMem 0x80001008 0xaabbccdd)) 2 0x80ff = true := by decide
theorem test_lw : leaves (exec (.lw 1 2 0xfffc) (startMem 0x80001008 0xaabbccdd)) 2 0x55667788 = true := by decide
theorem test_lw_nothing_there : nextIs (exec (.lw 1 2 0) (startMem 0x9ffffffc 0)) (fun t =>
    t.cause.exc == 7 && t.badvaddr == 0 && t.tlbhi.toWord == 0) = true := by decide
theorem test_lwl : leaves (exec (.lwl 1 2 0) (startMem 0x80001001 0xaabbccdd)) 2 0x223344dd = true := by decide
theorem test_lwl_last : leaves (exec (.lwl 1 2 0) (startMem 0x80001003 0xaabbccdd)) 2 0x44bbccdd = true := by decide
theorem test_lwr : leaves (exec (.lwr 1 2 3) (startMem 0x80001001 0xaabbccdd)) 2 0xaabbcc55 = true := by decide
theorem test_lwr_middle : leaves (exec (.lwr 1 2 0) (startMem 0x80001002 0xaabbccdd)) 2 0xaa112233 = true := by decide
theorem test_sb : leavesMem (exec (.sb 1 2 1) (startMem 0x80001000 0xaabbccdd)) 0x1000 0x11dd3344 = true := by decide
theorem test_sh : leavesMem (exec (.sh 1 2 2) (startMem 0x80001000 0xaabbccdd)) 0x1000 0x1122ccdd = true := by decide
theorem test_sh_misaligned : nextIs (exec (.sh 1 2 1) (startMem 0x80001000 0xaabbccdd)) (fun t =>
    t.cause.exc == 5 && t.badvaddr == 0x80001001 && t.mem == (startMem 0 0).mem) = true := by decide
theorem test_sw : leavesMem (exec (.sw 1 2 8) (startMem 0x80000ffc 0xaabbccdd)) 0x1004 0xaabbccdd = true := by decide
theorem test_sw_nothing_there : nextIs (exec (.sw 1 2 0) (startMem 0xa0200000 1)) (fun t =>
    t.cause.exc == 7 && t.mem == (startMem 0 0).mem) = true := by decide
theorem test_swl : leavesMem (exec (.swl 1 2 0) (startMem 0x80001001 0xaabbccdd)) 0x1000 0x11aabbcc = true := by decide
theorem test_swl_last : leavesMem (exec (.swl 1 2 0) (startMem 0x80001003 0xaabbccdd)) 0x1000 0x112233aa = true := by
  decide
theorem test_swr : leavesMem (exec (.swr 1 2 0) (startMem 0x80001001 0xaabbccdd)) 0x1000 0xccdd3344 = true := by decide
theorem test_swr_first : leavesMem (exec (.swr 1 2 0) (startMem 0x80001000 0xaabbccdd)) 0x1000 0xdd223344 = true := by
  decide
theorem test_ll : nextIs (exec (.ll 1 2 0) (startMem 0x80001004 0)) (fun t =>
    readReg t 2 == 0x55667788 && t.llbit && t.lladdr == 0x1004) = true := by decide
theorem test_sc_fails : leaves (exec (.sc 1 2 0) (startMem 0x80001000 0xaabbccdd)) 2 0 = true := by decide
theorem test_sc_misaligned : traps (exec (.sc 1 2 2) (startMem 0x80001000 0)) 5 0x80000080 = true := by decide

/-! ## System instructions (2.5) -/

theorem test_syscall : traps (exec (.syscall 0) (start 0 0)) 8 0x80000080 = true := by decide
theorem test_syscall_in_slot : nextIs (exec (.syscall 0) { start 0 0 with pc := 0x80002004, inDelay := true }) (fun t =>
    t.epc == 0x80002000 && t.cause.bd && t.cause.exc == 8) = true := by decide
theorem test_break : traps (exec (.brk 0x1c00) (start 0 0)) 9 0x80000080 = true := by decide
theorem test_sync : nextIs (exec .sync (start 1 2)) (fun t => t == advance (start 1 2)) = true := by decide
theorem test_sync_v1 : traps (exec .sync { start 0 0 with cfg := { testConfig with version := .v1 } }) 10 0x80000080 =
    true := by decide
theorem test_cache : refusedAs (exec (.cache 1 0 0) (start 0 0)) .cacheUndocumented = true := by decide

/-! ## Coprocessors (2.6) -/

/-- CPU with coprocessor number `z`. -/
def unusable (r : Result) (z : BitVec 2) : Bool := traps r 11 0x80000080 && nextIs r fun t => t.cause.ce == z

theorem test_coprocessor1 : [Instr.mfc1 2 0 0, .mtc1 2 0 0, .cfc1 2 0, .ctc1 2 0, .bc1f 1, .bc1t 1, .cop1 0x20800,
    .lwc1 1 0 1, .swc1 1 0 1].all (fun i => unusable (exec i (start 0 0)) 1) = true := by decide
theorem test_coprocessor2 : [Instr.mfc2 2 0 0, .mtc2 2 0 0, .cfc2 2 0, .ctc2 2 0, .bc2f 1, .bc2t 1, .cop2 0x20800,
    .lwc2 1 0 1, .swc2 1 0 1].all (fun i => unusable (exec i (start 0 0)) 2) = true := by decide
theorem test_coprocessor3 : [Instr.mfc3 2 0 0, .mtc3 2 0 0, .cfc3 2 0, .ctc3 2 0, .bc3f 1, .bc3t 1, .cop3 0x20800,
    .lwc3 1 0 1, .swc3 1 0 1].all (fun i => unusable (exec i (start 0 0)) 3) = true := by decide
theorem test_coprocessor1_enabled : refusedAs (exec (.mfc1 2 0 0)
    { start 0 0 with status := Status.ofWord 0x20000000 }) (.coprocessorAbsent 1) = true := by decide

/-! ## Coprocessor 0 (2.7) -/

/-- The start with STATUS = `v`. -/
def startStatus (v a b : Word) : State := { start a b with status := Status.ofWord v }

theorem test_mfc0_status : leaves (exec (.mfc0 2 12 0) (startStatus 0x0040ff04 0 0)) 2 0x0040ff04 = true := by
  decide
theorem test_mfc0_cause : leaves (exec (.mfc0 2 13 0) { start 0 0 with cause := ⟨true, 3, 3, 11⟩, irq := 8 }) 2 0xb000232c =
    true := by decide
theorem test_mfc0_cfeat_v1 : leaves (exec (.mfc0 2 15 1) { start 0 0 with cfg := { testConfig with version := .v1 } }) 2
    0x3ff = true := by decide
theorem test_mfc0_user : nextIs (exec (.mfc0 2 12 0) (startStatus 2 0 0)) (fun t =>
    t.cause.exc == 11 && t.cause.ce == 0 && t.status.toWord == 8) = true := by decide
theorem test_mtc0_status : nextIs (exec (.mtc0 1 12 0) (start 0xffc4ffff 0)) (fun t => t.status.toWord == 0xf040ff3f) =
    true := by decide
theorem test_mtc0_machine_check : nextIs (exec (.mtc0 1 12 0) (start 0x00020000 0)) (fun t => t.shutdown) = true := by
  decide
theorem test_mtc0_cause : nextIs (exec (.mtc0 1 13 0) { start 0xffffffff 0 with cause := ⟨true, 3, 0, 11⟩ }) (fun t =>
    t.cause.toWord 0 == 0xb000032c) = true := by decide
theorem test_mtc0_random : refusedAs (exec (.mtc0 1 1 0) (start 0 0)) .randomWrite = true := by decide
theorem test_mfc0_undefined : refusedAs (exec (.mfc0 2 9 0) (start 0 0)) (.cp0RegisterUndefined 9 0) = true := by
  decide
theorem test_rfe : nextIs (exec .rfe (startStatus 0x08 0 0)) (fun t => t.status.toWord == 2) = true := by decide
theorem test_rfe_old_pair : nextIs (exec .rfe (startStatus 0x30 0 0)) (fun t => t.status.toWord == 0x3c) = true := by
  decide

/-- The entry of V-K14. -/
def pageEntry : TlbEntry := ⟨TlbHi.ofWord 0x00400040, TlbLo.ofWord 0x00050600⟩

/-- The start with TLBHI, TLBLO, INDEX.SLOT, and `pageEntry` in slot 5. -/
def startTlb (hi lo : Word) (slot : Slot) : State :=
  { start 0 0 with tlb := tlbSet quietTlb 5 pageEntry, tlbhi := TlbHi.ofWord hi, tlblo := TlbLo.ofWord lo, index := ⟨false, slot⟩ }

theorem test_tlbwi : nextIs (exec .tlbwi { startTlb 0x00400040 0x00050600 5 with tlb := quietTlb }) (fun t =>
    tlbAt t.tlb 5 == ⟨⟨0x00400, 1⟩, ⟨0x00050, false, true, true, false⟩⟩ && tlbAt t.tlb 6 == quietEntry 6) = true := by
  decide
theorem test_tlbwi_machine_check : nextIs (exec .tlbwi (startTlb 0x004000c0 0x00060300 7)) (fun t =>
    t.shutdown && tlbAt t.tlb 7 == quietEntry 7) = true := by decide
theorem test_tlbr : nextIs (exec .tlbr (startTlb 0 0 5)) (fun t =>
    t.tlbhi.toWord == 0x00400040 && t.tlblo.toWord == 0x00050600) = true := by decide
theorem test_tlbp : nextIs (exec .tlbp (startTlb 0x00400040 0 0)) (fun t => t.index.toWord == 0x00000500) = true := by
  decide
theorem test_tlbp_fails : nextIs (exec .tlbp (startTlb 0x00400080 0 0)) (fun t => t.index.p) = true := by decide
theorem test_tlbwr_completes : ∃ t, exec .tlbwr (startTlb 0x00400040 0x00050600 5) = .next t := ⟨_, rfl⟩
theorem test_tlbwr_user : traps (exec .tlbwr (startStatus 2 0 0)) 11 0x80000080 = true := by decide
theorem test_wait : nextIs (exec .wait (start 0 0)) (fun t => t.idle && t.pc == 0x80002004) = true := by decide
theorem test_wait_line_active : nextIs (exec .wait { start 0 0 with irq := 4 }) (fun t => !t.idle && t.pc == 0x80002004) =
    true := by decide

/-! ## Exceptions, translation and the step (2.8) -/

/-- The start with the entry of V-K14, its valid and dirty bits as given, in slot 3 and TLBHI.ASID = 1. -/
def startPage (v d : Bool) (a b : Word) : State :=
  { startMem a b with
    tlb := tlbSet quietTlb 3 ⟨⟨0x00400, 1⟩, ⟨0x00001, false, d, v, false⟩⟩, tlbhi := ⟨0, 1⟩ }

/-- The configuration with a device at physical 0x1fe00000. -/
def deviceConfig : Config := { testConfig with phys := [⟨0, 0x100000, .memory⟩, ⟨0x1fe00000, 0x1000, .device⟩] }

/-- The start with that device. -/
def startDevice (a b : Word) : State := { start a b with cfg := deviceConfig }

/-- The two entries of V-E14, in slots 6 and 7. -/
def twinTlb : Tlb :=
  tlbSet (tlbSet quietTlb 6 ⟨⟨0x00400, 0⟩, ⟨0, false, true, true, true⟩⟩) 7 ⟨⟨0x00400, 0⟩, ⟨0, false, true, true, true⟩⟩

/-- Slot `i` alone of `s` matches `va`. -/
abbrev OnlyHit (s : State) (va : Word) (i : Slot) : Prop :=
  ∀ j, (tlbAt s.tlb j).hits (pageOf va) s.tlbhi.asid = true ↔ j = i

/-- A load from a device and a store to one complete and leave memory as it was (no test on the value loaded, a draw). -/
theorem test_load_device : nextIs (exec (.lw 1 2 0) (startDevice 0xbfe00000 0)) (fun t =>
    t.pc == 0x80002004 && t.mem == (startDevice 0 0).mem && readReg t 1 == 0xbfe00000) = true := by decide
theorem test_store_device : nextIs (exec (.sw 1 2 0) (startDevice 0xbfe00000 5)) (fun t =>
    t == advance (startDevice 0xbfe00000 5)) = true := by decide

theorem test_trap_status : nextIs (exec (.syscall 0) (startStatus 0xff01 0 0)) (fun t => t.status.toWord == 0xff04) = true := by
  decide
theorem test_utlb_load : nextIs (exec (.lw 1 2 0) (start 0x00400010 0)) (fun t =>
    t.cause.exc == 2 && t.pc == 0x80000000 && t.badvaddr == 0x00400010 && t.tlbhi.toWord == 0x00400000 &&
    t.context.toWord == 0x1000) = true := by decide
theorem test_utlb_store : traps (exec (.sw 1 2 0) (start 0x00400010 0)) 3 0x80000000 = true := by decide
theorem test_mod : traps (exec (.sw 1 2 0) (startPage true false 0x00400010 0)) 1 0x80000080 = true := by decide
theorem test_load_mapped : leaves (exec (.lw 1 2 4) (startPage true false 0x00400000 0)) 2 0x55667788 = true := by
  decide
theorem test_store_invalid : traps (exec (.sw 1 2 0) (startPage false true 0x00400010 0)) 3 0x80000080 = true := by
  decide
theorem test_kseg2_miss : nextIs (exec (.lw 1 2 0) (start 0xc0400010 0)) (fun t =>
    t.cause.exc == 2 && t.pc == 0x80000080 && t.context.toWord == 0x101000) = true := by decide
theorem test_fetch_misaligned : nextIs (step { start 0 0 with pc := 0x80003002 }) (fun t =>
    t.cause.exc == 4 && t.epc == 0x80003002 && t.badvaddr == 0x80003002) = true := by decide
theorem test_fetch_bus_error : nextIs (step { start 0 0 with pc := 0x9ffffffc }) (fun t => t.cause.exc == 6) = true := by
  decide
theorem test_interrupt : nextIs (step { startStatus 0x401 0 0 with irq := 1 }) (fun t =>
    t.epc == 0x80002000 && t.cause.exc == 0 && t.status.toWord == 0x404 && t.pc == 0x80000080) = true := by decide
theorem test_interrupt_masked : nextIs (step { startStatus 0x801 0 0 with irq := 1 }) (fun t => t.pc == 0x80002004) = true := by
  decide
theorem test_lines_wake : nextIs (step { start 0 0 with idle := true, inputs := [[.lines 1, .lines 0]] }) (fun t =>
    !t.idle && t.pc == 0x80002004) = true := by decide
theorem test_step_fetches : nextIs (step ((start 1 2).withFetchWord 32 0x00221821)) (fun t => readReg t 3 == 3) = true := by
  decide
theorem test_step_from_reset : nextIs (step (State.reset.withFetchWord 32 0x24020007)) (fun t =>
    readReg t 2 == 7 && t.pc == 0xbfc00004) = true := by decide
theorem test_soft_reset : nextIs (step { start 0 0 with inputs := [[.softReset]] }) (fun t =>
    t.pc == 0xbfc00180 && t.status.s && t.status.b && t.cause.exc == 6) = true := by decide

/-! ## Witnesses: for each statement with hypotheses, a state and operands that meet them

A statement that is one `if`, or whose clauses hold without hypotheses, has none. -/

theorem nextIs_spec {r : Result} {p : State → Bool} (h : nextIs r p = true) : ∃ t, r = .next t ∧ p t = true := by
  cases r with
  | next t => exact ⟨t, rfl, h⟩
  | fault _ => cases h
  | refused _ => cases h

/-- A state about to run the word `w` at the last word of memory, physical 0xffffc. -/
def atWord (w : Word) (s : State) : State :=
  { s with pc := 0x800ffffc, npc := 0x80100000, mem := s.mem.write32 0xffffc w }

/-- The state the fetch sees. -/
def seen (s : State) : State := wake (beginStep s)

theorem witness_EncodeOfDecode : decode 0x00221820#32 = .instr (.add 1 2 3) := by decide

theorem aboutToRun_atWord {w : Word} (h : fetchAddress (seen (atWord w (start 1 2))) = .ok 0xffffc) :
    AboutToRun (atWord w (start 1 2)) (seen (atWord w (start 1 2))) 0xffffc := ⟨⟨rfl, rfl, rfl, by rfl⟩, h⟩

theorem witness_StepRunsDecodedInstruction :
    AboutToRun (atWord 0x00221821 (start 1 2)) (seen (atWord 0x00221821 (start 1 2))) 0xffffc ∧
      decodeBytes (fetchBytes (seen (atWord 0x00221821 (start 1 2))).mem 0xffffc) = .instr (.addu 1 2 3) :=
  ⟨aboutToRun_atWord (by decide), by decide⟩

theorem witness_StepRunsStoredWord : (start 1 2).inputs = [] ∧ (start 1 2).shutdown = false ∧
    asleep (start 1 2) = false ∧ interruptPending (start 1 2) = false ∧ fetchAddress (start 1 2) = .ok 0x2000 := by decide

/-- The word `w` at the fetch address decodes to `d`. -/
abbrev AboutToRunAs (w : Word) (d : Decoded) : Prop :=
  AboutToRun (atWord w (start 1 2)) (seen (atWord w (start 1 2))) 0xffffc ∧
    decodeBytes (fetchBytes (seen (atWord w (start 1 2))).mem 0xffffc) = d

theorem witness_WordsThatAreNoInstruction :
    AboutToRunAs 0x0000000e .reserved ∧ AboutToRunAs 0x00221860 .mustBeZero ∧ AboutToRunAs 0x0000004f .syncNotZero ∧
      AboutToRunAs 0x42000018 (.copUndefined 0) ∧ AboutToRunAs 0x44200000 (.copUndefined 1) :=
  ⟨⟨aboutToRun_atWord (by decide), by decide⟩, ⟨aboutToRun_atWord (by decide), by decide⟩,
    ⟨aboutToRun_atWord (by decide), by decide⟩, ⟨aboutToRun_atWord (by decide), by decide⟩,
    aboutToRun_atWord (by decide), by decide⟩

/-- The start at another pc, with STATUS = `v`. -/
def startAt (pc v : Word) : State := { startStatus v 0 0 with pc := pc, npc := pc + 4 }

theorem aboutToFetch_startAt (pc : Word) : AboutToFetch (startAt pc 0) (startAt pc 0) := ⟨rfl, rfl, rfl, by rfl⟩

/-- The same with another TLB, TLBHI.ASID and configuration. -/
def startAtWith (pc : Word) (tlb : Tlb) (asid : BitVec 6) (cfg : Config) : State :=
  { startAt pc 0 with tlb := tlb, tlbhi := ⟨0, asid⟩, cfg := cfg }

theorem aboutToFetch_startAtWith (pc : Word) (tlb : Tlb) (asid : BitVec 6) (cfg : Config) :
    AboutToFetch (startAtWith pc tlb asid cfg) (startAtWith pc tlb asid cfg) := ⟨rfl, rfl, rfl, by rfl⟩

/-- A misaligned pc, one with bit 31 set in user mode; a pc that nothing matches at the end of kuseg and at the start of kseg2;
an invalid entry, two entries; a pc that nothing and one that a device answers. -/
theorem witness_FetchExceptions :
    (AboutToFetch (startAt 0x80003002 0) (startAt 0x80003002 0) ∧ (startAt 0x80003002 0).pc.toNat % 4 ≠ 0 ∧
      fetchAddress (startAt 0x80003002 0) = .raise (.adel 0x80003002)) ∧
    (AboutToFetch (startAt 0x80000000 2) (startAt 0x80000000 2) ∧ (startAt 0x80000000 2).status.kuc = true ∧
      (startAt 0x80000000 2).pc.msb = true) ∧
    (AboutToFetch (startAt 0x7ffffffc 0) (startAt 0x7ffffffc 0) ∧ (startAt 0x7ffffffc 0).pc.toNat % 4 = 0 ∧
      ∀ i, (tlbAt (startAt 0x7ffffffc 0).tlb i).hits (pageOf 0x7ffffffc) (startAt 0x7ffffffc 0).tlbhi.asid = false) ∧
    (AboutToFetch (startAt 0xc0000000 0) (startAt 0xc0000000 0) ∧ (startAt 0xc0000000 0).status.kuc = false ∧
      ∀ i, (tlbAt (startAt 0xc0000000 0).tlb i).hits (pageOf 0xc0000000) (startAt 0xc0000000 0).tlbhi.asid = false) ∧
    (∀ s, s = startAtWith 0x00400ffc (startPage false true 0 0).tlb 1 testConfig →
      AboutToFetch s s ∧ OnlyHit s s.pc 3 ∧ (tlbAt s.tlb 3).lo.v = false) ∧
    (∀ s, s = startAtWith 0x00400000 twinTlb 0 testConfig →
      AboutToFetch s s ∧ (6#6 : Slot) ≠ 7#6 ∧ (tlbAt s.tlb 6).hits (pageOf s.pc) s.tlbhi.asid = true ∧
        (tlbAt s.tlb 7).hits (pageOf s.pc) s.tlbhi.asid = true) ∧
    (AboutToFetch (startAt 0x9ffffffc 0) (startAt 0x9ffffffc 0) ∧
      Machine.translate (startAt 0x9ffffffc 0) 0x9ffffffc .fetch 4 true = .ok 0x1ffffffc ∧
      physAt (startAt 0x9ffffffc 0).cfg 0x1ffffffc = none) ∧
    (AboutToFetch (startAtWith 0xbfe00ffc quietTlb 0 deviceConfig) (startAtWith 0xbfe00ffc quietTlb 0 deviceConfig) ∧
      Machine.translate (startAtWith 0xbfe00ffc quietTlb 0 deviceConfig) 0xbfe00ffc .fetch 4 true = .ok 0x1fe00ffc ∧
      physAt deviceConfig 0x1fe00ffc = some .device) :=
  ⟨⟨aboutToFetch_startAt _, by decide⟩, ⟨⟨rfl, rfl, rfl, by rfl⟩, by decide⟩, ⟨aboutToFetch_startAt _, by decide⟩,
    ⟨aboutToFetch_startAt _, by decide⟩, fun _ h => h ▸ ⟨aboutToFetch_startAtWith .., by decide⟩,
    fun _ h => h ▸ ⟨aboutToFetch_startAtWith .., by decide⟩, ⟨aboutToFetch_startAt _, by decide⟩,
    aboutToFetch_startAtWith .., by decide⟩

/-- The start with STATUS = `v` and line 5 active. -/
def startLine (v : Word) : State := { startStatus v 0 0 with irq := 0x20 }

theorem witness_InterruptTakenBeforeFetch :
    (∀ v, startLine v = wake (beginStep (startLine v)) ∧ (beginStep (startLine v)).shutdown = false ∧
      asleep (beginStep (startLine v)) = false) ∧
    ((startLine 0x8001).status.iec = true ∧
      ∃ n, (startLine 0x8001).irq.getLsbD n = true ∧ (startLine 0x8001).status.h.getLsbD n = true) ∧
    (startLine 0x8000).status.iec = false :=
  ⟨fun _ => ⟨rfl, rfl, rfl⟩, ⟨by decide, 5, by decide⟩, by decide⟩

theorem witness_SleepAndShutdown :
    ({ start 0 0 with idle := true }.inputs = [] ∧ { start 0 0 with idle := true }.shutdown = false ∧
      { start 0 0 with idle := true }.irq = 0#6) ∧
    { startLine 0 with idle := true }.irq ≠ 0#6 ∧
    ({ start 0 0 with shutdown := true, inputs := [[.nmi]] }.shutdown = true ∧
      ∀ events, { start 0 0 with shutdown := true, inputs := [[.nmi]] }.inputs.head? = some events →
        ∀ e ∈ events, ∀ tlb, e ≠ .hardReset tlb) := by
  refine ⟨by decide, by decide, by decide, fun events h e he tlb => ?_⟩
  cases h
  simp only [List.mem_singleton] at he
  subst he
  simp

theorem witness_TrapRecordsTheEvent :
    (Exception.cpu 3).ce 0 = 3#2 ∧ (Exception.adel 0x80000001).badAddress = some 0x80000001#32 ∧
      Exception.ovf.badAddress = none := by decide

theorem witness_TrapGoesToVector :
    memAddress (start 0 0) 0x7ffffffc .load 4 true = .raise (.tlbl 0x7ffffffc true) ∧
      memAddress (start 0 0) 0xc0000000 .store 4 true = .raise (.tlbs 0xc0000000 false) := by decide

theorem witness_ReturnSequence : (start 1 2).inDelay = false ∧ (start 1 2).status.kuc = false := by decide

theorem witness_DivideIsExact :
    (readReg (start 0x80000000 1) 2 ≠ 0#32 ∧
      ¬ (readReg (start 0x80000000 1) 1 = 0x80000000#32 ∧ readReg (start 0x80000000 1) 2 = 0xffffffff#32)) ∧
    readReg (start 0x80000000 0xffffffff) 2 ≠ 0#32 := by decide

theorem witness_DivideParameters :
    (readReg (start 7 0) 2 = 0#32 ∧ (start 7 0).cfg.divZero = .unpredictable) ∧
    (readReg { start 7 0 with cfg := { testConfig with divZero := .trapBp } } 2 = 0#32 ∧
      { start 7 0 with cfg := { testConfig with divZero := .trapBp } }.cfg.divZero = .trapBp) ∧
    (readReg (start 0x80000000 0xffffffff) 1 = 0x80000000#32 ∧
      readReg (start 0x80000000 0xffffffff) 2 = 0xffffffff#32) := by decide

theorem witness_JumpsGoToTarget : (startBranch 1 2).inDelay = false ∧ (31#5 : Reg) ≠ 25#5 := by decide

theorem witness_ConditionalBranches : (startBranch 1 2).inDelay = false ∧
    0x80000ffc#32 = BitVec.ofInt 32 ((startBranch 1 2).pc.toNat + 4 + (0xfffe#16).toInt * 4) := by decide

theorem witness_LinkingBranches : (startBranch 1 2).inDelay = false ∧ (30#5 : Reg) ≠ 31#5 ∧
    0x8000100c#32 = BitVec.ofInt 32 ((startBranch 1 2).pc.toNat + 4 + (2#16).toInt * 4) := by decide

theorem witness_BranchStops : { startBranch 1 2 with inDelay := true }.inDelay = true ∧
    (Instr.jalr 25 31).wellFormed = true ∧ (Instr.bltzal 30 1).wellFormed = true ∧ (Instr.j 1).wellFormed = true := by decide

theorem witness_DirectMappedSegments : (start 0 0).status.kuc = false ∧
    [0x80000000#32, 0x9ffffffc#32, 0xa0000000#32, 0xbffffffc#32].all (fun va =>
      va.toNat % 4 == 0 && decide (0x80000000 ≤ va.toNat) && decide (va.toNat < 0xc0000000)) = true := by decide

theorem witness_AddressAndBusErrors :
    (0x7fffffff#32).toNat % 2 ≠ 0 ∧
    ((startStatus 2 0 0).status.kuc = true ∧ 0x80000000 ≤ (0x80000000#32).toNat) ∧
    (Machine.translate (startDevice 0 0) 0xa0100000 .load 4 true = .ok 0x100000 ∧
      physAt deviceConfig 0x100000 = none) ∧
    (Machine.translate (startDevice 0 0) 0xbfe00000 .load 4 true = .ok 0x1fe00000 ∧
      physAt deviceConfig 0x1fe00000 = some .device) ∧
    (Machine.translate (startDevice 0 0) 0xa00ffffc .load 4 true = .ok 0xffffc ∧
      physAt deviceConfig 0xffffc = some .memory) := by decide

theorem witness_TlbLookup :
    ((∀ i, (tlbAt (start 0 0).tlb i).hits (pageOf 0x7ffffffc) (start 0 0).tlbhi.asid = false) ∧
      (∀ i, (tlbAt (start 0 0).tlb i).hits (pageOf 0xc0000000) (start 0 0).tlbhi.asid = false) ∧
      (start 0 0).status.kuc = false) ∧
    (OnlyHit (startPage false true 0 0) 0x00400ffc 3 ∧ (tlbAt (startPage false true 0 0).tlb 3).lo.v = false) ∧
    (OnlyHit (startPage true false 0 0) 0x00400000 3 ∧ (tlbAt (startPage true false 0 0).tlb 3).lo.v = true ∧
      (tlbAt (startPage true false 0 0).tlb 3).lo.d = false) ∧
    (OnlyHit (startPage true true 0 0) 0x00400ffc 3 ∧ (tlbAt (startPage true true 0 0).tlb 3).lo.v = true ∧
      (tlbAt (startPage true true 0 0).tlb 3).lo.d = true) ∧
    ((6#6 : Slot) ≠ 7#6 ∧ (tlbAt twinTlb 6).hits (pageOf 0x00400000) 0 = true ∧
      (tlbAt twinTlb 7).hits (pageOf 0x00400000) 0 = true) := by decide

theorem witness_LoadsReadBigEndian :
    0x800fffff#32 = BitVec.ofInt 32 ((readReg (startMem 0x80100000 0) 1).toNat + (0xffff#16).toInt) ∧
    memAddress (startMem 0x80100000 0) 0x800fffff .load 1 true = .ok 0xfffff ∧
    memAddress (startMem 0x80100000 0) 0x800ffffe .load 2 true = .ok 0xffffe ∧
    memAddress (startMem 0x80100000 0) 0x800ffffc .load 4 true = .ok 0xffffc := by decide

theorem witness_StoresWriteBigEndian :
    memAddress (startMem 0x80100000 0) (effectiveAddress (startMem 0x80100000 0) 1 0xffff) .store 1 true = .ok 0xfffff ∧
    memAddress (startMem 0x80100000 0) (effectiveAddress (startMem 0x80100000 0) 1 0xfffe) .store 2 true = .ok 0xffffe ∧
    memAddress (startMem 0x80100000 0) (effectiveAddress (startMem 0x80100000 0) 1 0xfffc) .store 4 true = .ok 0xffffc := by
  decide

/-- Each of the four rows of the tables; `M` and `r` are then the bytes the hypotheses name. -/
theorem witness_PartialLoadTables :
    [(0#16, 0x1000#32), (1#16, 0x1001#32), (2#16, 0x1002#32), (3#16, 0x1003#32)].all (fun p =>
      memAddress (startMem 0x80001000 0) (effectiveAddress (startMem 0x80001000 0) 1 p.1) .load 4 false == .ok p.2) = true := by
  decide

theorem witness_PartialStoreTables :
    [(0#16, 0x1000#32), (1#16, 0x1001#32), (2#16, 0x1002#32), (3#16, 0x1003#32)].all (fun p =>
      memAddress (startMem 0x80001000 0) (effectiveAddress (startMem 0x80001000 0) 1 p.1) .store 4 false == .ok p.2) = true := by
  decide

/-- The four bytes cross from one aligned word to the next. -/
theorem witness_UnalignedLoadIdiom : (2#5 : Reg) ≠ 1#5 ∧ (2#5 : Reg) ≠ 0#5 ∧
    effectiveAddress (startMem 0x80001003 0) 1 3 = effectiveAddress (startMem 0x80001003 0) 1 0 + 3#32 ∧
    memAddress (startMem 0x80001003 0) (effectiveAddress (startMem 0x80001003 0) 1 0) .load 4 false = .ok 0x1003#32 ∧
    memAddress (startMem 0x80001003 0) (effectiveAddress (startMem 0x80001003 0) 1 0 + 3#32) .load 4 false =
      .ok (0x1003#32 + 3#32) := by decide

theorem witness_UnalignedStoreIdiom :
    effectiveAddress (startMem 0x80001003 0) 1 3 = effectiveAddress (startMem 0x80001003 0) 1 0 + 3#32 ∧
    memAddress (startMem 0x80001003 0) (effectiveAddress (startMem 0x80001003 0) 1 0) .store 4 false = .ok 0x1003#32 ∧
    memAddress (startMem 0x80001003 0) (effectiveAddress (startMem 0x80001003 0) 1 0 + 3#32) .store 4 false =
      .ok (0x1003#32 + 3#32) := by decide

/-- The start with the two matching entries, `x1` naming their page. -/
def startTwin : State := { start 0x00400000 0 with tlb := twinTlb }

/-- Each kind of access that raises, meets two entries, or reaches a device (at its first and last bytes); and the cases of
LL and SC. -/
theorem witness_FailedAccesses :
    ([(1, true), (2, true), (4, true), (4, false)].all fun p =>
      memAddress (start 0x9ffffffc 0) (effectiveAddress (start 0x9ffffffc 0) 1 0) .load p.1 p.2 == .raise .dbe &&
      memAddress (start 0x9ffffffc 0) (effectiveAddress (start 0x9ffffffc 0) 1 0) .store p.1 p.2 == .raise .dbe &&
      memAddress startTwin (effectiveAddress startTwin 1 0) .load p.1 p.2 == .machineCheck &&
      memAddress startTwin (effectiveAddress startTwin 1 0) .store p.1 p.2 == .machineCheck &&
      memAddress (startDevice 0xbfe00000 0) (effectiveAddress (startDevice 0xbfe00000 0) 1 0) .load p.1 p.2 ==
        .device 0x1fe00000 &&
      memAddress (startDevice 0xbfe00000 0) (effectiveAddress (startDevice 0xbfe00000 0) 1 0) .store p.1 p.2 ==
        .device 0x1fe00000) = true ∧
    ([(1, true, 0xbfe00fff#32), (2, true, 0xbfe00ffe#32), (4, true, 0xbfe00ffc#32), (4, false, 0xbfe00fff#32)].all fun p =>
      memAddress (startDevice 0 0) p.2.2 .load p.1 p.2.1 == .device (p.2.2 - 0xa0000000)) = true ∧
    (start 0x80001002 0).cfg.hasLLSC = true ∧
    memAddress (start 0x80001002 0) (effectiveAddress (start 0x80001002 0) 1 0) .load 4 true = .raise (.adel 0x80001002) ∧
    Machine.translate (start 0x80001002 0) (effectiveAddress (start 0x80001002 0) 1 0) .store 4 true =
      .raise (.ades 0x80001002) ∧
    Machine.translate startTwin (effectiveAddress startTwin 1 0) .store 4 true = .machineCheck ∧
    (Machine.translate (startDevice 0xbfe00000 0) (effectiveAddress (startDevice 0xbfe00000 0) 1 0) .store 4 true =
      .ok 0x1fe00000 ∧ physAt (startDevice 0xbfe00000 0).cfg 0x1fe00000 = some .device) ∧
    (Machine.translate (start 0x9ffffffc 0) (effectiveAddress (start 0x9ffffffc 0) 1 0) .store 4 true = .ok 0x1ffffffc ∧
      physAt (start 0x9ffffffc 0).cfg 0x1ffffffc = none) := by decide

theorem witness_LoadLinkedStoreConditional :
    (startMem 0x80001000 0).cfg.hasLLSC = true ∧
    memAddress (startMem 0x80001000 0) (effectiveAddress (startMem 0x80001000 0) 1 0) .load 4 true = .ok 0x1000 ∧
    memAddress { startMem 0x80001000 0 with llbit := true, lladdr := 0x1000 }
      (effectiveAddress { startMem 0x80001000 0 with llbit := true, lladdr := 0x1000 } 1 0) .store 4 true = .ok 0x1000 := by
  decide

/-- A reserved word of memory at 0x1000 and one of the device at 0x1fe00ffc: their first and last bytes, the bytes before and
after them (nothing answers after the device), and the last byte of memory. The device's bytes are not memory's. -/
theorem witness_OutsideWriteBreaksReservation :
    [(0x1000#32, 0x1000#32, some .memory, false), (0x1000#32, 0x1003#32, some .memory, false),
      (0x1000#32, 0x0fff#32, some .memory, true), (0x1000#32, 0x1004#32, some .memory, true),
      (0x1000#32, 0xfffff#32, some .memory, true), (0x1fe00ffc#32, 0x1fe00ffc#32, some .device, false),
      (0x1fe00ffc#32, 0x1fe00fff#32, some .device, false), (0x1fe00ffc#32, 0x1fe00ffb#32, some .device, true),
      (0x1fe00ffc#32, 0x1fe01000#32, none, true)].all (fun (p : Word × Word × Option PhysKind × Bool) =>
      physAt deviceConfig p.2.1 == p.2.2.1 &&
      (applyExternal { startDevice 0 0 with llbit := true, lladdr := p.1 } (.busWrite p.2.1 5)).llbit == p.2.2.2 &&
      ((applyExternal { startDevice 0 0 with llbit := true, lladdr := p.1 } (.busWrite p.2.1 5)).mem.read p.2.1.toNat == 5) ==
        (p.2.2.1 == some .memory)) = true := by decide

theorem witness_VersionDependentInstructions : testConfig.version = .v2 ∧
    { testConfig with version := .v1 }.version = .v1 ∧ { testConfig with version := .v1 }.llscOnV1 = false := by decide

theorem witness_KernelInstructionsInUserMode :
    (start 0 0).status.kuc = false ∧
    (∀ s, s = { startStatus 0x10000002 0 0 with cfg := { testConfig with userCp0 := .allowed } } →
      s.status.kuc = true ∧ s.status.copEnabled 0#2 = true ∧ s.cfg.userCp0 = .allowed) ∧
    ((startStatus 2 0 0).status.kuc = true ∧ (startStatus 2 0 0).status.copEnabled 0#2 = false) ∧
    ((startStatus 0x10000002 0 0).status.kuc = true ∧ (startStatus 0x10000002 0 0).status.copEnabled 0#2 = true ∧
      (startStatus 0x10000002 0 0).cfg.userCp0 = .cpuException) :=
  ⟨by decide, fun _ h => h ▸ by decide, by decide⟩

theorem witness_Mfc0Reads : cp0Usable (start 0 0) = true ∧
    (0#3 : BitVec 3) = (if (start 0 0).cfg.version = .v2 then 0#3 else 0#3) ∧
    (1#3 : BitVec 3) = (if (start 0 0).cfg.version = .v2 then 1#3 else 0#3) := by decide

/-- Every register but RANDOM; STATUS with the value of V-K1, and with T written 1 where it is 1. -/
theorem witness_Mtc0Writes : cp0Usable (start 0xffc4ffff 0) = true ∧
    (∀ p ∈ [(0#5, Cp0Reg.index), (2#5, .tlblo), (4#5, .context), (8#5, .badvaddr), (10#5, .tlbhi), (12#5, .status),
      (13#5, .cause), (14#5, .epc), (15#5, .prid)], cp0Reg (start 0xffc4ffff 0).cfg p.1 0 = some p.2 ∧ p.2 ≠ .random) ∧
    ((0xffc4ffff#32).getLsbD 17 = false ∧ (0xffc4ffff#32).getLsbD 16 = false ∧ (0xffc4ffff#32).getLsbD 21 = false ∧
      (0xffc4ffff#32).getLsbD 20 = false ∧ (0xffc4ffff#32).getLsbD 19 = false) ∧
    ((0x00200000#32).getLsbD 21 = true ∧ (startStatus 0x00200000 0 0).status.t = true) := by decide

theorem witness_ReadbackMasks : cp0Reg (start 0xffc4ffff 0).cfg 12 0 = some .status ∧ cp0Usable (start 0xffc4ffff 0) = true ∧
    nextIs (exec (.mtc0 1 12 0) (start 0xffc4ffff 0)) (fun t => !t.shutdown) = true := by decide

theorem witness_Mtc0Stops : cp0Usable (start 0x00020000 0) = true ∧ (readReg (start 0x00020000 0) 1).getLsbD 17 = true ∧
    (readReg (start 0x00010000 0) 1).getLsbD 16 = true ∧
    ((readReg (start 0x00200000 0) 1).getLsbD 17 = false ∧ (readReg (start 0x00200000 0) 1).getLsbD 16 = false ∧
      (readReg (start 0x00200000 0) 1).getLsbD 21 = true ∧ (start 0x00200000 0).status.t = false) ∧
    (9#5 : Reg) ∉ [0#5, 1#5, 2#5, 4#5, 8#5, 10#5, 12#5, 13#5, 14#5, 15#5] ∧
    ((start 0 0).cfg.version = .v2 ∧ (3#3 : BitVec 3) ≠ 0#3 ∧ ¬ ((15#5 : Reg) = 15#5 ∧ ((3#3 : BitVec 3) = 1#3 ∨
      (3#3 : BitVec 3) = 2#3))) := by decide

theorem witness_TlbrReadsEntry : cp0Usable (start 0 0) = true ∧ cp0Usable (startStatus 2 0 0) = false := by decide

/-- V-K14 in slot 0, V-K20, and V-K21. -/
theorem witness_TlbwiWritesEntry :
    (∀ j, j ≠ 0#6 → (tlbAt quietTlb j).clashes ⟨TlbHi.ofWord 0x00400040, TlbLo.ofWord 0x00050600⟩ = false) ∧
    (∀ j, j ≠ (startTlb 0x00400040 0x00070000 5).index.slot → (tlbAt (startTlb 0x00400040 0x00070000 5).tlb j).clashes
      ⟨(startTlb 0x00400040 0x00070000 5).tlbhi, (startTlb 0x00400040 0x00070000 5).tlblo⟩ = false) ∧
    ∃ j, j ≠ (startTlb 0x00400040 0x00070000 9).index.slot ∧ (tlbAt (startTlb 0x00400040 0x00070000 9).tlb j).clashes
      ⟨(startTlb 0x00400040 0x00070000 9).tlbhi, (startTlb 0x00400040 0x00070000 9).tlblo⟩ = true :=
  ⟨by decide, by decide, 5, by decide⟩

/-- No clash; a clash in slot 7, the last of the low ones; one in slot 8, the first that can be drawn. -/
theorem witness_TlbwrSparesLowSlots : cp0Usable (start 0 0) = true ∧
    (∀ j, (tlbAt (start 0 0).tlb j).clashes ⟨(start 0 0).tlbhi, (start 0 0).tlblo⟩ = false) ∧
    (∀ i ∈ [7#6, 8#6], ∀ s, s = { start 0 0 with tlb := tlbSet quietTlb i ⟨⟨0, 0⟩, ⟨0, false, false, false, false⟩⟩ } →
      cp0Usable s = true ∧ (tlbAt s.tlb i).clashes ⟨s.tlbhi, s.tlblo⟩ = true) :=
  ⟨by decide, by decide, by rintro i hi s rfl; revert i; decide⟩

theorem witness_TlbpProbes : cp0Usable (startTlb 0x00400080 0 0) = true ∧
    (∀ j, (tlbAt (startTlb 0x00400080 0 0).tlb j).hits (startTlb 0x00400080 0 0).tlbhi.vpage
      (startTlb 0x00400080 0 0).tlbhi.asid = false) ∧
    (∀ j, (tlbAt (startTlb 0x00400040 0 0).tlb j).hits (startTlb 0x00400040 0 0).tlbhi.vpage
      (startTlb 0x00400040 0 0).tlbhi.asid = true ↔ j = 5#6) ∧
    ((6#6 : Slot) ≠ 7#6 ∧ (tlbAt twinTlb 6).hits (TlbHi.ofWord 0x00400040).vpage (TlbHi.ofWord 0x00400040).asid = true ∧
      (tlbAt twinTlb 7).hits (TlbHi.ofWord 0x00400040).vpage (TlbHi.ofWord 0x00400040).asid = true) := by decide

theorem witness_RfeAndWait : cp0Usable (start 0 0) = true := by decide

/-- A step that stores: `sw $2,0($1)`. -/
theorem witness_StepKeepsMemoryCanonical : MemoryCanonical (atWord 0xac220000 (startMem 0x80001000 5)) ∧
    ∃ t, step (atWord 0xac220000 (startMem 0x80001000 5)) = .next t ∧ (t.mem.read32 0x1000 == 5) = true :=
  ⟨by unfold MemoryCanonical; decide, nextIs_spec (p := fun t => t.mem.read32 0x1000 == 5) (by decide)⟩

theorem tlbAt_quietTlb (i : Slot) : tlbAt quietTlb i = quietEntry i.toNat := by
  simp [tlbAt, quietTlb]

theorem quietTlb_noDup : TlbNoDup quietTlb := by
  intro i j h
  have hi := i.isLt
  have hj := j.isLt
  have hn : i.toNat ≠ j.toNat := fun e => h (BitVec.eq_of_toNat_eq e)
  rw [tlbAt_quietTlb, tlbAt_quietTlb]
  simp only [quietEntry, TlbEntry.clashes, Bool.and_eq_false_iff, beq_eq_false_iff_ne]
  left
  intro e
  have := congrArg BitVec.toNat e
  simp only [BitVec.toNat_ofNat] at this
  omega

theorem witness_ResetState : TlbNoDup quietTlb := quietTlb_noDup

/-- A step that writes the TLB: `tlbwi`, V-K14. -/
theorem witness_StepKeepsTlbSound : TlbSound (atWord 0x42000002 { startTlb 0x00400040 0x00050600 5 with tlb := quietTlb }) ∧
    ∃ t, step (atWord 0x42000002 { startTlb 0x00400040 0x00050600 5 with tlb := quietTlb }) = .next t ∧
      (tlbAt t.tlb 5 == pageEntry) = true :=
  ⟨⟨quietTlb_noDup, fun _ h => by cases h⟩, nextIs_spec (p := fun t => tlbAt t.tlb 5 == pageEntry) (by decide)⟩

/-- A step that branches. -/
theorem witness_StepKeepsFlowSound : FlowSound (atWord 0x1000ffff (start 0 0)) ∧
    ∃ t, step (atWord 0x1000ffff (start 0 0)) = .next t ∧ t.inDelay = true :=
  ⟨fun _ => rfl, nextIs_spec (p := fun t => t.inDelay) (by decide)⟩

/-- User mode: the page at 0x00400000 is physical page 1, valid and dirty; pc lies in it, and so does `[$1]`. -/
def startUser (w : Nat) : State :=
  State.withFetchWord { startPage true true 0x00400008 0xaabbccdd with
    status := Status.ofWord 2, pc := 0x00400ffc, npc := 0x00401000 } 32 w

theorem witness_UserModeIsConfined : (beginStep (startUser 0xac220000)).status.kuc = true ∧
    cp0Usable (beginStep (startUser 0xac220000)) = false ∧ ∃ t, step (startUser 0xac220000) = .next t ∧ t.status.kuc = true :=
  ⟨by decide, by decide, nextIs_spec (p := fun t => t.status.kuc) (by decide)⟩

theorem witness_UserStoresStayInMappedPages : (beginStep (startUser 0xac220000)).status.kuc = true ∧
    ∃ t, step (startUser 0xac220000) = .next t ∧
      (t.mem.read 0x1008 != (beginStep (startUser 0xac220000)).mem.read 0x1008) = true :=
  ⟨by decide, nextIs_spec (p := fun t => t.mem.read 0x1008 != (beginStep (startUser 0xac220000)).mem.read 0x1008) (by decide)⟩

end Sys2Proof.Tests
end

/-! ## The scope statements (spec/00_scope.md R11): a step runs the word it fetches

The decoder gives every instruction back from its word, format by format; with what a step about to fetch does, that settles
both statements about the step. -/

namespace Sys2Proof

/-! ### Which table decodes each primary opcode that has one (spec/30_encoding.md R145) -/

theorem decode_of_special {w : Word} (h : opOf w = 0x00#6) : decode w = decodeSpecial w := by simp [decode, h]

theorem decode_of_regimm {w : Word} (h : opOf w = 0x01#6) : decode w = decodeRegimm w := by simp [decode, h]

theorem decode_of_cop0 {w : Word} (h : opOf w = 0x10#6) : decode w = decodeCop0 w := by simp [decode, h]

theorem decode_of_cop1 {w : Word} (h : opOf w = 0x11#6) : decode w = decodeCopZ 1 cop1Forms w := by simp [decode, h]

theorem decode_of_cop2 {w : Word} (h : opOf w = 0x12#6) : decode w = decodeCopZ 2 cop2Forms w := by simp [decode, h]

theorem decode_of_cop3 {w : Word} (h : opOf w = 0x13#6) : decode w = decodeCopZ 3 cop3Forms w := by simp [decode, h]

/-! ### The seven forms of coprocessors 1, 2 and 3, whatever the coprocessor (spec/45_coprocessor.md R353 to R359) -/

section CopForms
variable (z : BitVec 2) (f : CopForms) (op : BitVec 6) (rt rd : Reg) (sel : BitVec 3) (imm : Half)

@[simp] theorem decodeCopZ_mfc : decodeCopZ z f (encMove op 0x00#5 rt rd sel) = .instr (f.mfc rt rd sel) := by
  simp [decodeCopZ, copBitOf_encMove, strictCop]

@[simp] theorem decodeCopZ_mtc : decodeCopZ z f (encMove op 0x04#5 rt rd sel) = .instr (f.mtc rt rd sel) := by
  simp [decodeCopZ, copBitOf_encMove, strictCop]

@[simp] theorem decodeCopZ_cfc : decodeCopZ z f (encMove op 0x02#5 rt rd 0#3) = .instr (f.cfc rt rd) := by
  simp [decodeCopZ, copBitOf_encMove, strictCop]

@[simp] theorem decodeCopZ_ctc : decodeCopZ z f (encMove op 0x06#5 rt rd 0#3) = .instr (f.ctc rt rd) := by
  simp [decodeCopZ, copBitOf_encMove, strictCop]

@[simp] theorem decodeCopZ_bcf : decodeCopZ z f (encI op 0x08#5 0x00#5 imm) = .instr (f.bcf imm) := by
  simp [decodeCopZ, copBitOf_encI]

@[simp] theorem decodeCopZ_bct : decodeCopZ z f (encI op 0x08#5 0x01#5 imm) = .instr (f.bct imm) := by
  simp [decodeCopZ, copBitOf_encI]

@[simp] theorem decodeCopZ_cop (cofun : BitVec 25) : decodeCopZ z f (encCop op cofun) = .instr (f.cop cofun) := by
  simp [decodeCopZ]

end CopForms

/-! ### Every instruction comes back from its word -/

/-- The decoder reads an instruction's word as the instruction (spec/30_encoding.md R141, R144). The cases are grouped by
format: each goes through the table that decodes the format. -/
theorem decode_encode (i : Instr) : decode (encode i) = .instr i := by
  cases i with
  -- R-type, SPECIAL
  | add | addu | sub | subu | and | or | xor | nor | slt | sltu | sll | srl | sra | sllv | srlv | srav
  | mult | multu | div | divu | mfhi | mthi | mflo | mtlo | jr | jalr =>
    simp [encode, decode_of_special, decodeSpecial, strict]
  -- SPECIAL with a code
  | syscall | brk | sync => simp [encode, decode_of_special, decodeSpecial]
  -- REGIMM
  | bltz | bgez | bltzal | bgezal => simp [encode, decode_of_regimm, decodeRegimm]
  -- J-type
  | j | jal => simp [encode, decode]
  -- I-type, with a field that must be zero
  | blez | bgtz | lui => simp [encode, decode, strict]
  -- I-type
  | beq | bne | addi | addiu | slti | sltiu | andi | ori | xori
  | lb | lbu | lh | lhu | lw | sb | sh | sw | lwl | lwr | swl | swr | ll | sc | cache
  | lwc1 | swc1 | lwc2 | swc2 | lwc3 | swc3 => simp [encode, decode]
  -- coprocessor 0
  | mfc0 | mtc0 => simp [encode, decode_of_cop0, decodeCop0, copBitOf_encMove, strictCop]
  | tlbr | tlbwi | tlbwr | tlbp | rfe | wait => simp [encode, decode_of_cop0, decodeCop0, strictCop]
  -- coprocessors 1 to 3
  | mfc1 | mtc1 | cfc1 | ctc1 | bc1f | bc1t | cop1 => simp [encode, decode_of_cop1, cop1Forms]
  | mfc2 | mtc2 | cfc2 | ctc2 | bc2f | bc2t | cop2 => simp [encode, decode_of_cop2, cop2Forms]
  | mfc3 | mtc3 | cfc3 | ctc3 | bc3f | bc3t | cop3 => simp [encode, decode_of_cop3, cop3Forms]

end Sys2Proof

namespace Sys2Proof.Machine

/-! ### The step on what it fetches -/

/-- Settles O5: a step about to fetch from memory runs the decoded word, and a decoded instruction executes. -/
theorem stepRunsDecodedInstruction : Obligations.StepRunsDecodedInstruction := by
  intro s b pa i ⟨hfetch, hpa⟩ hdecode
  rw [step_of_aboutToFetch hfetch, runNext_of_ok hpa, hdecode]
  rfl

/-- With no pending input nothing happens at the boundary. -/
theorem beginStep_of_inputs_nil {s : State} (h : s.inputs = []) : beginStep s = s := by simp [beginStep, h]

/-- Where the next instruction lies depends neither on memory nor on `idle`. -/
theorem fetchAddress_with_mem_idle (s : State) (m : Memory) (idle : Bool) :
    fetchAddress { s with mem := m, idle := idle } = fetchAddress s := memAddress_congr rfl rfl rfl rfl ..

/-- With no pending input and a fetch from memory at `pa`, the word goes to `pa`. -/
theorem withFetchWord_of_ok {s : State} {pa : Word} (hin : s.inputs = []) (hpa : fetchAddress s = .ok pa) (w : Word) :
    s.withFetchWord 32 w.toNat = { s with mem := s.mem.write32 pa w } := by
  have hw : BitVec.ofNat 32 (w.toNat % 2 ^ 32) = w := by rw [Nat.mod_eq_of_lt w.isLt, BitVec.ofNat_toNat, BitVec.setWidth_eq]
  simp only [State.withFetchWord, beginStep_of_inputs_nil hin, hpa, hw]

/-- Other memory leaves a processor about to run, at the same address. -/
theorem aboutToRun_with_mem {s : State} {pa : Word} (hin : s.inputs = []) (hup : s.shutdown = false)
    (hawake : asleep s = false) (hquiet : interruptPending s = false) (hpa : fetchAddress s = .ok pa) (m : Memory) :
    AboutToRun { s with mem := m } { s with mem := m, idle := false } pa := by
  have hbegin : beginStep { s with mem := m } = { s with mem := m } := beginStep_of_inputs_nil hin
  refine ⟨⟨?_, ?_, ?_, hquiet⟩, ?_⟩
  · rw [hbegin]; rfl
  · rw [hbegin]; exact hup
  · rw [hbegin]; exact hawake
  · rw [fetchAddress_with_mem_idle, hpa]

/-- Settles O6: the stored bytes fetch and decode as the word does, and an instruction's word decodes to the instruction. -/
theorem stepRunsStoredWord : Obligations.StepRunsStoredWord := by
  intro s pa i hin hup hawake hquiet hpa
  rw [withFetchWord_of_ok hin hpa]
  refine stepRunsDecodedInstruction _ _ pa i (aboutToRun_with_mem hin hup hawake hquiet hpa _) ?_
  rw [decodeBytes_fetchBytes_write32, decode_encode]

end Sys2Proof.Machine

/-! ## The state statements (spec/10_state.md): the words the registers read as, the flow of instructions, sleep and
reset

The word of each coprocessor-0 register is said once as the sum of its fields and once as what a write leaves of it; where
coprocessor 0 is usable, `MTC0` is the write of the register its pair names. That every step keeps the flow comes from
what a step can do (`step_next_cases`) and from what the boundary's events keep. -/

namespace Sys2Proof.Machine

/-! ### Each coprocessor-0 word as the sum of its fields (R34 to R44) -/

theorem IndexReg.toWord_toNat (r : IndexReg) : r.toWord.toNat = r.p.toNat * 2 ^ 31 + r.slot.toNat * 2 ^ 8 := by
  simp only [IndexReg.toWord, toNat_append_mul, BitVec.toNat_ofBool, BitVec.toNat_ofNat]
  omega

theorem TlbLo.toWord_toNat (r : TlbLo) :
    r.toWord.toNat = r.ppage.toNat * 2 ^ 12 + r.n.toNat * 2 ^ 11 + r.d.toNat * 2 ^ 10 + r.v.toNat * 2 ^ 9 +
      r.g.toNat * 2 ^ 8 := by
  simp only [TlbLo.toWord, toNat_append_mul, BitVec.toNat_ofBool, BitVec.toNat_ofNat]
  omega

theorem ContextReg.toWord_toNat (r : ContextReg) :
    r.toWord.toNat = r.ptbase.toNat * 2 ^ 21 + r.vshift.toNat * 2 ^ 2 := by
  simp only [ContextReg.toWord, toNat_append_mul, BitVec.toNat_ofNat]
  omega

theorem TlbHi.toWord_toNat (r : TlbHi) : r.toWord.toNat = r.vpage.toNat * 2 ^ 12 + r.asid.toNat * 2 ^ 6 := by
  simp only [TlbHi.toWord, toNat_append_mul, BitVec.toNat_ofNat]
  omega

theorem Status.toWord_toNat (r : Status) :
    r.toWord.toNat = r.cu.toNat * 2 ^ 28 + r.b.toNat * 2 ^ 22 + r.t.toNat * 2 ^ 21 + r.s.toNat * 2 ^ 20 +
      r.n.toNat * 2 ^ 19 + r.h.toNat * 2 ^ 10 + r.f.toNat * 2 ^ 8 + r.kuo.toNat * 2 ^ 5 + r.ieo.toNat * 2 ^ 4 +
      r.kup.toNat * 2 ^ 3 + r.iep.toNat * 2 ^ 2 + r.kuc.toNat * 2 + r.iec.toNat := by
  simp only [Status.toWord, toNat_append_mul, BitVec.toNat_ofBool, BitVec.toNat_ofNat]
  omega

theorem Cause.toWord_toNat (r : Cause) (irq : BitVec 6) :
    (r.toWord irq).toNat = r.bd.toNat * 2 ^ 31 + r.ce.toNat * 2 ^ 28 + irq.toNat * 2 ^ 10 + r.f.toNat * 2 ^ 8 +
      r.exc.toNat * 2 ^ 2 := by
  simp only [Cause.toWord, toNat_append_mul, BitVec.toNat_ofBool, BitVec.toNat_ofNat]
  omega

/-- Settles O45: each register's word is the sum of its fields. -/
theorem registerLayouts : Obligations.RegisterLayouts := fun s =>
  ⟨s.index.toWord_toNat, s.tlblo.toWord_toNat, s.context.toWord_toNat, s.tlbhi.toWord_toNat, s.status.toWord_toNat,
    s.cause.toWord_toNat s.irq⟩

/-! ### Coprocessor usability -/

theorem Status.toWord_cu (r : Status) : r.toWord.extractLsb' 28 4 = r.cu := by
  simp (disch := decide) only [Status.toWord, extract_append_high]
  exact BitVec.extractLsb'_eq_self

/-- The enable bit of coprocessor `z` is STATUS bit 28 + `z` (spec/45_coprocessor.md R351). -/
theorem Status.copEnabled_eq_bit (r : Status) (z : BitVec 2) :
    r.copEnabled z = r.toWord.getLsbD (28 + z.toNat) := by
  rw [Status.copEnabled, ← Status.toWord_cu, BitVec.getLsbD_extractLsb']
  simp [z.isLt]

/-- Coprocessor 0 is usable in kernel mode, and in user mode with both the enable bit and the parameter (R380). -/
theorem cp0Usable_iff (s : State) :
    cp0Usable s = true ↔ s.status.kuc = false ∨ (s.status.copEnabled 0#2 = true ∧ s.cfg.userCp0 = .allowed) := by
  simp [cp0Usable]

theorem cp0Guard_of_usable {s : State} (h : cp0Usable s = true) (go : Result) : cp0Guard s go = go := by
  simp [cp0Guard, h]

theorem cp0Guard_of_unusable {s : State} (h : cp0Usable s = false) (go : Result) :
    cp0Guard s go = .next (trapEntry (.cpu 0#2) s) := by
  simp [cp0Guard, h, raise]

/-- Settles O43: each kernel instruction first asks whether coprocessor 0 is usable. -/
theorem kernelInstructionsInUserMode : Obligations.KernelInstructionsInUserMode := by
  intro s rt rd sel
  refine ⟨s.status.copEnabled_eq_bit, fun hk => (cp0Usable_iff s).2 (.inl hk),
    fun _ hc ha => (cp0Usable_iff s).2 (.inr ⟨hc, ha⟩), fun hk hno => ?_⟩
  have hunusable : cp0Usable s = false := by
    rw [← Bool.not_eq_true, cp0Usable_iff]
    rcases hno with hc | hc <;> simp [hk, hc]
  refine ⟨hunusable, fun i hi => ?_⟩
  fin_cases hi <;> exact cp0Guard_of_unusable hunusable _

/-- Settles O41: SYSCALL and BREAK raise unconditionally, and an instruction of coprocessors 1 to 3 looks at its enable
bit alone. -/
theorem trappingInstructions : Obligations.TrappingInstructions := by
  intro s rs rt rd sel imm cofun code
  refine ⟨s.status.copEnabled_eq_bit, rfl, rfl, fun i hi => ?_, fun i hi => ?_, fun i hi => ?_⟩ <;>
    fin_cases hi <;> rfl

/-! ### What `MFC0` and `MTC0` do where coprocessor 0 is usable -/

theorem exec_mtc0_of_reg {s : State} {rd : Reg} {sel : BitVec 3} {r : Cp0Reg} (hu : cp0Usable s = true)
    (hr : cp0Reg s.cfg rd sel = some r) (rt : Reg) : exec (.mtc0 rt rd sel) s = cp0Write s r (readReg s rt) := by
  change execMtc0 rt rd sel s = _
  rw [execMtc0, cp0Guard_of_usable hu, hr]

theorem exec_mtc0_of_none {s : State} {rd : Reg} {sel : BitVec 3} (hu : cp0Usable s = true)
    (hr : cp0Reg s.cfg rd sel = none) (rt : Reg) :
    exec (.mtc0 rt rd sel) s = .refused (.cp0RegisterUndefined rd sel) := by
  change execMtc0 rt rd sel s = _
  rw [execMtc0, cp0Guard_of_usable hu, hr]

theorem exec_mfc0_of_none {s : State} {rd : Reg} {sel : BitVec 3} (hu : cp0Usable s = true)
    (hr : cp0Reg s.cfg rd sel = none) (rt : Reg) :
    exec (.mfc0 rt rd sel) s = .refused (.cp0RegisterUndefined rd sel) := by
  change execMfc0 rt rd sel s = _
  rw [execMfc0, cp0Guard_of_usable hu, hr]

/-- With select 0 both versions name the same register. -/
theorem cp0Reg_sel_zero (c : Config) (rd : Reg) : cp0Reg c rd 0#3 = cp0RegAt rd 0#3 := by simp [cp0Reg]

/-- The pairs that name no register (R49): a number outside the ten, or a select other than 0 but for CFEAT and IFEAT. -/
theorem cp0RegAt_eq_none_iff : ∀ (rd : Reg) (sel : BitVec 3), cp0RegAt rd sel = none ↔
    rd ∉ [0#5, 1#5, 2#5, 4#5, 8#5, 10#5, 12#5, 13#5, 14#5, 15#5] ∨
      (sel ≠ 0#3 ∧ ¬ (rd = 15#5 ∧ (sel = 1#3 ∨ sel = 2#3))) := by
  decide

/-- The same of an instruction's pair; the select counts on V2 only (R383). -/
theorem cp0Reg_eq_none {c : Config} {rd : Reg} {sel : BitVec 3}
    (h : rd ∉ [0#5, 1#5, 2#5, 4#5, 8#5, 10#5, 12#5, 13#5, 14#5, 15#5] ∨
      (c.version = .v2 ∧ sel ≠ 0#3 ∧ ¬ (rd = 15#5 ∧ (sel = 1#3 ∨ sel = 2#3)))) : cp0Reg c rd sel = none := by
  rw [cp0Reg, cp0RegAt_eq_none_iff]
  rcases h with hrd | ⟨hv, hsel⟩
  · exact .inl hrd
  · exact .inr (by simpa [Config.hasSelect, hv] using hsel)

/-! ### The write to STATUS (R41, R42) -/

/-- W or I written 1 is a machine check. -/
theorem writeStatus_machineCheck {v : Word} (h : v.getLsbD 17 = true ∨ v.getLsbD 16 = true) (s : State) :
    writeStatus s v = .next (shutDown s) := by
  rw [writeStatus, if_pos (by rwa [Bool.or_eq_true])]

/-- With W and I written 0, setting T, S or N from 0 is refused. -/
theorem writeStatus_refused {s : State} {v : Word} (hw : v.getLsbD 17 = false) (hi : v.getLsbD 16 = false)
    (hflag : (v.getLsbD 21 = true ∧ s.status.t = false) ∨ (v.getLsbD 20 = true ∧ s.status.s = false) ∨
      (v.getLsbD 19 = true ∧ s.status.n = false)) : writeStatus s v = .refused .statusFlagSet := by
  have hset : setsStatusFlag s.status v = true := by simpa [setsStatusFlag, or_assoc] using hflag
  rw [writeStatus, hw, hi, hset]
  rfl

/-- A write to STATUS that goes on stores the writable bits; any other next state is a shutdown. -/
theorem writeStatus_next {s t : State} {v : Word} (h : writeStatus s v = .next t) :
    t = shutDown s ∨ t = advance { s with status := Status.ofWord v } := by
  unfold writeStatus at h
  split at h
  · cases h; exact .inl rfl
  · split at h
    · cases h
    · cases h; exact .inr rfl

/-- Settles O48: the pair picks the register, and the register's write says whether it stops. -/
theorem mtc0Stops : Obligations.Mtc0Stops := by
  intro s rt rd sel hu
  have hstatus : exec (.mtc0 rt 12#5 0#3) s = writeStatus s (readReg s rt) :=
    exec_mtc0_of_reg hu (cp0Reg_sel_zero s.cfg 12#5) rt
  refine ⟨fun h => ?_, fun hw hi hflag => ?_, exec_mtc0_of_reg hu (cp0Reg_sel_zero s.cfg 1#5) rt, fun h => ?_⟩
  · rw [hstatus, writeStatus_machineCheck h]; rfl
  · rw [hstatus, writeStatus_refused hw hi hflag]
  · exact ⟨exec_mfc0_of_none hu (cp0Reg_eq_none h) rt, exec_mtc0_of_none hu (cp0Reg_eq_none h) rt⟩

/-! ### The bits a write to each register changes (R33 to R44) -/

/-- `old` with the bits of `mask` taken from `new`. -/
def maskedWrite (mask new old : Word) : Word := (new &&& mask) ||| (old &&& ~~~mask)

/-- A word is a masked write when each of its bits is. -/
theorem eq_maskedWrite {mask new old w : Word}
    (h : ∀ i < 32, w.getLsbD i = if mask.getLsbD i then new.getLsbD i else old.getLsbD i) :
    w = maskedWrite mask new old := by
  apply BitVec.eq_of_getLsbD_eq
  intro i hi
  simp only [h i hi, maskedWrite, BitVec.getLsbD_or, BitVec.getLsbD_and, BitVec.getLsbD_not]
  cases mask.getLsbD i <;> simp [hi]

/-- With no writable bit the word stays. -/
theorem maskedWrite_zero (new old : Word) : maskedWrite 0#32 new old = old :=
  (eq_maskedWrite fun i _ => by simp).symm

theorem IndexReg.toWord_slotField (v : Word) (r : IndexReg) :
    IndexReg.toWord { r with slot := slotField v } = maskedWrite 0x00003f00#32 v r.toWord := by
  refine eq_maskedWrite fun i hi => ?_
  simp only [IndexReg.toWord, slotField, BitVec.getLsbD_append, BitVec.getLsbD_extractLsb']
  interval_cases i <;> simp

theorem TlbLo.toWord_ofWord (v : Word) (r : TlbLo) :
    (TlbLo.ofWord v).toWord = maskedWrite 0xffffff00#32 v r.toWord := by
  refine eq_maskedWrite fun i hi => ?_
  simp only [TlbLo.toWord, TlbLo.ofWord, BitVec.getLsbD_append, BitVec.getLsbD_extractLsb', BitVec.getLsbD_ofBool]
  interval_cases i <;> simp

theorem ContextReg.toWord_ptbaseField (v : Word) (r : ContextReg) :
    ContextReg.toWord { r with ptbase := ptbaseField v } = maskedWrite 0xffe00000#32 v r.toWord := by
  refine eq_maskedWrite fun i hi => ?_
  simp only [ContextReg.toWord, ptbaseField, BitVec.getLsbD_append, BitVec.getLsbD_extractLsb']
  interval_cases i <;> simp

theorem TlbHi.toWord_ofWord (v : Word) (r : TlbHi) :
    (TlbHi.ofWord v).toWord = maskedWrite 0xffffffc0#32 v r.toWord := by
  refine eq_maskedWrite fun i hi => ?_
  simp only [TlbHi.toWord, TlbHi.ofWord, BitVec.getLsbD_append, BitVec.getLsbD_extractLsb']
  interval_cases i <;> simp

theorem Status.toWord_ofWord (v : Word) (r : Status) :
    (Status.ofWord v).toWord = maskedWrite 0xf078ff3f#32 v r.toWord := by
  refine eq_maskedWrite fun i hi => ?_
  simp only [Status.toWord, Status.ofWord, BitVec.getLsbD_append, BitVec.getLsbD_extractLsb', BitVec.getLsbD_ofBool]
  interval_cases i <;> simp

theorem Cause.toWord_softField (v : Word) (r : Cause) (irq : BitVec 6) :
    Cause.toWord { r with f := softField v } irq = maskedWrite 0x00000300#32 v (r.toWord irq) := by
  refine eq_maskedWrite fun i hi => ?_
  simp only [Cause.toWord, softField, BitVec.getLsbD_append, BitVec.getLsbD_extractLsb']
  interval_cases i <;> simp

/-- The bits of each register that `MTC0` writes (spec/46_kernel_cp0.md R382). -/
def Cp0Reg.writable : Cp0Reg → Word
  | .index => 0x00003f00#32
  | .tlblo => 0xffffff00#32
  | .context => 0xffe00000#32
  | .tlbhi => 0xffffffc0#32
  | .status => 0xf078ff3f#32
  | .cause => 0x00000300#32
  | .random | .badvaddr | .epc | .prid | .cfeat | .ifeat => 0x00000000#32

/-- After a write that does not shut the processor down, the register reads as masked by its writable bits. -/
theorem cp0Read_cp0Write {s t : State} {r : Cp0Reg} {v : Word} (h : cp0Write s r v = .next t)
    (hup : t.shutdown = false) : cp0Read t r = maskedWrite r.writable v (cp0Read s r) := by
  cases r with
  | index => cases h; exact s.index.toWord_slotField v
  | tlblo => cases h; exact s.tlblo.toWord_ofWord v
  | context => cases h; exact s.context.toWord_ptbaseField v
  | tlbhi => cases h; exact s.tlbhi.toWord_ofWord v
  | cause => cases h; exact s.cause.toWord_softField v s.irq
  | status =>
    rcases writeStatus_next h with rfl | rfl
    · simp at hup
    · exact s.status.toWord_ofWord v
  | random => cases h
  | badvaddr | epc | prid | cfeat | ifeat => cases h; exact (maskedWrite_zero v _).symm

/-- Settles O47: the write reads back by the register's mask, which is the one the statement gives. -/
theorem readbackMasks : Obligations.ReadbackMasks := by
  intro s t rt rd sel r hr hu hexec hup
  rw [exec_mtc0_of_reg hu hr] at hexec
  have hread := cp0Read_cp0Write hexec hup
  cases r <;> exact hread

/-! ### Sleeping and stopped processors (R52, R53) -/

theorem stepAfterEvents_of_shutdown {s : State} (h : s.shutdown = true) : stepAfterEvents s = .fault .shutdown := by
  simp [stepAfterEvents, h]

theorem stepAfterEvents_of_asleep {s : State} (hup : s.shutdown = false) (h : asleep s = true) :
    stepAfterEvents s = .next s := by
  simp [stepAfterEvents, hup, h]

theorem stepAfterEvents_of_awake {s : State} (hup : s.shutdown = false) (h : asleep s = false) :
    stepAfterEvents s =
      if interruptPending s then .next (trapEntry .irq (wake s)) else runNext (wake s) := by
  simp only [stepAfterEvents, hup, h]
  rfl

theorem step_of_inputs_nil {s : State} (h : s.inputs = []) : step s = stepAfterEvents s := by
  rw [step, beginStep_of_inputs_nil h]

/-- A processor in `WAIT` sleeps while every line is low. -/
theorem asleep_of_idle {s : State} (h : s.idle = true) : asleep s = decide (s.irq = 0#6) := by
  simp [asleep, h]; rfl

/-- Only a hard reset ends a shutdown (spec/60_exceptions.md R462). -/
theorem applyExternal_shutdown {e : External} (he : ∀ tlb, e ≠ .hardReset tlb) (s : State) :
    (applyExternal s e).shutdown = s.shutdown := by
  cases e with
  | hardReset tlb => exact (he tlb rfl).elim
  | lines level => rfl
  | busWrite pa b => exact busWrite_shutdown s pa b
  | softReset => rfl
  | nmi => rfl

/-- So does a list of events without one. -/
theorem foldl_applyExternal_shutdown {events : List External} (he : ∀ e ∈ events, ∀ tlb, e ≠ .hardReset tlb)
    (s : State) : (events.foldl applyExternal s).shutdown = s.shutdown := by
  induction events generalizing s with
  | nil => rfl
  | cons e events ih =>
    rw [List.forall_mem_cons] at he
    rw [List.foldl_cons, ih he.2, applyExternal_shutdown he.1]

/-- A boundary without a hard reset leaves the processor shut down, or not, as it was. -/
theorem beginStep_shutdown {s : State}
    (he : ∀ events, s.inputs.head? = some events → ∀ e ∈ events, ∀ tlb, e ≠ .hardReset tlb) :
    (beginStep s).shutdown = s.shutdown := by
  unfold beginStep
  split
  · rfl
  · rename_i events rest hin
    exact foldl_applyExternal_shutdown (he events (by rw [hin]; rfl)) _

/-- Settles O10: asleep nothing happens, an active line wakes, and no boundary without a hard reset ends a shutdown. -/
theorem sleepAndShutdown : Obligations.SleepAndShutdown := by
  refine ⟨fun s hin hup hidle => ⟨fun hlow => ?_, fun hline => ?_⟩, fun s level => ?_, fun s hdown he => ?_⟩
  · rw [step_of_inputs_nil hin, stepAfterEvents_of_asleep hup (by simp [asleep_of_idle hidle, hlow])]
  · rw [step_of_inputs_nil hin, stepAfterEvents_of_awake hup (by simp [asleep_of_idle hidle, hline])]
    rfl
  · rfl
  · rw [step, stepAfterEvents_of_shutdown ((beginStep_shutdown he).trans hdown)]

/-! ### The flow of instructions (R27, R28) -/

/-- Trap entry is outside a delay slot, with the two program counters at the vector. -/
theorem trapEntry_flow (e : Exception) (s : State) : FlowSound (trapEntry e s) := fun _ => rfl

/-- Every outcome of an instruction keeps the flow: a trap entry and a retired instruction make it, a shutdown leaves it. -/
theorem Outcomes.flow {s t : State} (h : Outcomes s t) (hs : FlowSound s) : FlowSound t := by
  rcases h with ⟨e, rfl⟩ | (rfl | ⟨rfl, -⟩) | hretires
  · exact trapEntry_flow e s
  · exact hs
  · exact hs
  · exact hretires.flow

/-- Settles O58: the boundary's events keep the flow, and so does whatever the step then comes to. -/
theorem stepKeepsFlowSound : Obligations.StepKeepsFlowSound := by
  intro s t hs hstep
  have hbegin : FlowSound (beginStep s) := beginStep_keeps hs (fun _ _ h => h) fun _ e h => applyExternal_flow e h
  obtain ⟨-, ⟨-, rfl⟩ | ⟨k, hout⟩⟩ := step_next_cases hstep
  · exact hbegin
  · exact hout.flow hbegin

/-! ### Reset (R60) and the resets from the outside (spec/60_exceptions.md R460) -/

/-- Nothing is pending from the outside right after reset, so that the TLB alone decides. -/
theorem tlbSound_reset {tlb : Tlb} (h : TlbNoDup tlb) : TlbSound { State.reset with tlb := tlb } :=
  ⟨h, fun _ hevents => absurd hevents List.not_mem_nil⟩

/-- Settles O54: the fields of the reset state, and the three invariants there. -/
theorem resetState : Obligations.ResetState := by
  have hflow : FlowSound State.reset := fun _ => rfl
  exact ⟨rfl, rfl, rfl, rfl, rfl, rfl, readReg_zero _, rfl, rfl, rfl, rfl, hflow, fun _ => tlbSound_reset⟩

/-- Settles O55: a soft reset and an NMI are the entry at the Reset vector with their flag set; a hard reset is the reset
state but for what is not the processor's. -/
theorem resetClassEvents : Obligations.ResetClassEvents := fun _ _ =>
  ⟨rfl, rfl, rfl, rfl, rfl, rfl, rfl, readReg_zero _, rfl, rfl, rfl, rfl, rfl, rfl⟩

end Sys2Proof.Machine

/-! ## The memory statements (spec/20_memory.md): translation, the TLB, and what loads, stores and the outside write

The outcomes of translation are said once, for every address and kind of access; the statements about addresses, about the
TLB and about a fetch are its cases. The invariants and the confinement of user mode follow from what a step can do
(`step_next_cases`). -/

namespace Sys2Proof.Machine

/-! ### Every outcome of translation (R81 to R86, R90 to R92, R98) -/

theorem msb_eq_decide_le (va : Word) : va.msb = decide (0x80000000 ≤ va.toNat) := BitVec.msb_eq_decide va

/-- The access is misaligned, or an access of user mode outside kuseg (R82, R86). -/
def AddressErrs (s : State) (va : Word) (n : Nat) (checkAlign : Bool) : Prop :=
  (checkAlign = true ∧ va.toNat % n ≠ 0) ∨ (s.status.kuc = true ∧ 0x80000000 ≤ va.toNat)

/-- The address goes through the TLB: kuseg in either mode, kseg2 in kernel mode (R81, R82). -/
def Mapped (s : State) (va : Word) : Prop :=
  va.toNat < 0x80000000 ∨ (0xc0000000 ≤ va.toNat ∧ s.status.kuc = false)

/-- Every outcome of translation: an address error, the direct-mapped address, or the TLB's answer (R98). -/
theorem translate_cases (s : State) (va : Word) (k : AccessKind) (n : Nat) (c : Bool) :
    (AddressErrs s va n c ∧ translate s va k n c = .raise (addressError k va)) ∨
      (¬ AddressErrs s va n c ∧ (0x80000000 ≤ va.toNat ∧ va.toNat < 0xc0000000) ∧
        translate s va k n c = .ok (directAddress va)) ∨
      (¬ AddressErrs s va n c ∧ Mapped s va ∧ translate s va k n c = translateMapped s va k) := by
  by_cases herr : AddressErrs s va n c
  · refine .inl ⟨herr, ?_⟩
    rcases herr with h | h
    · simp [translate, h]
    · simp [translate, msb_eq_decide_le, h]
  · obtain ⟨halign, hmode⟩ := not_or.1 herr
    rw [translate, if_neg halign, if_neg (by simpa [msb_eq_decide_le] using hmode)]
    by_cases hdirect : 0x80000000 ≤ va.toNat ∧ va.toNat < 0xc0000000
    · refine .inr (.inl ⟨herr, hdirect, ?_⟩)
      rcases (segment_direct_iff va).2 hdirect with h | h <;> rw [h]
    · have hmapped : Mapped s va := by
        by_cases hlow : va.toNat < 0x80000000
        · exact .inl hlow
        · exact .inr ⟨by omega, by simpa [show 0x80000000 ≤ va.toNat by omega] using hmode⟩
      refine .inr (.inr ⟨herr, hmapped, ?_⟩)
      obtain ⟨h0, h1⟩ := not_or.1 (mt (segment_direct_iff va).1 hdirect)
      cases h : segmentOf va with
      | kuseg => rfl
      | kseg0 => exact absurd h h0
      | kseg1 => exact absurd h h1
      | kseg2 => rfl

/-- An address error comes before anything else. -/
theorem translate_of_addressErrs {s : State} {va : Word} {n : Nat} {c : Bool} (h : AddressErrs s va n c)
    (k : AccessKind) : translate s va k n c = .raise (addressError k va) := by
  rcases translate_cases s va k n c with ⟨-, ht⟩ | ⟨hno, -, -⟩ | ⟨hno, -, -⟩
  · exact ht
  · exact absurd h hno
  · exact absurd h hno

/-- kseg0 and kseg1 in kernel mode. -/
theorem translate_of_direct {s : State} {va : Word} {n : Nat} {c : Bool} (hkernel : s.status.kuc = false)
    (halign : c = true → va.toNat % n = 0) (h : 0x80000000 ≤ va.toNat ∧ va.toNat < 0xc0000000) (k : AccessKind) :
    translate s va k n c = .ok (directAddress va) := by
  rcases translate_cases s va k n c with ⟨⟨hc, hn⟩ | ⟨hu, -⟩, -⟩ | ⟨-, -, ht⟩ | ⟨-, hlow | ⟨hhigh, -⟩, -⟩
  · exact absurd (halign hc) hn
  · simp [hkernel] at hu
  · exact ht
  · omega
  · omega

/-- An aligned mapped address goes to the TLB. -/
theorem translate_of_mapped {s : State} {va : Word} {n : Nat} {c : Bool} (halign : c = true → va.toNat % n = 0)
    (h : Mapped s va) (k : AccessKind) : translate s va k n c = translateMapped s va k := by
  unfold Mapped at h
  rcases translate_cases s va k n c with ⟨⟨hc, hn⟩ | ⟨hu, hhigh⟩, -⟩ | ⟨-, ⟨hlow, hhigh⟩, -⟩ | ⟨-, -, ht⟩
  · exact absurd (halign hc) hn
  · rcases h with h | ⟨-, hkernel⟩
    · omega
    · simp [hkernel] at hu
  · omega
  · exact ht

/-! ### What the TLB answers (R90, R91, R92) -/

theorem TlbEntry.hits_iff (e : TlbEntry) (vpage : BitVec 20) (asid : BitVec 6) :
    e.hits vpage asid = true ↔ e.hi.vpage = vpage ∧ (e.hi.asid = asid ∨ e.lo.g = true) := by
  simp [TlbEntry.hits]

theorem TlbEntry.clashes_iff (e f : TlbEntry) :
    e.clashes f = true ↔ e.hi.vpage = f.hi.vpage ∧ (e.hi.asid = f.hi.asid ∨ e.lo.g = true ∨ f.lo.g = true) := by
  simp [TlbEntry.clashes, or_assoc]

/-- Nothing matches: a TLB miss, at the UTLB vector for an address in kuseg. -/
theorem translateMapped_of_miss {s : State} {va : Word}
    (h : ∀ i, (tlbAt s.tlb i).hits (pageOf va) s.tlbhi.asid = false) (k : AccessKind) :
    translateMapped s va k = .raise (tlbError k va (decide (va.toNat < 0x80000000))) := by
  have hutlb : (!va.msb) = decide (va.toNat < 0x80000000) := by
    rw [msb_eq_decide_le, ← decide_not]
    exact decide_eq_decide.2 Nat.not_le
  rw [translateMapped, (tlbHits_nil_iff ..).2 h, ← hutlb]

/-- One entry matches: its V and D bits decide. -/
theorem translateMapped_of_match {s : State} {va : Word} {i : Slot}
    (h : ∀ j, (tlbAt s.tlb j).hits (pageOf va) s.tlbhi.asid = true ↔ j = i) (k : AccessKind) :
    translateMapped s va k =
      if !(tlbAt s.tlb i).lo.v then .raise (tlbError k va false)
      else if k = .store ∧ !(tlbAt s.tlb i).lo.d then .raise (.mod va)
      else .ok ((tlbAt s.tlb i).lo.ppage ++ va.extractLsb' 0 12) := by
  rw [translateMapped, (tlbHits_singleton_iff ..).2 h]

/-- Two entries match: a machine check. -/
theorem translateMapped_of_matches {s : State} {va : Word}
    (h : ∃ i j, i ≠ j ∧ (tlbAt s.tlb i).hits (pageOf va) s.tlbhi.asid = true ∧
      (tlbAt s.tlb j).hits (pageOf va) s.tlbhi.asid = true) (k : AccessKind) :
    translateMapped s va k = .machineCheck := by
  obtain ⟨a, b, rest, hhits⟩ := (tlbHits_many_iff ..).2 h
  rw [translateMapped, hhits]

/-- A machine check comes from two matching entries. -/
theorem exists_clash_of_translate_machineCheck {s : State} {va : Word} {k : AccessKind} {n : Nat} {c : Bool}
    (h : translate s va k n c = .machineCheck) :
    ∃ i j, i ≠ j ∧ (tlbAt s.tlb i).clashes (tlbAt s.tlb j) = true := by
  rcases translate_cases s va k n c with ⟨-, ht⟩ | ⟨-, -, ht⟩ | ⟨-, -, ht⟩
  · simp [ht] at h
  · simp [ht] at h
  rw [ht] at h
  rcases translateMapped_cases s va k with ⟨-, hm⟩ | ⟨i, -, hm⟩ | ⟨⟨i, j, hij, hi, hj⟩, -⟩
  · simp [hm] at h
  · rw [hm] at h; split_ifs at h
  · exact ⟨i, j, hij, TlbEntry.clashes_of_hits hi hj⟩

/-- A mapped store that goes through names a valid, dirty, matching entry, and lands in its page (R91). -/
theorem translateMapped_store_ok {s : State} {va pa : Word} (h : translateMapped s va .store = .ok pa) :
    ∃ i, (tlbAt s.tlb i).lo.v = true ∧ (tlbAt s.tlb i).lo.d = true ∧
      (tlbAt s.tlb i).hits (pageOf va) s.tlbhi.asid = true ∧
      pa = (tlbAt s.tlb i).lo.ppage ++ va.extractLsb' 0 12 := by
  rcases translateMapped_cases s va .store with ⟨-, hm⟩ | ⟨i, hi, hm⟩ | ⟨-, hm⟩ <;> rw [hm] at h
  · simp at h
  · split_ifs at h with hv hd
    have hpa : (tlbAt s.tlb i).lo.ppage ++ va.extractLsb' 0 12 = pa := by simpa using h
    exact ⟨i, by simpa using hv, by simpa using hd, (hi i).2 rfl, hpa.symm⟩
  · simp at h

/-! ### The invariants of memory and of the TLB (R92, R101; spec/46_kernel_cp0.md R387) -/

/-- Every outcome of an instruction keeps memory canonical: where it is written at all, bytes are stored in it. -/
theorem Outcomes.memoryCanonical {s t : State} (h : Outcomes s t) (hs : MemoryCanonical s) : MemoryCanonical t := by
  rcases h with ⟨e, rfl⟩ | (rfl | ⟨rfl, -⟩) | hretires
  · simpa [MemoryCanonical] using hs
  · exact hs
  · exact hs
  · rcases hretires.mem with hmem | ⟨_, _, _, _, q, bs, -, hmem, -⟩
    · rw [MemoryCanonical, hmem]; exact hs
    · rw [MemoryCanonical, hmem]; exact Memory.wf_writeBytes q bs hs

/-- Settles O56: the boundary's events keep memory canonical, and so does whatever the step then comes to. -/
theorem stepKeepsMemoryCanonical : Obligations.StepKeepsMemoryCanonical := by
  intro s t hs hstep
  have hbegin : MemoryCanonical (beginStep s) :=
    beginStep_keeps hs (fun _ _ h => h) fun _ e h => applyExternal_memory e h
  obtain ⟨-, ⟨-, rfl⟩ | ⟨k, hout⟩⟩ := step_next_cases hstep
  · exact hbegin
  · exact hout.memoryCanonical hbegin

/-- An event of the outside that brings no clashing pair keeps the TLB free of them. -/
theorem applyExternal_tlbNoDup {s : State} {e : External} (hs : TlbNoDup s.tlb) (he : e.noDup) :
    TlbNoDup (applyExternal s e).tlb := by
  cases e with
  | hardReset tlb => exact he
  | busWrite pa b => exact (busWrite_tlb s pa b).symm ▸ hs
  | lines level => exact hs
  | softReset => exact hs
  | nmi => exact hs

theorem applyExternal_tlbSound {s : State} {e : External} (hs : TlbSound s) (he : e.noDup) :
    TlbSound (applyExternal s e) :=
  ⟨applyExternal_tlbNoDup hs.1 he, (applyExternal_inputs s e).symm ▸ hs.2⟩

/-- The boundary's events are among the pending ones, so that the step begins with a sound TLB. -/
theorem beginStep_tlbSound {s : State} (hs : TlbSound s) : TlbSound (beginStep s) := by
  obtain ⟨hdup, hinputs⟩ := hs
  unfold beginStep
  split
  · exact ⟨hdup, hinputs⟩
  · rename_i events rest hin
    rw [hin, List.forall_mem_cons] at hinputs
    exact List.foldlRecOn events applyExternal ⟨hdup, hinputs.2⟩
      fun _ hu e he => applyExternal_tlbSound hu (hinputs.1 e he)

/-- Every outcome of an instruction keeps the TLB sound: a slot is written only where no other clashes with it. -/
theorem Outcomes.tlbSound {s t : State} (h : Outcomes s t) (hs : TlbSound s) : TlbSound t := by
  rcases h with ⟨e, rfl⟩ | (rfl | ⟨rfl, -⟩) | hretires
  · simpa [TlbSound] using hs
  · exact hs
  · exact hs
  · refine ⟨?_, hretires.inputs.symm ▸ hs.2⟩
    rcases hretires.tlb with htlb | ⟨i, hclash, htlb⟩
    · rw [htlb]; exact hs.1
    · rw [htlb]; exact hs.1.tlbSet hclash

/-- Without two clashing entries no translation is a machine check. -/
theorem translate_ne_machineCheck {s : State} (hs : TlbNoDup s.tlb) (va : Word) (k : AccessKind) (n : Nat) (c : Bool) :
    translate s va k n c ≠ .machineCheck := by
  intro h
  obtain ⟨i, j, hij, hclash⟩ := exists_clash_of_translate_machineCheck h
  simp [hs i j hij] at hclash

/-- Settles O57: the boundary's events and every outcome of an instruction keep the TLB sound; a machine check would need
two clashing entries. -/
theorem stepKeepsTlbSound : Obligations.StepKeepsTlbSound := by
  refine ⟨TlbEntry.clashes_iff, fun s t hs hstep => ?_, fun s va k n c hs => translate_ne_machineCheck hs.1 va k n c⟩
  have hbegin := beginStep_tlbSound hs
  obtain ⟨-, ⟨-, rfl⟩ | ⟨k, hout⟩⟩ := step_next_cases hstep
  · exact hbegin
  · exact hout.tlbSound hbegin

/-! ### Where user mode can write (R82, R91; spec/60_exceptions.md R470) -/

/-- The physical address lies in the page of a valid, dirty entry that maps a page of kuseg under the current ASID. -/
def UserWritable (s : State) (a : Nat) : Prop :=
  ∃ i, (tlbAt s.tlb i).lo.v = true ∧ (tlbAt s.tlb i).lo.d = true ∧ (tlbAt s.tlb i).hi.vpage.toNat < 0x80000 ∧
    ((tlbAt s.tlb i).hi.asid = s.tlbhi.asid ∨ (tlbAt s.tlb i).lo.g = true) ∧
    a / 4096 = (tlbAt s.tlb i).lo.ppage.toNat

/-- A store of user mode that translates reaches such an address. -/
theorem userWritable_of_translate {s : State} {va pa : Word} {n : Nat} {c : Bool} (huser : s.status.kuc = true)
    (h : translate s va .store n c = .ok pa) : UserWritable s pa.toNat := by
  rcases translate_cases s va .store n c with ⟨-, ht⟩ | ⟨herr, ⟨hva, -⟩, -⟩ | ⟨-, hmapped, ht⟩
  · simp [ht] at h
  · exact absurd (.inr ⟨huser, hva⟩) herr
  have hlow : va.toNat < 0x80000000 := by
    rcases hmapped with hlow | ⟨-, hkernel⟩
    · exact hlow
    · simp [huser] at hkernel
  obtain ⟨i, hv, hd, hhits, rfl⟩ := translateMapped_store_ok (ht ▸ h)
  obtain ⟨hvpage, hasid⟩ := (TlbEntry.hits_iff ..).1 hhits
  refine ⟨i, hv, hd, ?_, hasid, ?_⟩
  · rw [hvpage, pageOf, toNat_extract]; omega
  · rw [toNat_append_mul, toNat_extract]; omega

/-- A byte that an instruction of user mode changes lies at such an address: only a store writes, and within the page. -/
theorem Outcomes.userWritable {s t : State} (h : Outcomes s t) (huser : s.status.kuc = true) {a : Nat}
    (hne : t.mem.read a ≠ s.mem.read a) : UserWritable s a := by
  rcases h with ⟨e, rfl⟩ | (rfl | ⟨rfl, -⟩) | hretires
  · simp at hne
  · simp at hne
  · simp at hne
  rcases hretires.mem with hmem | ⟨va, pa, n, c, q, bs, hpa, hmem, hpage⟩
  · simp [hmem] at hne
  obtain ⟨k, hk, rfl⟩ : ∃ k, k < bs.length ∧ a = byteAddr q k := by
    by_contra hno
    exact hne (hmem ▸ Memory.read_writeBytes_other s.mem q bs a fun k hk ha => hno ⟨k, hk, ha⟩)
  obtain ⟨i, hv, hd, hvpage, hasid, hpp⟩ := userWritable_of_translate huser ((memAddress_ok_iff ..).1 hpa).1
  exact ⟨i, hv, hd, hvpage, hasid, (hpage k hk).trans hpp⟩

/-- Settles O60: a sleeping processor writes nothing, and what an instruction of user mode writes is user-writable. -/
theorem userStoresStayInMappedPages : Obligations.UserStoresStayInMappedPages := by
  intro s t a huser hstep hne
  obtain ⟨-, ⟨-, rfl⟩ | ⟨k, hout⟩⟩ := step_next_cases hstep
  · exact absurd rfl hne
  · exact hout.userWritable huser hne

/-! ### Address translation (R82, R83, R86, R90 to R92, R98 to R102) -/

/-- The direct-mapped address is the offset into the window (R83). -/
theorem directAddress_eq_sub {va base : Word} (hbase : base.toNat % 2 ^ 29 = 0) (h : base.toNat ≤ va.toNat)
    (h' : va.toNat < base.toNat + 2 ^ 29) : directAddress va = va - base := by
  apply BitVec.eq_of_toNat_eq
  rw [directAddress, toNat_append_mul, toNat_extract, BitVec.toNat_sub_of_le (BitVec.le_def.2 h)]
  simp only [BitVec.toNat_ofNat]
  omega

/-- Settles O29: both windows are direct-mapped, which does not look at the TLB. -/
theorem directMappedSegments : Obligations.DirectMappedSegments := by
  intro s va k n c hkernel halign
  refine ⟨fun ⟨hlo, hhi⟩ => ?_, fun ⟨hlo, hhi⟩ => ?_, fun h tlb => ?_⟩
  · rw [translate_of_direct hkernel halign ⟨hlo, by omega⟩,
      directAddress_eq_sub (base := 0x80000000#32) (by decide) hlo hhi]
  · rw [translate_of_direct hkernel halign ⟨by omega, hhi⟩,
      directAddress_eq_sub (base := 0xa0000000#32) (by decide) hlo hhi]
  · rw [translate_of_direct hkernel halign h, translate_of_direct (s := { s with tlb := tlb }) hkernel halign h]

theorem addressError_eq (k : AccessKind) (va : Word) :
    addressError k va = if k = .store then .ades va else .adel va := by cases k <;> rfl

theorem tlbError_eq (k : AccessKind) (va : Word) (utlb : Bool) :
    tlbError k va utlb = if k = .store then .tlbs va utlb else .tlbl va utlb := by cases k <;> rfl

theorem busError_eq (k : AccessKind) : busError k = if k = .fetch then .ibe else .dbe := by cases k <;> rfl

/-- Settles O31: an aligned mapped address is the TLB's, which answers by how many entries match and by V and D. -/
theorem tlbLookup : Obligations.TlbLookup := by
  refine ⟨TlbEntry.hits_iff, fun s va k n c halign hmapped => ?_⟩
  rw [translate_of_mapped halign hmapped]
  refine ⟨fun hmiss => ?_, fun i hi => ?_, fun hmany => translateMapped_of_matches hmany k⟩
  · rw [translateMapped_of_miss hmiss, tlbError_eq]
  rw [translateMapped_of_match hi]
  refine ⟨fun hv => ?_, fun hv hd hk => ?_, fun hv hd => ⟨(tlbAt s.tlb i).lo.ppage ++ va.extractLsb' 0 12, ?_, ?_⟩⟩
  · simp [hv, tlbError_eq]
  · simp [hv, hd, hk]
  · rw [if_neg (by simp [hv]), if_neg]
    rintro ⟨hk, hclean⟩
    rcases hd with hd | hload
    · simp [hd] at hclean
    · exact hload hk
  · rw [toNat_append_mul, toNat_extract]
    omega

/-- An address error of an access comes before translation and the bus. -/
theorem memAddress_of_addressErrs {s : State} {va : Word} {n : Nat} {c : Bool} (h : AddressErrs s va n c)
    (k : AccessKind) : memAddress s va k n c = .raise (addressError k va) :=
  (memAddress_raise_iff ..).2 (.inl (translate_of_addressErrs h k))

/-- Nothing answers a translated address: the bus error (R99). -/
theorem memAddress_of_none {s : State} {va pa : Word} {k : AccessKind} {n : Nat} {c : Bool}
    (ht : translate s va k n c = .ok pa) (h : physAt s.cfg pa = none) : memAddress s va k n c = .raise (busError k) :=
  (memAddress_raise_iff ..).2 (.inr ⟨pa, ht, h, rfl⟩)

/-- Settles O30: the errors of an access in the order of its checks, and who answers a translated address. -/
theorem addressAndBusErrors : Obligations.AddressAndBusErrors := by
  intro s va k n c
  refine ⟨fun herr => ?_, fun pa ht => ⟨fun hnone => ?_, fun hdev => ?_, fun hmem => ?_⟩⟩
  · rw [memAddress_of_addressErrs herr, addressError_eq]
  · rw [memAddress_of_none ht hnone, busError_eq]
  · exact (memAddress_device_iff ..).2 ⟨ht, hdev⟩
  · exact (memAddress_ok_iff ..).2 ⟨ht, hmem⟩

/-! ### A fetch that fails, and one that a device answers (R102; spec/42_branch_jump.md R261) -/

/-- What a fetch raises is taken, with nothing executed. -/
theorem step_of_fetch_raise {s b : State} {e : Exception} (h : AboutToFetch s b) (he : fetchAddress b = .raise e) :
    step s = .next (trapEntry e b) := by
  rw [step_of_aboutToFetch h, runNext_of_raise he]

/-- The same of what translation of the pc raises. -/
theorem step_of_translate_raise {s b : State} {e : Exception} (h : AboutToFetch s b)
    (he : translate b b.pc .fetch 4 true = .raise e) : step s = .next (trapEntry e b) :=
  step_of_fetch_raise h ((memAddress_raise_iff ..).2 (.inl he))

/-- A pc whose translation is a machine check shuts the processor down. -/
theorem step_of_translate_machineCheck {s b : State} (h : AboutToFetch s b)
    (hm : translate b b.pc .fetch 4 true = .machineCheck) : step s = .next (shutDown b) := by
  have hfetch : fetchAddress b = .machineCheck := (memAddress_machineCheck_iff ..).2 hm
  rw [step_of_aboutToFetch h, runNext, hfetch, andThen_machineCheck]

/-- Settles O8: the errors of the pc's translation, then the bus; each goes to the step. -/
theorem fetchExceptions : Obligations.FetchExceptions := by
  intro s b h
  refine ⟨fun herr => ?_, fun halign hmapped => ?_, fun pa hpa => ⟨fun hnone => ?_, fun hdev => ?_⟩,
    fun e => step_of_fetch_raise h⟩
  · have hpc : AddressErrs b b.pc 4 true :=
      herr.imp (fun hn => ⟨rfl, hn⟩) fun ⟨hu, hmsb⟩ => ⟨hu, by simpa [msb_eq_decide_le] using hmsb⟩
    exact step_of_translate_raise h (translate_of_addressErrs hpc .fetch)
  · have ht := translate_of_mapped (s := b) (c := true) (fun _ => halign) hmapped .fetch
    refine ⟨fun hmiss => ?_, fun i hi hv => ?_, fun hmany => ?_⟩
    · exact step_of_translate_raise h (ht.trans (translateMapped_of_miss hmiss .fetch))
    · exact step_of_translate_raise h (ht.trans ((translateMapped_of_match hi .fetch).trans (if_pos (by simp [hv]))))
    · exact step_of_translate_machineCheck h (ht.trans (translateMapped_of_matches hmany .fetch))
  · exact step_of_fetch_raise h (memAddress_of_none hpa hnone)
  · have hfetch : fetchAddress b = .device pa := (memAddress_device_iff ..).2 ⟨hpa, hdev⟩
    exact ⟨_, (step_of_aboutToFetch h).trans (runNext_of_device hfetch)⟩

/-! ### Loads and stores that memory answers (R85, R88; spec/43_load_store.md R290 to R298) -/

theorem sext8_toInt (b : Byte) : (sext8 b).toInt = b.toInt := BitVec.toInt_signExtend_of_le (by decide)

theorem zext8_toNat (b : Byte) : (zext8 b).toNat = b.toNat := BitVec.toNat_setWidth_of_le (by decide)

theorem sext16_toInt (h : Half) : (sext16 h).toInt = h.toInt := BitVec.toInt_signExtend_of_le (by decide)

theorem zext16_toNat (h : Half) : (zext16 h).toNat = h.toNat := BitVec.toNat_setWidth_of_le (by decide)

/-- The sign of a halfword is that of its byte at the lower address. -/
theorem halfOfBytes_toInt (b0 b1 : Byte) : (halfOfBytes b0 b1).toInt = b0.toInt * 2 ^ 8 + b1.toNat := by
  have := b1.isLt
  rw [BitVec.toInt_eq_toNat_cond, BitVec.toInt_eq_toNat_cond, halfOfBytes_toNat]
  split <;> split <;> omega

/-- A load that memory answers writes the value read there to `rt`, and nothing else. -/
theorem loadResult_spec {s : State} {ea pa : Word} {n : Nat} {c : Bool} (h : memAddress s ea .load n c = .ok pa)
    (rt : Reg) (value : Memory → Word → Word) :
    ∃ t, loadResult s rt ea n c value = .next t ∧ RegOnly s t rt (value s.mem pa) := by
  rw [loadResult_ok h]
  exact regResult_spec s rt _

/-- Settles O32: each load is a `loadResult`, and its value as a number is that of the bytes. -/
theorem loadsReadBigEndian : Obligations.LoadsReadBigEndian := by
  rintro s rs rt imm ea pa rfl
  rw [← effectiveAddress_eq]
  refine ⟨fun h => ⟨?_, ?_⟩, fun h => ⟨?_, ?_⟩, fun h => ?_⟩
  · obtain ⟨t, ht, hreg⟩ := loadResult_spec h rt fun m pa => sext8 (m.read8 pa)
    exact ⟨t, _, ht, hreg, sext8_toInt _⟩
  · obtain ⟨t, ht, hreg⟩ := loadResult_spec h rt fun m pa => zext8 (m.read8 pa)
    exact ⟨t, _, ht, hreg, zext8_toNat _⟩
  · obtain ⟨t, ht, hreg⟩ := loadResult_spec h rt fun m pa => sext16 (m.read16 pa)
    exact ⟨t, _, ht, hreg, (sext16_toInt _).trans (halfOfBytes_toInt _ _)⟩
  · obtain ⟨t, ht, hreg⟩ := loadResult_spec h rt fun m pa => zext16 (m.read16 pa)
    exact ⟨t, _, ht, hreg, (zext16_toNat _).trans (halfOfBytes_toNat _ _)⟩
  · obtain ⟨t, ht, hreg⟩ := loadResult_spec h rt fun m pa => m.read32 pa
    exact ⟨t, _, ht, hreg, wordOfBytes_toNat _ _ _ _⟩

/-- A store of bytes that memory answers: they lie at the address and above it, and nothing else changes. -/
theorem storeResult_spec {s : State} {ea pa : Word} {n : Nat} {c : Bool} {bs : List Byte}
    (h : memAddress s ea .store n c = .ok pa) (hn : bs.length ≤ 4) :
    ∃ t, storeResult s ea n c (fun pa => s.mem.writeBytes pa bs) = .next t ∧ StoreOnly s t pa bs.length ∧
      ∀ k, (hk : k < bs.length) → t.mem.read (byteAddr pa k) = bs[k] :=
  ⟨_, storeResult_ok h _, storeOnly_writeBytes s pa bs _ rfl, fun k hk => Memory.read_writeBytes_at s.mem pa bs k hk hn⟩

/-- Settles O33: each store is a `storeResult` of the bytes of the value, which sum to it. -/
theorem storesWriteBigEndian : Obligations.StoresWriteBigEndian := by
  intro s rs rt imm pa
  have hv := (readReg s rt).isLt
  refine ⟨fun h => ?_, fun h => ?_, fun h => ?_⟩
  · obtain ⟨t, ht, hstore, hread⟩ := storeResult_spec (bs := [regByte (readReg s rt) 0]) h (by simp)
    refine ⟨t, ht, hstore, ?_⟩
    rw [hread 0 (by simp)]
    exact (regByte_toNat _ 0).trans (by rw [Nat.mul_zero, Nat.pow_zero, Nat.div_one])
  · obtain ⟨t, ht, hstore, hread⟩ := storeResult_spec (bs := [byteOfHalf ((readReg s rt).extractLsb' 0 16) 0,
      byteOfHalf ((readReg s rt).extractLsb' 0 16) 1]) h (by simp)
    refine ⟨t, ht, hstore, ?_⟩
    rw [hread 0 (by simp), hread 1 (by simp)]
    change (byteOfHalf _ 0).toNat * 2 ^ 8 + (byteOfHalf _ 1).toNat = _
    rw [byteOfHalf_toNat, byteOfHalf_toNat, toNat_extract]
    omega
  · obtain ⟨t, ht, hstore, hread⟩ := storeResult_spec (bs := [byteOfWord (readReg s rt) 0,
      byteOfWord (readReg s rt) 1, byteOfWord (readReg s rt) 2, byteOfWord (readReg s rt) 3]) h (by simp)
    refine ⟨t, ht, hstore, ?_⟩
    rw [hread 0 (by simp), hread 1 (by simp), hread 2 (by simp), hread 3 (by simp)]
    change (byteOfWord _ 0).toNat * 2 ^ 24 + (byteOfWord _ 1).toNat * 2 ^ 16 + (byteOfWord _ 2).toNat * 2 ^ 8 +
      (byteOfWord _ 3).toNat = _
    rw [byteOfWord_toNat, byteOfWord_toNat, byteOfWord_toNat, byteOfWord_toNat]
    omega

/-! ### A write from the outside (R101; spec/43_load_store.md R314) -/

/-- Two addresses lie in the same aligned word. -/
theorem alignedWord_eq_iff (a b : Word) : alignedWord a = alignedWord b ↔ a.toNat / 4 = b.toNat / 4 := by
  rw [← BitVec.toNat_inj, alignedWord_toNat, alignedWord_toNat]
  omega

theorem busWrite_llbit (s : State) (pa : Word) (b : Byte) :
    (busWrite s pa b).llbit =
      (s.llbit && !decide (pa.toNat / 4 = s.lladdr.toNat / 4 ∧ physAt s.cfg pa ≠ none)) := by
  have hword : (alignedWord pa != alignedWord s.lladdr) = !decide (pa.toNat / 4 = s.lladdr.toNat / 4) := by
    simp only [← alignedWord_eq_iff, bne, beq_eq_decide]
  rcases hk : physAt s.cfg pa with _ | _ | _
  · simp [busWrite_none hk]
  · simp [busWrite_memory hk, hword]
  · simp [busWrite_device hk, hword]

theorem busWrite_read (s : State) (pa : Word) (b : Byte) (a : Nat) :
    (busWrite s pa b).mem.read a = if a = pa.toNat ∧ physAt s.cfg pa = some .memory then b else s.mem.read a := by
  rcases hk : physAt s.cfg pa with _ | _ | _
  · simp [busWrite_none hk]
  · simp [busWrite_memory hk, Memory.read_write]
  · simp [busWrite_device hk]

/-- Settles O40: the reservation and the byte by what answers at the address; the rest is the frame of `busWrite`. -/
theorem outsideWriteBreaksReservation : Obligations.OutsideWriteBreaksReservation := by
  intro s pa b
  refine ⟨busWrite_llbit s pa b, busWrite_read s pa b, readReg_busWrite s pa b, ?_, ?_, ?_, busWrite_lladdr s pa b,
    busWrite_pc s pa b, busWrite_npc s pa b, busWrite_inDelay s pa b⟩
  · simp [applyExternal, SameHiLo]
  · simp [applyExternal, SameCp0, SameMmu, SameStatus]
  · simp [applyExternal, SameOutside]

/-! ### The TLB instructions (R90, R92; spec/46_kernel_cp0.md R386 to R389) -/

theorem exec_tlbwi_of_usable {s : State} (h : cp0Usable s = true) :
    exec .tlbwi s = .next (tlbWrite s s.index.slot) := cp0Guard_of_usable h _

theorem exec_tlbwr_of_usable {s : State} (h : cp0Usable s = true) :
    exec .tlbwr s = .next (tlbWrite (countDraw s) (randomSlot s.draws)) := cp0Guard_of_usable h _

theorem exec_tlbp_of_usable {s : State} (h : cp0Usable s = true) :
    exec .tlbp s = .next (probeWith s (tlbHits s.tlb s.tlbhi.vpage s.tlbhi.asid)) := cp0Guard_of_usable h _

/-- Going on with INDEX, the TLB or the count of draws changed keeps the rest of the machine. -/
theorem kernelKeeps_advance (s : State) (index : IndexReg) (tlb : Tlb) (draws : Nat) :
    KernelKeeps s (advance { s with index := index, tlb := tlb, draws := draws }) :=
  ⟨⟨rfl, rfl, rfl⟩, fun _ => rfl, ⟨rfl, rfl⟩, ⟨rfl, rfl⟩, fun _ => rfl, ⟨rfl, rfl, rfl, rfl, rfl⟩⟩

/-- The whole effect of a TLB write that goes through: slot `i` holds TLBHI and TLBLO, and nothing else changes. -/
def WritesSlot (s t : State) (i : Slot) : Prop :=
  (∀ j, tlbAt t.tlb j = if j = i then ⟨s.tlbhi, s.tlblo⟩ else tlbAt s.tlb j) ∧ t.index = s.index ∧
    t.tlblo = s.tlblo ∧ t.context = s.context ∧ t.badvaddr = s.badvaddr ∧ t.tlbhi = s.tlbhi ∧ SameStatus s t ∧
    KernelKeeps s t

theorem writesSlot_advance (s : State) (i : Slot) (draws : Nat) :
    WritesSlot s (advance { s with tlb := tlbSet s.tlb i ⟨s.tlbhi, s.tlblo⟩, draws := draws }) i :=
  ⟨fun j => tlbAt_tlbSet s.tlb i j _, rfl, rfl, rfl, rfl, rfl, ⟨rfl, rfl, rfl⟩, kernelKeeps_advance s _ _ _⟩

/-- A TLB write: where another slot can match what TLBHI and TLBLO do, the processor shuts down and nothing is written;
else the slot is (R387). -/
theorem tlbWrite_effect (s : State) (draws : Nat) (i : Slot) :
    ((∀ j, j ≠ i → (tlbAt s.tlb j).clashes ⟨s.tlbhi, s.tlblo⟩ = false) ∧
        WritesSlot s (tlbWrite { s with draws := draws } i) i) ∨
      ((∃ j, j ≠ i ∧ (tlbAt s.tlb j).clashes ⟨s.tlbhi, s.tlblo⟩ = true) ∧
        tlbWrite { s with draws := draws } i = { s with shutdown := true, draws := draws }) := by
  rcases tlbWrite_cases { s with draws := draws } i with ⟨hfree, h⟩ | ⟨hclash, h⟩
  · exact .inl ⟨hfree, h ▸ writesSlot_advance s i draws⟩
  · exact .inr ⟨hclash, h⟩

/-- Without a clash outside slot `i` the write goes through. -/
theorem writesSlot_tlbWrite {s : State} {i : Slot}
    (h : ∀ j, j ≠ i → (tlbAt s.tlb j).clashes ⟨s.tlbhi, s.tlblo⟩ = false) (draws : Nat) :
    WritesSlot s (tlbWrite { s with draws := draws } i) i := by
  rcases tlbWrite_effect s draws i with ⟨-, hw⟩ | ⟨⟨j, hj, hc⟩, -⟩
  · exact hw
  · simp [h j hj] at hc

/-- A clash outside slot `i` is a machine check. -/
theorem tlbWrite_of_clash {s : State} {i : Slot}
    (h : ∃ j, j ≠ i ∧ (tlbAt s.tlb j).clashes ⟨s.tlbhi, s.tlblo⟩ = true) (draws : Nat) :
    tlbWrite { s with draws := draws } i = { s with shutdown := true, draws := draws } := by
  rcases tlbWrite_effect s draws i with ⟨hfree, -⟩ | ⟨-, hw⟩
  · obtain ⟨j, hj, hc⟩ := h
    simp [hfree j hj] at hc
  · exact hw

/-- A TLB write touches no slot but the one it names. -/
theorem tlbAt_tlbWrite_of_ne {s : State} {i j : Slot} (h : j ≠ i) (draws : Nat) :
    tlbAt (tlbWrite { s with draws := draws } i).tlb j = tlbAt s.tlb j := by
  rcases tlbWrite_effect s draws i with ⟨-, hslots, -⟩ | ⟨-, hw⟩
  · rw [hslots j, if_neg h]
  · rw [hw]

/-- Settles O50: TLBWI is the write of the slot INDEX names. -/
theorem tlbwiWritesEntry : Obligations.TlbwiWritesEntry := by
  refine ⟨TlbEntry.clashes_iff, fun s hu => ?_⟩
  rw [exec_tlbwi_of_usable hu]
  exact ⟨fun hfree => ⟨_, rfl, writesSlot_tlbWrite hfree s.draws⟩,
    fun hclash => congrArg _ (tlbWrite_of_clash hclash s.draws)⟩

/-- Slots 0 to 7 are never drawn. -/
theorem ne_randomSlot {j : Slot} (h : j.toNat < 8) (k : Nat) : j ≠ randomSlot k := by
  rintro rfl
  exact absurd (randomSlot_ge k) (Nat.not_le.2 h)

/-- Settles O51: TLBWR is the write of a drawn slot, which is none of the low eight. -/
theorem tlbwrSparesLowSlots : Obligations.TlbwrSparesLowSlots := by
  refine ⟨TlbEntry.clashes_iff, fun s hu => ?_⟩
  rw [exec_tlbwr_of_usable hu]
  have hge := randomSlot_ge s.draws
  refine ⟨⟨_, _, rfl, hge, ?_⟩, fun hfree => ⟨_, _, rfl, hge, ?_⟩, fun ⟨j, hj, hclash⟩ => ⟨s.draws + 1, ?_⟩,
    ⟨_, rfl, fun j hj => ?_⟩⟩
  · exact (tlbWrite_effect s (s.draws + 1) _).imp id fun ⟨hclash, hw⟩ => ⟨hclash, _, hw⟩
  · exact writesSlot_tlbWrite (fun j _ => hfree j) (s.draws + 1)
  · exact congrArg _ (tlbWrite_of_clash ⟨j, ne_randomSlot hj s.draws, hclash⟩ (s.draws + 1))
  · exact tlbAt_tlbWrite_of_ne (ne_randomSlot hj s.draws) (s.draws + 1)

/-- Settles O52: TLBP goes by the list of matching slots, which is empty, one slot or more. -/
theorem tlbpProbes : Obligations.TlbpProbes := by
  refine ⟨TlbEntry.hits_iff, fun s hu => ?_⟩
  rw [exec_tlbp_of_usable hu]
  refine ⟨fun hmiss => ?_, fun i hi => ?_, fun hmany => ?_⟩
  · rw [(tlbHits_nil_iff ..).2 hmiss]
    exact ⟨_, rfl, rfl, rfl, rfl, rfl, rfl, rfl, ⟨rfl, rfl, rfl⟩, kernelKeeps_advance s _ _ _⟩
  · rw [(tlbHits_singleton_iff ..).2 hi]
    exact ⟨_, rfl, rfl, rfl, rfl, rfl, rfl, rfl, rfl, ⟨rfl, rfl, rfl⟩, kernelKeeps_advance s _ _ _⟩
  · obtain ⟨i, j, rest, hhits⟩ := (tlbHits_many_iff ..).2 hmany
    rw [hhits]
    rfl

/-! ### Accesses that fail, and accesses that reach a device (R89, R99 to R101; spec/43_load_store.md R290, R312, R313) -/

/-- What goes by an access takes the access's exception, and shuts down on its machine check. -/
theorem andThen_fails {r : Result} {a : Access} {s : State} {go dev : Word → Result} (h : r = a.andThen s go dev) :
    (∀ e, a = .raise e → r = .next (trapEntry e s)) ∧ (a = .machineCheck → r = .next (shutDown s)) :=
  ⟨fun _ ha => by rw [h, ha, andThen_raise], fun ha => by rw [h, ha, andThen_machineCheck]⟩

theorem llscGuard_of_hasLLSC {s : State} (h : s.cfg.hasLLSC = true) (go : Result) : llscGuard s go = go := by
  simp [llscGuard, h]

/-- A load from a device: some value of the device's, extended as the instruction says. -/
theorem loadResult_device_extended {α : Type} {s : State} {ea pa : Word} {n : Nat} {c : Bool}
    (h : memAddress s ea .load n c = .device pa) (rt : Reg) (read : Memory → Word → α) (extend : α → Word) :
    ∃ (t : State) (v : α), loadResult s rt ea n c (fun m pa => extend (read m pa)) = .next t ∧
      RegOnly s t rt (extend v) := by
  obtain ⟨t, ht, hreg⟩ := loadResult_device h rt fun m pa => extend (read m pa)
  exact ⟨t, _, ht, hreg⟩

/-- LWL and LWR at a device: the merge of the bytes the device answers with in the aligned word. -/
theorem loadPart_device {s : State} {rs : Reg} {imm : Half} {pa : Word}
    (h : memAddress s (effectiveAddress s rs imm) .load 4 false = .device pa) (rt : Reg)
    (merge : Word → Word → Nat → Word) :
    ∃ (t : State) (M : Nat → Byte), loadPart s rs rt imm merge = .next t ∧
      RegOnly s t rt (merge (wordOfBytes (M 0) (M 1) (M 2) (M 3)) (readReg s rt)
        ((effectiveAddress s rs imm).toNat % 4)) := by
  obtain ⟨t, ht, hreg⟩ := loadResult_device h rt fun m pa =>
    merge (m.read32 (alignedWord pa)) (readReg s rt) (byteInWord (effectiveAddress s rs imm))
  exact ⟨t, fun k => (deviceBytes s pa).read (byteAddr (alignedWord pa) k), ht, hreg⟩

/-- A store to a device only goes on. -/
theorem storeResult_device_spec {s : State} {ea pa : Word} {n : Nat} {c : Bool}
    (h : memAddress s ea .store n c = .device pa) (update : Word → Memory) :
    ∃ t, storeResult s ea n c update = .next t ∧ NothingElse s t :=
  ⟨_, storeResult_device h update, nothingElse_advance s⟩

theorem exec_ll_of_hasLLSC {s : State} (hl : s.cfg.hasLLSC = true) (rs rt : Reg) (imm : Half) :
    exec (.ll rs rt imm) s =
      (memAddress s (effectiveAddress s rs imm) .load 4 true).andThen s
        (fun pa => .next (llLoads s rt pa (s.mem.read32 pa)))
        fun pa => .next (llLoads (countDraw s) rt pa ((deviceBytes s pa).read32 pa)) :=
  llscGuard_of_hasLLSC hl _

/-- Where LL and SC exist, SC goes by its translation alone (log 12). -/
theorem exec_sc_of_hasLLSC {s : State} (hl : s.cfg.hasLLSC = true) (rs rt : Reg) (imm : Half) :
    exec (.sc rs rt imm) s =
      (translate s (effectiveAddress s rs imm) .store 4 true).andThen s (scAt s rt) (scAt s rt) :=
  llscGuard_of_hasLLSC hl _

/-- An LL that loads `v` from `pa`: the reservation is made, `rt` is written and nothing else changes. -/
def LlCompletes (s t : State) (rt : Reg) (pa v : Word) : Prop :=
  WritesReg s t rt v ∧ t.llbit = true ∧ t.lladdr = pa ∧ GoesOn s t ∧ SameHiLo s t ∧ SameCp0 s t ∧ SameMem s t ∧
    SameOutside s t

theorem llCompletes_llLoads (s : State) (draws : Nat) (rt : Reg) (pa v : Word) :
    LlCompletes s (llLoads { s with draws := draws } rt pa v) rt pa v := by
  refine ⟨fun r => (readReg_advance _ r).trans (readReg_setReg _ rt r v), ?_⟩
  simp [llLoads, GoesOn, SameHiLo, SameCp0, SameMmu, SameStatus, SameMem, SameOutside]

/-- An SC that completes with `v` in `rt` and memory as it was: the reservation is given up and nothing else changes. -/
def ScCompletes (s t : State) (rt : Reg) (v : Word) : Prop :=
  t.llbit = false ∧ t.lladdr = s.lladdr ∧ WritesReg s t rt v ∧ SameMem s t ∧ GoesOn s t ∧ SameHiLo s t ∧
    SameCp0 s t ∧ SameOutside s t

/-- Giving up the reservation, writing `rt` and going on is such a completion. -/
theorem scCompletes_advance (s : State) (rt : Reg) (v : Word) :
    ScCompletes s (advance (setReg { s with llbit := false } rt v)) rt v := by
  refine ⟨by simp, by simp, fun r => (readReg_advance _ r).trans (readReg_setReg _ rt r v), ?_⟩
  simp [GoesOn, SameHiLo, SameCp0, SameMmu, SameStatus, SameMem, SameOutside]

/-- An SC at a translated address fails with nothing stored, or holds the reservation and asks the bus (R313). -/
theorem scAt_cases (s : State) (rt : Reg) (pa : Word) :
    (∃ t, scAt s rt pa = .next t ∧ ScCompletes s t rt 0#32) ∨
      (s.llbit = true ∧ s.lladdr = pa ∧ scAt s rt pa = (busAddress s .store pa).andThen s
        (fun pa => .next (countDraw (scStores s rt (s.mem.write32 pa (readReg s rt)))))
        fun _ => .next (countDraw (scStores s rt s.mem))) := by
  unfold scAt
  split
  · rename_i hres
    split
    · exact .inr ⟨hres.1, hres.2, rfl⟩
    · exact .inl ⟨_, rfl, scCompletes_advance s rt 0#32⟩
  · exact .inl ⟨_, rfl, scCompletes_advance s rt 0#32⟩

/-- An SC where a device answers fails, or stores to the device under its reservation. -/
theorem scAt_device {s : State} {pa : Word} (h : physAt s.cfg pa = some .device) (rt : Reg) :
    ∃ t, scAt s rt pa = .next t ∧
      (ScCompletes s t rt 0#32 ∨ (s.llbit = true ∧ s.lladdr = pa ∧ ScCompletes s t rt 1#32)) := by
  rcases scAt_cases s rt pa with ⟨t, ht, hc⟩ | ⟨hll, haddr, hsc⟩
  · exact ⟨t, ht, .inl hc⟩
  · have hbus : busAddress s .store pa = .device pa := by rw [busAddress, h]
    rw [hsc, hbus, andThen_device]
    exact ⟨_, rfl, .inr ⟨hll, haddr, scCompletes_advance s rt 1#32⟩⟩

/-- An SC where nothing answers fails, or takes DBE under its reservation. -/
theorem scAt_none {s : State} {pa : Word} (h : physAt s.cfg pa = none) (rt : Reg) :
    (s.llbit = true ∧ s.lladdr = pa ∧ scAt s rt pa = .next (trapEntry .dbe s)) ∨
      ∃ t, scAt s rt pa = .next t ∧ ScCompletes s t rt 0#32 := by
  rcases scAt_cases s rt pa with hfail | ⟨hll, haddr, hsc⟩
  · exact .inr hfail
  · have hbus : busAddress s .store pa = .raise .dbe := by rw [busAddress, h]; rfl
    exact .inl ⟨hll, haddr, by rw [hsc, hbus, andThen_raise]⟩

/-- Settles O38: every load and store goes by its access, and SC by its translation and then the bus. -/
theorem failedAccesses : Obligations.FailedAccesses := by
  rintro s rs rt imm ea rfl
  refine ⟨fun p hp => ?_, fun pa h => ⟨?_, ?_⟩, fun pa h => ⟨?_, ?_⟩, fun pa h => ?_, fun pa r h hr => ⟨?_, ?_⟩,
    fun p hp pa h => ?_, fun hl => ?_⟩
  · fin_cases hp <;> exact andThen_fails rfl
  · exact loadResult_device_extended h rt Memory.read8 sext8
  · exact loadResult_device_extended h rt Memory.read8 zext8
  · exact loadResult_device_extended h rt Memory.read16 sext16
  · exact loadResult_device_extended h rt Memory.read16 zext16
  · exact loadResult_device_extended h rt Memory.read32 id
  · obtain rfl : r = regByte (readReg s rt) := funext hr
    obtain ⟨t, M, ht, hreg⟩ := loadPart_device h rt lwlMerge
    rw [lwlMerge_bytes _ _ _ _ _ _ (Nat.mod_lt _ (by decide))] at hreg
    exact ⟨t, M, ht, hreg⟩
  · obtain rfl : r = regByte (readReg s rt) := funext hr
    obtain ⟨t, M, ht, hreg⟩ := loadPart_device h rt lwrMerge
    rw [lwrMerge_bytes _ _ _ _ _ _ (Nat.mod_lt _ (by decide))] at hreg
    exact ⟨t, M, ht, hreg⟩
  · fin_cases hp <;> exact storeResult_device_spec h _
  obtain ⟨hllRaise, hllCheck⟩ := andThen_fails (exec_ll_of_hasLLSC hl rs rt imm)
  obtain ⟨hscRaise, hscCheck⟩ := andThen_fails (exec_sc_of_hasLLSC hl rs rt imm)
  refine ⟨hllRaise, hllCheck, fun pa h => ?_, hscRaise, hscCheck, fun pa h => ⟨fun hdev => ?_, fun hnone => ?_⟩⟩
  · rw [exec_ll_of_hasLLSC hl, h, andThen_device]
    exact ⟨_, _, rfl, llCompletes_llLoads s (s.draws + 1) rt pa _⟩
  · rw [exec_sc_of_hasLLSC hl, h, andThen_ok]
    obtain ⟨t, ht, ⟨hll, haddr, hreg, hrest⟩ | ⟨hres, hpa, hll, haddr, hreg, hrest⟩⟩ := scAt_device hdev rt
    · exact ⟨t, ht, hll, haddr, .inl hreg, hrest⟩
    · exact ⟨t, ht, hll, haddr, .inr ⟨hres, hpa, hreg⟩, hrest⟩
  · rw [exec_sc_of_hasLLSC hl, h, andThen_ok]
    exact scAt_none hnone rt

end Sys2Proof.Machine

/-! ## The encoding statements (spec/30_encoding.md): the decoder and the encoder are inverse, and every word that is no
instruction has its class

That an instruction comes back from its word is `decode_encode`. The converse goes table by table: each row names its fields,
the fields it does not name are checked to be zero, and a word is put together from its fields. The classes of the words
that are no instruction are said of each table first, and then of the decoder that picks the table. -/

namespace Sys2Proof

/-- Settles O1: each instruction's format is read back field by field. -/
theorem decodeOfEncode : Obligations.DecodeOfEncode := decode_encode

/-- Settles O3: each of the words is the word of its instruction. -/
theorem specWordsDecode : Obligations.SpecWordsDecode :=
  ⟨decode_encode (.add 1 2 3), decode_encode (.addi 1 2 0xffff), decode_encode (.sra 2 3 4), decode_encode (.div 1 2),
    decode_encode (.jalr 25 31), decode_encode (.bgezal 1 1), decode_encode (.sw 1 2 8), decode_encode (.sc 1 2 0),
    decode_encode (.brk 0x1c00), decode_encode (.cop1 0x0020800), decode_encode (.mtc0 4 12 0), decode_encode .rfe⟩

/-! ### What a row answers, and a field known by its number -/

theorem strict_eq_instr {ok : Bool} {i j : Instr} : strict ok i = .instr j ↔ ok = true ∧ i = j := by
  cases ok <;> simp [strict]

theorem strictCop_eq_instr {z : BitVec 2} {ok : Bool} {i j : Instr} :
    strictCop z ok i = .instr j ↔ ok = true ∧ i = j := by
  cases ok <;> simp [strictCop]

theorem eq_ofNat_of_toNat {n k : Nat} {x : BitVec n} (h : x.toNat = k) : x = BitVec.ofNat n k :=
  (BitVec.toNat_eq_nat.1 h).2

/-- Bit 25, which marks a coprocessor operation, is the top bit of the sub-opcode field. -/
theorem copBitOf_eq_one_iff (w : Word) : copBitOf w = 1#1 ↔ 16 ≤ (rsOf w).toNat := by
  rw [← BitVec.toNat_inj, copBitOf_toNat, rsOf_toNat]
  simp only [BitVec.toNat_ofNat]
  omega

theorem copBitOf_eq_zero_iff (w : Word) : copBitOf w = 0#1 ↔ ¬ copBitOf w = 1#1 := by
  generalize copBitOf w = b
  revert b
  decide

/-! ### Each table read backwards (R145 to R148) -/

theorem encode_of_decodeSpecial {w : Word} {i : Instr} (hop : opOf w = 0x00#6) (h : decodeSpecial w = .instr i) :
    encode i = w := by
  have hfields := encR_fields w
  have hcode := encCode_fields w hop
  unfold decodeSpecial at h
  split at h
  -- SYSCALL, BREAK
  case h_9 hfunct | h_10 hfunct =>
    cases h
    simpa [encode, eq_ofNat_of_toNat hfunct] using hcode
  -- SYNC
  case h_11 hfunct =>
    split at h
    · next hz =>
      cases h
      simpa [encode, eq_ofNat_of_toNat hfunct, eq_of_beq hz] using hcode
    · cases h
  -- the `*` cells
  case h_30 => cases h
  -- the R-type rows
  all_goals
    next hfunct =>
      obtain ⟨hz, rfl⟩ := strict_eq_instr.1 h
      simp only [Bool.and_eq_true, beq_iff_eq] at hz
      simpa [encode, hop, eq_ofNat_of_toNat hfunct, hz] using hfields

theorem encode_of_decodeRegimm {w : Word} {i : Instr} (hop : opOf w = 0x01#6) (h : decodeRegimm w = .instr i) :
    encode i = w := by
  unfold decodeRegimm at h
  split at h
  -- the `*` cells
  case h_5 => cases h
  all_goals
    next hrt =>
      cases h
      simpa [encode, hop, eq_ofNat_of_toNat hrt] using encI_fields w

theorem encode_of_decodeCop0 {w : Word} {i : Instr} (hop : opOf w = 0x10#6) (h : decodeCop0 w = .instr i) :
    encode i = w := by
  unfold decodeCop0 at h
  split at h
  -- the operations
  · next hbit =>
    split at h
    case h_7 => cases h
    all_goals
      next hfunct =>
        obtain ⟨hz, rfl⟩ := strictCop_eq_instr.1 h
        simpa [encode, eq_ofNat_of_toNat hfunct] using encCop0_fields w hop (eq_of_beq hbit) (eq_of_beq hz)
  -- the moves
  · split at h
    case h_3 => cases h
    all_goals
      next hrs =>
        obtain ⟨hz, rfl⟩ := strictCop_eq_instr.1 h
        simpa [encode, hop, eq_ofNat_of_toNat hrs] using encMove_fields w (eq_of_beq hz)

/-- The words of the seven forms of a coprocessor 1 to 3 with primary opcode `op` (spec/45_coprocessor.md R353 to R359). -/
structure CopForms.EncodedAs (f : CopForms) (op : BitVec 6) : Prop where
  mfc : ∀ rt rd sel, encode (f.mfc rt rd sel) = encMove op 0x00#5 rt rd sel
  mtc : ∀ rt rd sel, encode (f.mtc rt rd sel) = encMove op 0x04#5 rt rd sel
  cfc : ∀ rt rd, encode (f.cfc rt rd) = encMove op 0x02#5 rt rd 0#3
  ctc : ∀ rt rd, encode (f.ctc rt rd) = encMove op 0x06#5 rt rd 0#3
  bcf : ∀ imm, encode (f.bcf imm) = encI op 0x08#5 0x00#5 imm
  bct : ∀ imm, encode (f.bct imm) = encI op 0x08#5 0x01#5 imm
  cop : ∀ cofun, encode (f.cop cofun) = encCop op cofun

theorem cop1Forms_encodedAs : cop1Forms.EncodedAs 0x11#6 := by constructor <;> intros <;> rfl

theorem cop2Forms_encodedAs : cop2Forms.EncodedAs 0x12#6 := by constructor <;> intros <;> rfl

theorem cop3Forms_encodedAs : cop3Forms.EncodedAs 0x13#6 := by constructor <;> intros <;> rfl

theorem encode_of_decodeCopZ {z : BitVec 2} {f : CopForms} {w : Word} {i : Instr} (hf : f.EncodedAs (opOf w))
    (h : decodeCopZ z f w = .instr i) : encode i = w := by
  unfold decodeCopZ at h
  split at h
  -- COPz
  · next hbit =>
    cases h
    rw [hf.cop, encCop_fields w (eq_of_beq hbit)]
  split at h
  -- MFCz, MTCz
  case h_1 hrs | h_3 hrs =>
    obtain ⟨hz, rfl⟩ := strictCop_eq_instr.1 h
    simpa [hf.mfc, hf.mtc, eq_ofNat_of_toNat hrs] using encMove_fields w (eq_of_beq hz)
  -- CFCz, CTCz
  case h_2 hrs | h_4 hrs =>
    obtain ⟨hz, rfl⟩ := strictCop_eq_instr.1 h
    obtain ⟨hmove, hsel⟩ := Bool.and_eq_true_iff.1 hz
    simpa [hf.cfc, hf.ctc, eq_ofNat_of_toNat hrs, eq_of_beq hsel] using encMove_fields w (eq_of_beq hmove)
  -- BCzF, BCzT
  case h_5 hrs =>
    split at h
    case h_3 => cases h
    all_goals
      next hrt =>
        cases h
        simpa [hf.bcf, hf.bct, eq_ofNat_of_toNat hrs, eq_ofNat_of_toNat hrt] using encI_fields w
  case h_6 => cases h

/-- Settles O2: each primary opcode's row or table, read backwards. -/
theorem encodeOfDecode : Obligations.EncodeOfDecode := by
  intro w i h
  unfold decode at h
  split at h
  -- SPECIAL, REGIMM
  case h_1 hop => exact encode_of_decodeSpecial (eq_ofNat_of_toNat hop) h
  case h_2 hop => exact encode_of_decodeRegimm (eq_ofNat_of_toNat hop) h
  -- J, JAL
  case h_3 hop | h_4 hop =>
    cases h
    simpa [encode, eq_ofNat_of_toNat hop] using encJ_fields w
  -- BLEZ, BGTZ, LUI: one field is checked
  case h_7 hop | h_8 hop | h_16 hop =>
    obtain ⟨hz, rfl⟩ := strict_eq_instr.1 h
    simpa [encode, eq_ofNat_of_toNat hop, eq_of_beq hz] using encI_fields w
  -- coprocessors
  case h_17 hop => exact encode_of_decodeCop0 (eq_ofNat_of_toNat hop) h
  case h_18 hop => exact encode_of_decodeCopZ (eq_ofNat_of_toNat hop ▸ cop1Forms_encodedAs) h
  case h_19 hop => exact encode_of_decodeCopZ (eq_ofNat_of_toNat hop ▸ cop2Forms_encodedAs) h
  case h_20 hop => exact encode_of_decodeCopZ (eq_ofNat_of_toNat hop ▸ cop3Forms_encodedAs) h
  -- the `*` cells
  case h_42 => cases h
  -- the other I-type rows
  all_goals
    next hop =>
      cases h
      simpa [encode, eq_ofNat_of_toNat hop] using encI_fields w

/-! ### The cells of the primary and SPECIAL maps (R145, R146) -/

/-- The `*` cells of the primary map. -/
def primaryStars : List Nat :=
  [0x14, 0x15, 0x16, 0x17, 0x18, 0x19, 0x1a, 0x1b, 0x1c, 0x1d, 0x1e, 0x1f, 0x27, 0x2c, 0x2d, 0x34, 0x35, 0x36, 0x37, 0x3c,
    0x3d, 0x3e, 0x3f]

/-- The primary opcodes of an instruction or of a table. -/
def primaryRows : List Nat :=
  [0x00, 0x01, 0x02, 0x03, 0x04, 0x05, 0x06, 0x07, 0x08, 0x09, 0x0a, 0x0b, 0x0c, 0x0d, 0x0e, 0x0f, 0x10, 0x11, 0x12, 0x13,
    0x20, 0x21, 0x22, 0x23, 0x24, 0x25, 0x26, 0x28, 0x29, 0x2a, 0x2b, 0x2e, 0x2f, 0x30, 0x31, 0x32, 0x33, 0x38, 0x39, 0x3a,
    0x3b]

/-- The `*` cells of the SPECIAL map. -/
def specialStars : List Nat :=
  [0x01, 0x05, 0x0a, 0x0b, 0x0e, 0x14, 0x15, 0x16, 0x17, 0x1c, 0x1d, 0x1e, 0x1f, 0x28, 0x29, 0x2c, 0x2d, 0x2e, 0x2f, 0x30,
    0x31, 0x32, 0x33, 0x34, 0x35, 0x36, 0x37, 0x38, 0x39, 0x3a, 0x3b, 0x3c, 0x3d, 0x3e, 0x3f]

/-- The functions of an instruction of the SPECIAL map. -/
def specialRows : List Nat :=
  [0x00, 0x02, 0x03, 0x04, 0x06, 0x07, 0x08, 0x09, 0x0c, 0x0d, 0x0f, 0x10, 0x11, 0x12, 0x13, 0x18, 0x19, 0x1a, 0x1b, 0x20,
    0x21, 0x22, 0x23, 0x24, 0x25, 0x26, 0x27, 0x2a, 0x2b]

theorem mem_primaryStars_of_not_row : ∀ n < 64, n ∉ primaryRows → n ∈ primaryStars := by decide

/-- No `*` cell of the primary map is a coprocessor's. -/
theorem not_cop_of_mem_primaryStars : ∀ n ∈ primaryStars, n < 0x10 ∨ 0x13 < n := by decide

theorem mem_specialStars_of_not_row : ∀ n < 64, n ∉ specialRows → n ∈ specialStars := by decide

/-! ### The classes of words that are no instruction (R149, R160; spec/45_coprocessor.md R362) -/

/-- A SPECIAL function whose must-be-zero bits are not zero, field by field (R149). -/
def SpecialNotZero (w : Word) : Prop :=
  ((functOf w).toNat ∈ [0x00, 0x02, 0x03, 0x10, 0x12] ∧ rsOf w ≠ 0#5) ∨
  ((functOf w).toNat ∈ [0x08, 0x09, 0x10, 0x11, 0x12, 0x13] ∧ rtOf w ≠ 0#5) ∨
  ((functOf w).toNat ∈ [0x08, 0x11, 0x13, 0x18, 0x19, 0x1a, 0x1b] ∧ rdOf w ≠ 0#5) ∨
  ((functOf w).toNat ∈ [0x04, 0x06, 0x07, 0x08, 0x09, 0x10, 0x11, 0x12, 0x13, 0x18, 0x19, 0x1a, 0x1b, 0x20, 0x21, 0x22,
    0x23, 0x24, 0x25, 0x26, 0x27, 0x2a, 0x2b] ∧ shamtOf w ≠ 0#5)

/-- `SYNC`'s function with must-be-zero bits that are not zero (log 30). -/
def SyncNotZero (w : Word) : Prop := (functOf w).toNat = 0x0f ∧ codeOf w ≠ 0#20

/-- Neither an operation nor a move of coprocessor 0 (R362). -/
def Cop0Undefined (w : Word) : Prop :=
  ¬ (copBitOf w = 1#1 ∧ opZeroOf w = 0#19 ∧ (functOf w).toNat ∈ [0x01, 0x02, 0x06, 0x08, 0x10, 0x20]) ∧
  ¬ ((rsOf w).toNat ∈ [0x00, 0x04] ∧ moveZeroOf w = 0#8)

/-- None of the seven forms of coprocessors 1 to 3 (R148, R362; log 22). -/
def CopZUndefined (w : Word) : Prop :=
  copBitOf w = 0#1 ∧ ¬ ((rsOf w).toNat ∈ [0x00, 0x04] ∧ moveZeroOf w = 0#8) ∧
  ¬ ((rsOf w).toNat ∈ [0x02, 0x06] ∧ moveZeroOf w = 0#8 ∧ selOf w = 0#3) ∧
  ¬ ((rsOf w).toNat = 0x08 ∧ (rtOf w).toNat ∈ [0x00, 0x01])

/-- A word of a `*` cell of the primary, SPECIAL or REGIMM map (R160). -/
def ReservedWord (w : Word) : Prop :=
  (opOf w).toNat ∈ primaryStars ∨ ((opOf w).toNat = 0 ∧ (functOf w).toNat ∈ specialStars) ∨
  ((opOf w).toNat = 1 ∧ (rtOf w).toNat ∉ [0x00, 0x01, 0x10, 0x11])

/-- An instruction's opcode with must-be-zero bits that are not zero (R149). -/
def NotZeroWord (w : Word) : Prop :=
  ((opOf w).toNat = 0 ∧ SpecialNotZero w) ∨ ((opOf w).toNat ∈ [0x06, 0x07] ∧ rtOf w ≠ 0#5) ∨
  ((opOf w).toNat = 0x0f ∧ rsOf w ≠ 0#5)

/-- `SYNC`'s opcode and function with must-be-zero bits that are not zero (log 30). -/
def SyncNotZeroWord (w : Word) : Prop := (opOf w).toNat = 0 ∧ SyncNotZero w

/-- A word of coprocessor `z`'s opcode that is none of its forms (R362). -/
def CopUndefinedWord (w : Word) (z : BitVec 2) : Prop :=
  (opOf w).toNat = 0x10 + z.toNat ∧ (z = 0#2 ∧ Cop0Undefined w ∨ z ≠ 0#2 ∧ CopZUndefined w)

theorem not_copUndefinedWord {w : Word} (h : (opOf w).toNat < 0x10 ∨ 0x13 < (opOf w).toNat) (z : BitVec 2) :
    ¬ CopUndefinedWord w z := fun ⟨hop, _⟩ => by omega

/-- Under coprocessor `z`'s opcode no word is undefined for another coprocessor. -/
theorem copUndefinedWord_iff {w : Word} {z : BitVec 2} (h : (opOf w).toNat = 0x10 + z.toNat) (y : BitVec 2) :
    CopUndefinedWord w y ↔ z = y ∧ (z = 0#2 ∧ Cop0Undefined w ∨ z ≠ 0#2 ∧ CopZUndefined w) := by
  have heq : (opOf w).toNat = 0x10 + y.toNat ↔ z = y := by rw [h, Nat.add_left_cancel_iff, BitVec.toNat_inj]
  rw [CopUndefinedWord, heq]
  exact and_congr_right fun h => h ▸ .rfl

/-! ### What a decoder's answer tells of the word -/

/-- The answer `d` is each reason to be no instruction exactly where the word is of that class, and never that the word has
the wrong length (R140). -/
structure Classified (d : Decoded) (isReserved isNotZero isSyncNotZero : Prop) (isCopUndefined : BitVec 2 → Prop) :
    Prop where
  eq_reserved : d = .reserved ↔ isReserved
  eq_mustBeZero : d = .mustBeZero ↔ isNotZero
  eq_syncNotZero : d = .syncNotZero ↔ isSyncNotZero
  eq_copUndefined : ∀ z, d = .copUndefined z ↔ isCopUndefined z
  ne_wrongLength : d ≠ .wrongLength

namespace Classified

theorem congr {d : Decoded} {R R' M M' S S' : Prop} {U U' : BitVec 2 → Prop} (h : Classified d R M S U)
    (hR : R ↔ R') (hM : M ↔ M') (hS : S ↔ S') (hU : ∀ z, U z ↔ U' z) : Classified d R' M' S' U' :=
  ⟨h.eq_reserved.trans hR, h.eq_mustBeZero.trans hM, h.eq_syncNotZero.trans hS,
    fun z => (h.eq_copUndefined z).trans (hU z), h.ne_wrongLength⟩

theorem instr (i : Instr) : Classified (.instr i) False False False fun _ => False := by constructor <;> simp

theorem reserved : Classified .reserved True False False fun _ => False := by constructor <;> simp

theorem syncNotZero : Classified .syncNotZero False False True fun _ => False := by constructor <;> simp

theorem copUndefined (z : BitVec 2) : Classified (.copUndefined z) False False False fun y => z = y := by
  constructor <;> simp

theorem strict (ok : Bool) (i : Instr) : Classified (strict ok i) False (ok = false) False fun _ => False := by
  constructor <;> simp

theorem strictCop (z : BitVec 2) (ok : Bool) (i : Instr) :
    Classified (strictCop z ok i) False False False fun y => ok = false ∧ z = y := by
  constructor <;> simp

end Classified

/-! ### The classes of each table -/

theorem classified_decodeSpecial (w : Word) :
    Classified (decodeSpecial w) ((functOf w).toNat ∈ specialStars) (SpecialNotZero w) (SyncNotZero w) fun _ => False := by
  unfold decodeSpecial
  split
  -- SYSCALL, BREAK
  case h_9 hfunct | h_10 hfunct =>
    exact (Classified.instr _).congr (by rw [hfunct]; decide) (by simp [hfunct, SpecialNotZero])
      (by simp [hfunct, SyncNotZero]) (by simp)
  -- SYNC
  case h_11 hfunct =>
    split
    · next hz =>
      exact (Classified.instr _).congr (by rw [hfunct]; decide) (by simp [hfunct, SpecialNotZero])
        (by simp [SyncNotZero, eq_of_beq hz]) (by simp)
    · next hz =>
      exact Classified.syncNotZero.congr (by rw [hfunct]; decide) (by simp [hfunct, SpecialNotZero])
        (by simpa [hfunct, SyncNotZero] using hz) (by simp)
  -- the `*` cells
  case h_30 =>
    simp only [imp_false] at *
    have hrow : (functOf w).toNat ∉ specialRows := by
      simp only [specialRows, List.mem_cons, List.not_mem_nil, or_self, not_false_eq_true, *]
    have hstar := mem_specialStars_of_not_row _ (functOf w).isLt hrow
    have hnotZero : ¬ SpecialNotZero w := by
      simp only [SpecialNotZero, List.mem_cons, List.not_mem_nil, or_self, false_and, not_false_eq_true, *]
    have hsync : ¬ SyncNotZero w := by simp only [SyncNotZero, false_and, not_false_eq_true, *]
    exact Classified.reserved.congr (by simp [hstar]) (by simp [hnotZero]) (by simp [hsync]) (by simp)
  -- the R-type rows
  all_goals
    next hfunct =>
      exact (Classified.strict _ _).congr (by rw [hfunct]; decide)
        (by simp [hfunct, SpecialNotZero, imp_iff_not_or, or_assoc]) (by simp [hfunct, SyncNotZero]) (by simp)

theorem classified_decodeRegimm (w : Word) :
    Classified (decodeRegimm w) ((rtOf w).toNat ∉ [0x00, 0x01, 0x10, 0x11]) False False fun _ => False := by
  unfold decodeRegimm
  split
  -- the `*` cells
  case h_5 => exact Classified.reserved.congr (by simp_all) .rfl .rfl fun _ => .rfl
  all_goals
    next hrt => exact (Classified.instr _).congr (by rw [hrt]; decide) .rfl .rfl fun _ => .rfl

theorem classified_decodeCop0 (w : Word) :
    Classified (decodeCop0 w) False False False fun z => 0#2 = z ∧ Cop0Undefined w := by
  unfold decodeCop0
  split
  -- with bit 25 set the sub-opcode is no move's
  · next hbit =>
    have hbit : copBitOf w = 1#1 := eq_of_beq hbit
    have hmove : (rsOf w).toNat ∉ [0x00, 0x04] := by
      have := (copBitOf_eq_one_iff w).1 hbit
      simp only [List.mem_cons, List.not_mem_nil, or_false]
      omega
    have hundef : Cop0Undefined w ↔
        ¬ (opZeroOf w = 0#19 ∧ (functOf w).toNat ∈ [0x01, 0x02, 0x06, 0x08, 0x10, 0x20]) := by
      simp only [Cop0Undefined, hbit, hmove, true_and, false_and, not_false_eq_true, and_true]
    split
    case h_7 => exact (Classified.copUndefined _).congr .rfl .rfl .rfl (by simp_all)
    all_goals
      next hfunct =>
        exact (Classified.strictCop _ _ _).congr .rfl .rfl .rfl (by simp [hundef, hfunct, and_comm])
  -- the moves
  · next hbit =>
    have hundef : Cop0Undefined w ↔ ¬ ((rsOf w).toNat ∈ [0x00, 0x04] ∧ moveZeroOf w = 0#8) := by
      have hbit : ¬ copBitOf w = 1#1 := by simpa using hbit
      simp only [Cop0Undefined, hbit, false_and, not_false_eq_true, true_and]
    split
    case h_3 => exact (Classified.copUndefined _).congr .rfl .rfl .rfl (by simp_all)
    all_goals
      next hrs => exact (Classified.strictCop _ _ _).congr .rfl .rfl .rfl (by simp [hundef, hrs, and_comm])

theorem classified_decodeCopZ (z : BitVec 2) (f : CopForms) (w : Word) :
    Classified (decodeCopZ z f w) False False False fun y => z = y ∧ CopZUndefined w := by
  unfold decodeCopZ
  split
  -- COPz
  · next hbit => exact (Classified.instr _).congr .rfl .rfl .rfl (by simp [CopZUndefined, eq_of_beq hbit])
  next hbit =>
  have hbit : copBitOf w = 0#1 := (copBitOf_eq_zero_iff w).2 (by simpa using hbit)
  split
  -- MFCz, CFCz, MTCz, CTCz
  case h_1 hrs | h_2 hrs | h_3 hrs | h_4 hrs =>
    exact (Classified.strictCop _ _ _).congr .rfl .rfl .rfl (by simp [CopZUndefined, hbit, hrs, and_comm])
  -- BCzF, BCzT
  case h_5 hrs =>
    split
    case h_3 => exact (Classified.copUndefined _).congr .rfl .rfl .rfl (by simp_all [CopZUndefined])
    all_goals
      next hrt => exact (Classified.instr _).congr .rfl .rfl .rfl (by simp [CopZUndefined, hrs, hrt])
  case h_6 => exact (Classified.copUndefined _).congr .rfl .rfl .rfl (by simp_all [CopZUndefined])

/-! ### The classes of every word -/

/-- Under coprocessor `z`'s opcode a word is of no class but undefined for `z`. -/
theorem classified_of_cop {w : Word} {z : BitVec 2} {d : Decoded} (hop : (opOf w).toNat = 0x10 + z.toNat)
    (h : Classified d False False False fun y => z = y ∧ (z = 0#2 ∧ Cop0Undefined w ∨ z ≠ 0#2 ∧ CopZUndefined w)) :
    Classified d (ReservedWord w) (NotZeroWord w) (SyncNotZeroWord w) (CopUndefinedWord w) := by
  have hz := z.isLt
  have hstar : (opOf w).toNat ∉ primaryStars := fun hmem => by
    have := not_cop_of_mem_primaryStars _ hmem
    omega
  refine h.congr (iff_of_false id ?_) (iff_of_false id ?_) (iff_of_false id ?_) fun y => (copUndefinedWord_iff hop y).symm
  · rintro (hmem | ⟨h0, -⟩ | ⟨h1, -⟩)
    · exact hstar hmem
    · omega
    · omega
  · simp only [NotZeroWord, List.mem_cons, List.not_mem_nil, or_false]
    omega
  · rintro ⟨h0, -⟩
    omega

theorem classified_decode (w : Word) :
    Classified (decode w) (ReservedWord w) (NotZeroWord w) (SyncNotZeroWord w) (CopUndefinedWord w) := by
  unfold decode
  split
  -- SPECIAL, REGIMM
  case h_1 hop =>
    exact (classified_decodeSpecial w).congr (by simp [ReservedWord, primaryStars, hop]) (by simp [NotZeroWord, hop])
      (by simp [SyncNotZeroWord, hop]) (by simp [not_copUndefinedWord, hop])
  case h_2 hop =>
    exact (classified_decodeRegimm w).congr (by simp [ReservedWord, primaryStars, hop]) (by simp [NotZeroWord, hop])
      (by simp [SyncNotZeroWord, hop]) (by simp [not_copUndefinedWord, hop])
  -- BLEZ, BGTZ, LUI: one field is checked
  case h_7 hop | h_8 hop | h_16 hop =>
    exact (Classified.strict _ _).congr (by simp [ReservedWord, primaryStars, hop]) (by simp [NotZeroWord, hop])
      (by simp [SyncNotZeroWord, hop]) (by simp [not_copUndefinedWord, hop])
  -- coprocessors
  case h_17 hop => exact classified_of_cop (z := 0#2) hop (by simpa using classified_decodeCop0 w)
  case h_18 hop => exact classified_of_cop (z := 1#2) hop (by simpa using classified_decodeCopZ 1#2 cop1Forms w)
  case h_19 hop => exact classified_of_cop (z := 2#2) hop (by simpa using classified_decodeCopZ 2#2 cop2Forms w)
  case h_20 hop => exact classified_of_cop (z := 3#2) hop (by simpa using classified_decodeCopZ 3#2 cop3Forms w)
  -- the `*` cells
  case h_42 =>
    simp only [imp_false] at *
    have hrow : (opOf w).toNat ∉ primaryRows := by
      simp only [primaryRows, List.mem_cons, List.not_mem_nil, or_self, not_false_eq_true, *]
    have hstar := mem_primaryStars_of_not_row _ (opOf w).isLt hrow
    have hnotZero : ¬ NotZeroWord w := by
      simp only [NotZeroWord, List.mem_cons, List.not_mem_nil, or_self, false_and, not_false_eq_true, *]
    have hsync : ¬ SyncNotZeroWord w := by simp only [SyncNotZeroWord, false_and, not_false_eq_true, *]
    exact Classified.reserved.congr (by simp [ReservedWord, hstar]) (by simp [hnotZero]) (by simp [hsync])
      (by simp [not_copUndefinedWord (not_cop_of_mem_primaryStars _ hstar)])
  -- the J-type and the other I-type rows
  all_goals
    next hop =>
      exact (Classified.instr _).congr (by simp [ReservedWord, primaryStars, hop]) (by simp [NotZeroWord, hop])
        (by simp [SyncNotZeroWord, hop]) (by simp [not_copUndefinedWord, hop])

/-- Only the number of bytes makes the length wrong: four bytes are a word, and no word has the wrong length (R140). -/
theorem decodeBytes_eq_wrongLength_iff (bs : List Byte) : decodeBytes bs = .wrongLength ↔ bs.length ≠ 4 := by
  unfold decodeBytes
  split
  · simp [(classified_decode _).ne_wrongLength]
  · next hother =>
    refine iff_of_true rfl fun hlen => ?_
    match bs, hlen with
    | [b0, b1, b2, b3], _ => exact hother b0 b1 b2 b3 rfl

/-- Settles O4: the classes of the word that the decoder's answer tells are those of the statement. -/
theorem reservedWordsAreTheStarCells : Obligations.ReservedWordsAreTheStarCells := by
  refine ⟨fun w => ?_, decodeBytes_eq_wrongLength_iff⟩
  have h := classified_decode w
  refine ⟨h.eq_reserved, ?_, fun z hz => ?_, h.eq_mustBeZero, h.eq_syncNotZero, h.ne_wrongLength⟩
  · rw [h.eq_copUndefined]
    simp [CopUndefinedWord, Cop0Undefined]
  · rw [h.eq_copUndefined]
    simp [CopUndefinedWord, hz, CopZUndefined]

/-! ### What each version has (spec/00_scope.md R8) -/

theorem Config.hasSync_iff (c : Config) : c.hasSync = true ↔ c.version = .v2 := beq_iff_eq

theorem Config.hasCache_iff (c : Config) : c.hasCache = true ↔ c.version = .v2 := beq_iff_eq

theorem Config.hasLLSC_of_v1 {c : Config} (h : c.version = .v1) : c.hasLLSC = c.llscOnV1 := by simp [Config.hasLLSC, h]

end Sys2Proof

namespace Sys2Proof.Machine

/-! ### The step on a word that is no instruction (R149, R160; spec/45_coprocessor.md R352, R362) -/

/-- A processor about to run a word of memory runs what the word decodes to (spec/00_scope.md R11). -/
theorem step_of_aboutToRun {s b : State} {pa : Word} (h : AboutToRun s b pa) :
    step s = runDecoded (decodeBytes (fetchBytes b.mem pa)) b := by
  obtain ⟨hfetch, hpa⟩ := h
  rw [step_of_aboutToFetch hfetch, runNext_of_ok hpa]

theorem undefinedCop_zero (s : State) :
    undefinedCop 0#2 s = if cp0Usable s then .refused (.copUndefined 0#2) else .next (trapEntry (.cpu 0#2) s) := rfl

theorem undefinedCop_of_ne_zero {z : BitVec 2} (hz : z ≠ 0#2) (s : State) :
    undefinedCop z s = if s.status.copEnabled z then .refused (.copUndefined z) else .next (trapEntry (.cpu z) s) :=
  if_neg hz

theorem syncNotZeroResult_eq (s : State) :
    syncNotZeroResult s = if s.cfg.version = .v2 then .refused .mustBeZero else .next (trapEntry .ri s) := by
  simp only [syncNotZeroResult, Config.hasSync_iff]
  rfl

/-- Settles O7: the step is what each class of words comes to. -/
theorem wordsThatAreNoInstruction : Obligations.WordsThatAreNoInstruction := by
  intro s b pa hrun
  rw [step_of_aboutToRun hrun]
  refine ⟨fun h => ?_, fun h => ?_, fun h => ?_, fun h => ?_, fun z hz h => ?_⟩ <;> rw [h]
  · rfl
  · rfl
  · exact syncNotZeroResult_eq b
  · exact undefinedCop_zero b
  · exact undefinedCop_of_ne_zero hz b

/-! ### The instructions that a version can lack (R161; spec/44_system_sync.md R334, R336) -/

theorem exec_sync (s : State) :
    exec .sync s = if s.cfg.version = .v2 then .next (advance s) else .next (trapEntry .ri s) := by
  change execSync s = _
  simp only [execSync, Config.hasSync_iff]
  rfl

theorem exec_cache (rs op : Reg) (imm : Half) (s : State) :
    exec (.cache rs op imm) s = if s.cfg.version = .v2 then .refused .cacheUndocumented else .next (trapEntry .ri s) := by
  change execCache rs op imm s = _
  simp only [execCache, Config.hasCache_iff]
  rfl

theorem llscGuard_of_not_hasLLSC {s : State} (h : s.cfg.hasLLSC = false) (go : Result) :
    llscGuard s go = .next (trapEntry .ri s) := by
  simp [llscGuard, h, raise]

/-- Settles O42: each of the four first asks the version. -/
theorem versionDependentInstructions : Obligations.VersionDependentInstructions := by
  intro s rs rt op imm
  refine ⟨fun hv2 => ?_, fun hv1 => ?_, fun hv1 hno => ?_⟩
  · rw [exec_sync, exec_cache, if_pos hv2, if_pos hv2]
    exact ⟨⟨_, rfl, nothingElse_advance s⟩, rfl⟩
  · have hv2 : s.cfg.version ≠ .v2 := by simp [hv1]
    rw [exec_sync, exec_cache, if_neg hv2, if_neg hv2]
    exact ⟨rfl, rfl⟩
  · have hlacks : s.cfg.hasLLSC = false := (Config.hasLLSC_of_v1 hv1).trans hno
    exact ⟨llscGuard_of_not_hasLLSC hlacks _, llscGuard_of_not_hasLLSC hlacks _⟩

end Sys2Proof.Machine

/-! ## The integer arithmetic statements (spec/40_alu.md R201 to R224)

Each of these instructions ends in `regResult`, or in `trapOnOverflow` for the three that can overflow, so its frame is
`regResult_spec`; what is left of a statement is what the written word is in arithmetic or bit by bit. -/

namespace Sys2Proof.Machine

/-! ### The two endings, with what is known of the written word -/

/-- Whatever holds of the word given to `regResult` holds of the word the destination is left with. -/
theorem regResult_writes {P : Word → Prop} {s : State} {rd : Reg} {v : Word} (h : P v) :
    ∃ t w, regResult s rd v = .next t ∧ RegOnly s t rd w ∧ P w := by
  obtain ⟨t, ht, hreg⟩ := regResult_spec s rd v
  exact ⟨t, v, ht, hreg, h⟩

/-- `regResult_spec` for a word known by another name. -/
theorem regResult_writes_eq {s : State} {rd : Reg} {v w : Word} (h : v = w) :
    ∃ t, regResult s rd v = .next t ∧ RegOnly s t rd w :=
  h ▸ regResult_spec s rd v

/-- An overflow test that is exact for `x`, with a word that is `x` where `x` fits: the destination holds `x`, or OVF is
taken (R201, R203, R211). -/
theorem trapOnOverflow_exact {s : State} {overflow : Bool} {rd : Reg} {v : Word} {x : Int}
    (htest : overflow = true ↔ ¬ (-2 ^ 31 ≤ x ∧ x < 2 ^ 31)) (hval : -2 ^ 31 ≤ x ∧ x < 2 ^ 31 → v.toInt = x) :
    if -2 ^ 31 ≤ x ∧ x < 2 ^ 31 then ∃ t w, trapOnOverflow s overflow rd v = .next t ∧ RegOnly s t rd w ∧ w.toInt = x
    else trapOnOverflow s overflow rd v = .next (trapEntry .ovf s) := by
  split
  next hfits =>
    rw [trapOnOverflow, if_neg fun ho => htest.1 ho hfits]
    exact regResult_writes (hval hfits)
  next hover =>
    rw [trapOnOverflow, if_pos (htest.2 hover)]
    rfl

/-! ### Sums and differences that fit -/

theorem toInt_add_of_fits {a b : Word} (h : -2 ^ 31 ≤ a.toInt + b.toInt ∧ a.toInt + b.toInt < 2 ^ 31) :
    (a + b).toInt = a.toInt + b.toInt := by
  rw [BitVec.toInt_add]
  exact Int.bmod_eq_of_le h.1 h.2

theorem toInt_sub_of_fits {a b : Word} (h : -2 ^ 31 ≤ a.toInt - b.toInt ∧ a.toInt - b.toInt < 2 ^ 31) :
    (a - b).toInt = a.toInt - b.toInt := by
  rw [BitVec.toInt_sub]
  exact Int.bmod_eq_of_le h.1 h.2

/-! ### The immediates (R212 to R218) -/

/-- The sign-extended immediate read as unsigned: a negative one gets its upper half set (R214). -/
theorem sext16_toNat (imm : Half) :
    (sext16 imm).toNat = if imm.msb then imm.toNat + 0xffff0000 else imm.toNat := by
  rw [sext16, BitVec.toNat_signExtend, BitVec.toNat_setWidth_of_le (by decide)]
  split <;> rfl

theorem zext16_getLsbD (imm : Half) (i : Nat) : (zext16 imm).getLsbD i = imm.getLsbD i := by
  rw [BitVec.getLsbD, zext16_toNat, BitVec.getLsbD]

theorem upperImmediate_toNat (imm : Half) : (upperImmediate imm).toNat = imm.toNat * 2 ^ 16 := by
  rw [upperImmediate, toNat_append_mul, BitVec.toNat_ofNat, Nat.zero_mod, Nat.add_zero]

/-! ### The 0 or 1 of a comparison -/

theorem wordOfBool_decide (p : Prop) [Decidable p] : wordOfBool (decide p) = if p then 1#32 else 0#32 := by
  simp [wordOfBool]

/-! ### Shifts (R219 to R224) -/

theorem shiftLeft_toNat (v : Word) (n : Nat) : (v <<< n).toNat = v.toNat * 2 ^ n % 2 ^ 32 := by
  rw [BitVec.toNat_shiftLeft, Nat.shiftLeft_eq]

theorem ushiftRight_toNat (v : Word) (n : Nat) : (v >>> n).toNat = v.toNat / 2 ^ n := by
  rw [BitVec.toNat_ushiftRight, Nat.shiftRight_eq_div_pow]

/-- The arithmetic shift rounds down: `/` on integers by a positive power is the floor. -/
theorem sshiftRight_toInt (v : Word) (n : Nat) : (v.sshiftRight n).toInt = v.toInt / 2 ^ n := by
  rw [BitVec.toInt_sshiftRight, Int.shiftRight_eq_div_pow]
  norm_cast

/-! ### The statements -/

/-- Settles O18: the overflow test is exact, and a sum or difference that fits is computed without wrapping; `ADDI` is
`ADD` with the sign-extended immediate. -/
theorem signedOverflowTraps : Obligations.SignedOverflowTraps := by
  intro s rs rt rd imm
  refine ⟨?add, ?sub, ?addi⟩
  case add => exact trapOnOverflow_exact (addOverflows_iff _ _) toInt_add_of_fits
  case sub => exact trapOnOverflow_exact (subOverflows_iff _ _) toInt_sub_of_fits
  case addi =>
    rw [← sext16_toInt imm]
    exact trapOnOverflow_exact (addOverflows_iff _ _) toInt_add_of_fits

/-- Settles O17: each instruction is one word operation, read as arithmetic or bit by bit. -/
theorem aluRegisterResults : Obligations.AluRegisterResults := by
  intro s rs rt rd
  refine ⟨?addu, ?subu, ?and, ?or, ?xor, ?nor, ?slt, ?sltu⟩
  case addu => exact regResult_writes (BitVec.toNat_add _ _)
  case subu =>
    refine regResult_writes ?_
    rw [← BitVec.toNat_add, BitVec.sub_add_cancel]
  case and => exact regResult_writes fun i => BitVec.getLsbD_and
  case or => exact regResult_writes fun i => BitVec.getLsbD_or
  case xor => exact regResult_writes fun i => BitVec.getLsbD_xor
  case nor =>
    refine regResult_writes fun i hi => ?_
    rw [BitVec.getLsbD_not, BitVec.getLsbD_or, decide_eq_true hi, Bool.true_and]
  case slt => exact regResult_writes_eq (wordOfBool_decide _)
  case sltu => exact regResult_writes_eq (wordOfBool_decide _)

/-- Settles O19: as the register forms, with the extended immediate in the place of the second register. -/
theorem aluImmediateResults : Obligations.AluImmediateResults := by
  intro s rs rt imm
  refine ⟨?addiu, ?slti, ?sltiu, ?andi, ?ori, ?xori, ?lui⟩
  case addiu => exact regResult_writes_eq (effectiveAddress_eq s rs imm)
  case slti =>
    rw [← sext16_toInt imm]
    exact regResult_writes_eq (wordOfBool_decide _)
  case sltiu =>
    rw [← sext16_toNat imm]
    exact regResult_writes_eq (wordOfBool_decide _)
  case andi =>
    refine regResult_writes fun i => ?_
    rw [BitVec.getLsbD_and, zext16_getLsbD]
  case ori =>
    refine regResult_writes fun i => ?_
    rw [BitVec.getLsbD_or, zext16_getLsbD]
  case xori =>
    refine regResult_writes fun i => ?_
    rw [BitVec.getLsbD_xor, zext16_getLsbD]
  case lui => exact regResult_writes (upperImmediate_toNat imm)

/-- Settles O20: each of the three shifts is arithmetic for every count, and `shiftCount` takes the register's value
modulo 32. -/
theorem shiftResults : Obligations.ShiftResults := by
  intro s rs rt rd sh
  refine ⟨?sll, ?srl, ?sra, ?sllv, ?srlv, ?srav⟩
  case sll | sllv => exact regResult_writes (shiftLeft_toNat _ _)
  case srl | srlv => exact regResult_writes (ushiftRight_toNat _ _)
  case sra | srav => exact regResult_writes (sshiftRight_toInt _ _)

end Sys2Proof.Machine

/-! ## The multiply, divide and HI/LO statements (spec/41_muldiv.md R241 to R250)

The moves from HI and LO end in `regResult`; the others go on from `setHiLo`, whose frame is `hiLoOnly_advance_setHiLo`.
What is left is arithmetic: the model's product is halved without loss, and its quotients and remainders are the division
operations of `BitVec`, whose values the library gives. -/

namespace Sys2Proof.Machine

/-! ### Writing HI and LO and going on -/

theorem setHiLo_spec (s : State) (hi lo : Word) :
    ∃ t, (.next (advance (setHiLo s hi lo)) : Result) = .next t ∧ HiLoOnly s t hi lo :=
  ⟨_, rfl, hiLoOnly_advance_setHiLo s hi lo⟩

/-- Whatever holds of the two words given to `setHiLo` holds of what HI and LO are left with. -/
theorem setHiLo_writes {P : Word → Word → Prop} {s : State} {hi lo : Word} (h : P hi lo) :
    ∃ t hi' lo', (.next (advance (setHiLo s hi lo)) : Result) = .next t ∧ HiLoOnly s t hi' lo' ∧ P hi' lo' :=
  ⟨_, hi, lo, rfl, hiLoOnly_advance_setHiLo s hi lo, h⟩

/-! ### Products (R241, R242) -/

theorem halves_append (p : BitVec 64) : p.extractLsb' 32 32 ++ p.extractLsb' 0 32 = p :=
  (BitVec.extractLsb'_append_extractLsb'_eq_extractLsb' (start₁ := 0) (len₁ := 32) rfl).trans BitVec.extractLsb'_eq_self

/-- The sign of a doubleword is that of its upper half. -/
theorem halves_toInt (p : BitVec 64) :
    (p.extractLsb' 32 32).toInt * 2 ^ 32 + (p.extractLsb' 0 32).toNat = p.toInt := by
  conv_rhs => rw [← halves_append p, BitVec.toInt_append, if_neg (by decide), mul_comm]

theorem halves_toNat (p : BitVec 64) :
    (p.extractLsb' 32 32).toNat * 2 ^ 32 + (p.extractLsb' 0 32).toNat = p.toNat := by
  rw [← toNat_append_mul, halves_append]

/-- A signed product fits in 64 bits. -/
theorem ofInt_mul_toInt (a b : Word) : (BitVec.ofInt 64 (a.toInt * b.toInt)).toInt = a.toInt * b.toInt := by
  have hlow : -2 ^ 62 ≤ a.toInt * b.toInt := BitVec.le_toInt_mul_toInt
  have hhigh : a.toInt * b.toInt ≤ 2 ^ 62 := BitVec.toInt_mul_toInt_le
  exact BitVec.toInt_ofInt_eq_self (by decide) (by omega) (by omega)

/-- An unsigned product fits in 64 bits. -/
theorem ofNat_mul_toNat (a b : Word) : (BitVec.ofNat 64 (a.toNat * b.toNat)).toNat = a.toNat * b.toNat := by
  have hlt : a.toNat * b.toNat < 2 ^ 32 * 2 ^ 32 := Nat.mul_lt_mul'' a.isLt b.isLt
  rw [BitVec.toNat_ofNat]
  exact Nat.mod_eq_of_lt hlt

/-! ### Division as the operations of `BitVec` (R243, R244) -/

/-- The model's quotient and remainder are the truncating division of signed words. -/
theorem signedDivide_eq (s : State) (a b : Word) : signedDivide s a b = setHiLo s (a.srem b) (a.sdiv b) := by
  have hquot : BitVec.ofInt 32 (a.toInt.tdiv b.toInt) = a.sdiv b :=
    BitVec.eq_of_toInt_eq (by rw [BitVec.toInt_ofInt, BitVec.toInt_sdiv])
  have hrem : BitVec.ofInt 32 (a.toInt - a.toInt.tdiv b.toInt * b.toInt) = a.srem b := by
    rw [mul_comm, ← Int.tmod_def, ← BitVec.toInt_srem, BitVec.ofInt_toInt]
  rw [signedDivide, hquot, hrem]

theorem unsignedDivide_eq (s : State) (a b : Word) : unsignedDivide s a b = setHiLo s (a % b) (a / b) := by
  rw [unsignedDivide, BitVec.umod_def, BitVec.udiv_def]

/-! ### Quotients and remainders -/

theorem abs_tmod_lt {y : Int} (hy : y ≠ 0) (x : Int) : |x.tmod y| < |y| := by
  rw [Int.abs_eq_natAbs, Int.abs_eq_natAbs, Int.natAbs_tmod]
  exact Int.ofNat_lt.2 (Nat.mod_lt _ (Int.natAbs_pos.2 hy))

/-- A truncated remainder has the sign of the dividend or is zero. -/
theorem tmod_mul_self_nonneg (x y : Int) : 0 ≤ x.tmod y * x := by
  rcases le_total 0 x with hx | hx
  · exact mul_nonneg (Int.tmod_nonneg y hx) hx
  · have hneg : 0 ≤ (-x).tmod y := Int.tmod_nonneg y (neg_nonneg.2 hx)
    rw [Int.neg_tmod, neg_nonneg] at hneg
    exact mul_nonneg_of_nonpos_of_nonpos hneg hx

/-- Signed division is exact where the quotient fits: all but −2^31 by −1 (R243). -/
theorem sdiv_srem_exact {a b : Word} (hb : b ≠ 0#32) (hfits : ¬ (a = 0x80000000#32 ∧ b = 0xffffffff#32)) :
    (a.sdiv b).toInt * b.toInt + (a.srem b).toInt = a.toInt ∧
      |(a.srem b).toInt| < |b.toInt| ∧ 0 ≤ (a.srem b).toInt * a.toInt := by
  rw [BitVec.toInt_sdiv_of_ne_or_ne a b (not_and_or.1 hfits), BitVec.toInt_srem]
  exact ⟨Int.tdiv_mul_add_tmod _ _, abs_tmod_lt (BitVec.toInt_ne.2 hb) _, tmod_mul_self_nonneg _ _⟩

/-- Unsigned division is exact (R244). -/
theorem udiv_umod_exact {a b : Word} (hb : b ≠ 0#32) :
    (a / b).toNat * b.toNat + (a % b).toNat = a.toNat ∧ (a % b).toNat < b.toNat := by
  rw [BitVec.toNat_udiv, BitVec.toNat_umod]
  exact ⟨Nat.div_add_mod' _ _, Nat.mod_lt _ (Nat.pos_of_ne_zero (BitVec.toNat_ne.1 hb))⟩

/-! ### What DIV and DIVU come to, case by case (R243, R244, R250) -/

theorem exec_div_of_zero {s : State} {rt : Reg} (h : readReg s rt = 0#32) (rs : Reg) :
    exec (.div rs rt) s = divideByZero s := if_pos h

theorem exec_divu_of_zero {s : State} {rt : Reg} (h : readReg s rt = 0#32) (rs : Reg) :
    exec (.divu rs rt) s = divideByZero s := if_pos h

theorem exec_div_of_overflow {s : State} {rs rt : Reg} (ha : readReg s rs = 0x80000000#32)
    (hb : readReg s rt = 0xffffffff#32) :
    exec (.div rs rt) s = .next (advance (setHiLo s s.cfg.divOvfHi s.cfg.divOvfLo)) :=
  (if_neg (by rw [hb]; decide)).trans (if_pos ⟨ha, hb⟩)

theorem exec_div_of_fits {s : State} {rs rt : Reg} (hb : readReg s rt ≠ 0#32)
    (hfits : ¬ (readReg s rs = 0x80000000#32 ∧ readReg s rt = 0xffffffff#32)) :
    exec (.div rs rt) s =
      .next (advance (setHiLo s ((readReg s rs).srem (readReg s rt)) ((readReg s rs).sdiv (readReg s rt)))) := by
  rw [← signedDivide_eq]
  exact (if_neg hb).trans (if_neg hfits)

theorem exec_divu_of_ne_zero {s : State} {rt : Reg} (hb : readReg s rt ≠ 0#32) (rs : Reg) :
    exec (.divu rs rt) s =
      .next (advance (setHiLo s (readReg s rs % readReg s rt) (readReg s rs / readReg s rt))) := by
  rw [← unsignedDivide_eq]
  exact if_neg hb

/-- With `DIV_ZERO` unpredictable, a division by zero writes some HI and LO and nothing else (R250). -/
theorem divideByZero_unpredictable {s : State} (h : s.cfg.divZero = .unpredictable) :
    ∃ t hi lo, divideByZero s = .next t ∧ HiLoOnly s t hi lo := by
  rw [divideByZero, h]
  exact ⟨_, _, _, rfl, hiLoOnly_advance_countDraw s _ _⟩

theorem divideByZero_trapBp {s : State} (h : s.cfg.divZero = .trapBp) :
    divideByZero s = .next (trapEntry .bp s) := by
  rw [divideByZero, h]
  rfl

/-! ### The statements -/

/-- Settles O22: the product fits in 64 bits, and its halves together are the product. -/
theorem multiplyIsExact : Obligations.MultiplyIsExact := by
  intro s rs rt
  exact ⟨setHiLo_writes ((halves_toInt _).trans (ofInt_mul_toInt _ _)),
    setHiLo_writes ((halves_toNat _).trans (ofNat_mul_toNat _ _))⟩

/-- Settles O23: where the divisor is not zero, HI and LO are the remainder and the quotient. -/
theorem divideIsExact : Obligations.DivideIsExact := by
  intro s rs rt hb
  refine ⟨fun hfits => ?div, ?divu⟩
  case div =>
    rw [exec_div_of_fits hb hfits]
    exact setHiLo_writes (sdiv_srem_exact hb hfits)
  case divu =>
    rw [exec_divu_of_ne_zero hb]
    exact setHiLo_writes (udiv_umod_exact hb)

/-- Settles O21: a move to HI or LO writes the other one with what it held. -/
theorem hiLoMoves : Obligations.HiLoMoves := by
  intro s r
  exact ⟨regResult_spec s r s.hi, regResult_spec s r s.lo, setHiLo_spec s (readReg s r) s.lo,
    setHiLo_spec s s.hi (readReg s r)⟩

/-- Settles O24: DIV and DIVU share `divideByZero`, and the quotient that does not fit is asked for after it. -/
theorem divideParameters : Obligations.DivideParameters := by
  intro s rs rt
  refine ⟨fun hb hpar => ?unpredictable, fun hb hpar => ?trapBp, fun ha hb => ?overflow⟩
  case unpredictable =>
    rw [exec_div_of_zero hb, exec_divu_of_zero hb]
    exact ⟨divideByZero_unpredictable hpar, divideByZero_unpredictable hpar⟩
  case trapBp =>
    rw [exec_div_of_zero hb, exec_divu_of_zero hb]
    exact ⟨divideByZero_trapBp hpar, divideByZero_trapBp hpar⟩
  case overflow =>
    rw [exec_div_of_overflow ha hb]
    exact setHiLo_spec s _ _

end Sys2Proof.Machine

/-! ## The jump and branch statements (spec/42_branch_jump.md R260 to R276)

Each of the twelve ends in `branchResult`, whose two outcomes are the branch's own frame outside a delay slot and a
refusal in one. What is left is the target in arithmetic, the condition as a comparison of signed values, and the check
of the operands, which comes before either outcome. -/

namespace Sys2Proof.Machine

/-! ### In a delay slot (R262) -/

theorem branchResult_of_inDelay {s : State} (h : s.inDelay = true) (link : State) (taken : Bool) (target : Word) :
    branchResult s link taken target = .refused .branchInDelaySlot :=
  if_pos h

/-! ### The check of the operands (R266, R273, R274) -/

theorem exec_jalr_of_ne {rs rd : Reg} (h : rd ≠ rs) (s : State) :
    exec (.jalr rs rd) s = branchResult s (setReg s rd (linkAddress s.pc)) true (readReg s rs) :=
  if_neg h

theorem exec_jalr_self (rs : Reg) (s : State) : exec (.jalr rs rs) s = .refused .notRestartable :=
  if_pos rfl

theorem branchLinkIf_of_ne {rs : Reg} (h : rs ≠ 31#5) (s : State) (taken : Bool) (imm : Half) :
    branchLinkIf s rs taken imm =
      branchResult s (setReg s 31#5 (linkAddress s.pc)) taken (branchTarget s.pc imm) :=
  if_neg h

theorem branchLinkIf_ra (s : State) (taken : Bool) (imm : Half) :
    branchLinkIf s 31#5 taken imm = .refused .notRestartable :=
  if_pos rfl

/-! ### The sign bit as a comparison with zero (R271 to R274) -/

theorem msb_iff_toInt_neg (v : Word) : v.msb = true ↔ v.toInt < 0 := by
  rw [BitVec.msb_eq_toInt, decide_eq_true_iff]

theorem not_msb_iff_toInt_nonneg (v : Word) : (!v.msb) = true ↔ 0 ≤ v.toInt := by
  rw [BitVec.msb_eq_toInt, ← decide_not, decide_eq_true_iff, not_lt]

/-! ### Conditional branches, with the condition known as a proposition -/

/-- A condition that decides `p` sends a branch to its target where `p` holds and past the delay slot where it does
not (R260). -/
theorem branchIf_spec {s : State} {taken : Bool} {p : Prop} [Decidable p] {imm : Half} {target : Word}
    (hslot : s.inDelay = false) (htarget : target = BitVec.ofInt 32 (s.pc.toNat + 4 + imm.toInt * 4))
    (hcond : taken = true ↔ p) :
    ∃ t, branchIf s taken imm = .next t ∧ SameRegs s t ∧ BranchKeeps s t ∧
      Branches s t (if p then target else s.npc + 4#32) := by
  obtain ⟨t, hnext, hflow, hregs, hkeeps⟩ := branchResult_spec s taken (branchTarget s.pc imm) hslot
  rw [branchTarget_eq, ← htarget] at hflow
  exact ⟨t, hnext, hregs, hkeeps, by simpa only [hcond] using hflow⟩

/-- The same for a branch that links, whatever the condition says (R273, R274). -/
theorem branchLinkIf_spec {s : State} {rs : Reg} {taken : Bool} {p : Prop} [Decidable p] {imm : Half} {target : Word}
    (hslot : s.inDelay = false) (hrs : rs ≠ 31#5)
    (htarget : target = BitVec.ofInt 32 (s.pc.toNat + 4 + imm.toInt * 4)) (hcond : taken = true ↔ p) :
    ∃ t, branchLinkIf s rs taken imm = .next t ∧ WritesReg s t 31#5 (s.pc + 8#32) ∧ BranchKeeps s t ∧
      Branches s t (if p then target else s.npc + 4#32) := by
  obtain ⟨t, hnext, hflow, hlink, hkeeps⟩ :=
    branchResult_link_spec s 31#5 (linkAddress s.pc) taken (branchTarget s.pc imm) hslot
  rw [branchTarget_eq, ← htarget] at hflow
  exact ⟨t, (branchLinkIf_of_ne hrs s taken imm).trans hnext, hlink, hkeeps, by simpa only [hcond] using hflow⟩

/-! ### The statements -/

/-- Settles O28: in a delay slot `branchResult` refuses whatever it is given, and an instruction whose operands are
allowed gets there. -/
theorem branchStops : Obligations.BranchStops := by
  intro s rs rt rd imm target
  refine ⟨fun hslot => ?slot, exec_jalr_self rs s, branchLinkIf_ra s (readReg s 31#5).msb imm,
    branchLinkIf_ra s (!(readReg s 31#5).msb) imm⟩
  simp only [List.forall_mem_cons]
  refine ⟨?j, ?jal, ?jr, ?jalr, ?beq, ?bne, ?blez, ?bgtz, ?bltz, ?bgez, ?bltzal, ?bgezal, List.forall_mem_nil _⟩
  case j | jal | jr | beq | bne | blez | bgtz | bltz | bgez => exact fun _ => branchResult_of_inDelay hslot _ _ _
  case jalr =>
    intro hallowed
    rw [exec_jalr_of_ne (bne_iff_ne.1 hallowed), branchResult_of_inDelay hslot]
  case bltzal | bgezal =>
    intro hallowed
    exact (branchLinkIf_of_ne (bne_iff_ne.1 hallowed) _ _ _).trans (branchResult_of_inDelay hslot _ _ _)

/-- Settles O25: a jump is a branch always taken, and JALR's target is the register as read before the link. -/
theorem jumpsGoToTarget : Obligations.JumpsGoToTarget := by
  intro s rs rd target hslot
  refine ⟨?j, ?jal, branchResult_spec s true (readReg s rs) hslot, fun hne => ?jalr⟩
  case j =>
    obtain ⟨t, hnext, hflow, hframe⟩ := branchResult_spec s true (jumpTarget s.pc target) hslot
    exact ⟨t, _, hnext, hflow, jumpTarget_toNat s.pc target, hframe⟩
  case jal =>
    obtain ⟨t, hnext, hflow, hframe⟩ :=
      branchResult_link_spec s 31#5 (linkAddress s.pc) true (jumpTarget s.pc target) hslot
    exact ⟨t, _, hnext, hflow, jumpTarget_toNat s.pc target, hframe⟩
  case jalr =>
    rw [exec_jalr_of_ne hne]
    exact branchResult_link_spec s rd (linkAddress s.pc) true (readReg s rs) hslot

/-- Settles O26: each condition decides the comparison it stands for; BNE's is the negation of BEQ's. -/
theorem conditionalBranches : Obligations.ConditionalBranches := by
  intro s rs rt imm tgt hslot htgt
  refine ⟨?beq, ?bne, ?blez, ?bgtz, ?bltz, ?bgez⟩
  case beq => exact branchIf_spec hslot htgt beq_iff_eq
  case bne =>
    rw [← ite_not]
    exact branchIf_spec hslot htgt bne_iff_ne
  case blez | bgtz => exact branchIf_spec hslot htgt decide_eq_true_iff
  case bltz => exact branchIf_spec hslot htgt (msb_iff_toInt_neg _)
  case bgez => exact branchIf_spec hslot htgt (not_msb_iff_toInt_nonneg _)

/-- Settles O27: `branchLinkIf` writes the link whatever the condition, which it is given from the state before. -/
theorem linkingBranches : Obligations.LinkingBranches := by
  intro s rs imm tgt hslot hrs htgt
  exact ⟨branchLinkIf_spec hslot hrs htgt (msb_iff_toInt_neg _),
    branchLinkIf_spec hslot hrs htgt (not_msb_iff_toInt_nonneg _)⟩

end Sys2Proof.Machine

/-! ## The partial-word and load-linked statements (spec/43_load_store.md R300 to R304, R312, R313)

Each partial-word instruction is described byte by byte: which bytes of `rt` a load takes from memory, and what each
address of memory holds after a store. The store tables and the two unaligned idioms are read off from that. -/

namespace Sys2Proof

/-! ### The bytes of a word put together (spec/20_memory.md R85) -/

theorem byteOfWord_wordOfBytes (f : Nat → Byte) {k : Nat} (hk : k < 4) :
    byteOfWord (wordOfBytes (f 0) (f 1) (f 2) (f 3)) k = f k := by
  apply BitVec.eq_of_toNat_eq
  rw [byteOfWord_toNat, wordOfBytes_toNat]
  have := (f 0).isLt; have := (f 1).isLt; have := (f 2).isLt; have := (f 3).isLt
  interval_cases k <;> omega

/-- A word is put together from what its bytes are known to be. -/
theorem eq_wordOfBytes {v : Word} {f : Nat → Byte} (h : ∀ k, k < 4 → byteOfWord v k = f k) :
    v = wordOfBytes (f 0) (f 1) (f 2) (f 3) := by
  rw [← h 0 (by decide), ← h 1 (by decide), ← h 2 (by decide), ← h 3 (by decide), wordOfBytes_byteOfWord]

theorem byteOfWord_getLsbD (v : Word) {k i : Nat} (hi : i < 8) :
    (byteOfWord v k).getLsbD i = v.getLsbD (24 - 8 * k + i) := by
  simp [byteOfWord, hi]

end Sys2Proof

namespace Sys2Proof.Machine

/-! ### The bytes of a merged word (R300, R301) -/

/-- `LWL` moves the memory word's bytes up by `b` places and keeps the old register's bytes below them. -/
theorem byteOfWord_lwlMerge (w old : Word) {b k : Nat} (hk : k < 4) :
    byteOfWord (lwlMerge w old b) k = if k + b < 4 then byteOfWord w (k + b) else byteOfWord old k := by
  apply BitVec.eq_of_getLsbD_eq
  intro i hi
  have hmask : (BitVec.ofNat 32 (2 ^ (8 * b) - 1)).getLsbD (24 - 8 * k + i) = decide (24 - 8 * k + i < 8 * b) := by
    rw [BitVec.getLsbD_ofNat, Nat.testBit_two_pow_sub_one]
    simp [show 24 - 8 * k + i < 32 by omega]
  rw [byteOfWord_getLsbD _ hi, lwlMerge, BitVec.getLsbD_or, BitVec.getLsbD_and, BitVec.getLsbD_shiftLeft, hmask]
  split
  next hmem =>
    rw [byteOfWord_getLsbD _ hi, show 24 - 8 * (k + b) + i = 24 - 8 * k + i - 8 * b by omega]
    simp [show ¬ 24 - 8 * k + i < 8 * b by omega, show 24 - 8 * k + i < 32 by omega]
  next hold =>
    rw [byteOfWord_getLsbD _ hi]
    simp [show 24 - 8 * k + i < 8 * b by omega]

/-- `LWR` moves the memory word's bytes down by `3 - b` places and keeps the old register's bytes above them. -/
theorem byteOfWord_lwrMerge (w old : Word) {b k : Nat} (hb : b < 4) (hk : k < 4) :
    byteOfWord (lwrMerge w old b) k = if 3 ≤ k + b then byteOfWord w (k + b - 3) else byteOfWord old k := by
  apply BitVec.eq_of_getLsbD_eq
  intro i hi
  have hmask : (~~~(0xffffffff#32 >>> (8 * (3 - b)))).getLsbD (24 - 8 * k + i) =
      decide (32 ≤ 8 * (3 - b) + (24 - 8 * k + i)) := by
    rw [BitVec.getLsbD_not, BitVec.getLsbD_ushiftRight, show 0xffffffff#32 = BitVec.allOnes 32 from rfl,
      BitVec.getLsbD_allOnes, ← decide_not, decide_eq_true (show 24 - 8 * k + i < 32 by omega), Bool.true_and]
    exact decide_eq_decide.2 Nat.not_lt
  rw [byteOfWord_getLsbD _ hi, lwrMerge, BitVec.getLsbD_or, BitVec.getLsbD_and, BitVec.getLsbD_ushiftRight, hmask]
  split
  next hmem =>
    rw [byteOfWord_getLsbD _ hi, show 24 - 8 * (k + b - 3) + i = 8 * (3 - b) + (24 - 8 * k + i) by omega]
    simp [show ¬ 32 ≤ 8 * (3 - b) + (24 - 8 * k + i) by omega]
  next hold =>
    rw [byteOfWord_getLsbD _ hi, BitVec.getLsbD_of_ge w _ (by omega)]
    simp [show 32 ≤ 8 * (3 - b) + (24 - 8 * k + i) by omega]

/-! ### Words in memory (spec/20_memory.md R85) -/

theorem byteOfWord_read32 (m : Memory) (pa : Word) {k : Nat} (hk : k < 4) :
    byteOfWord (m.read32 pa) k = m.read (byteAddr pa k) :=
  byteOfWord_wordOfBytes (fun k => m.read (byteAddr pa k)) hk

theorem Memory.read32_write32 (m : Memory) (pa v : Word) : (m.write32 pa v).read32 pa = v := by
  have hread : ∀ k, (hk : k < 4) → (m.write32 pa v).read (byteAddr pa k) =
      [byteOfWord v 0, byteOfWord v 1, byteOfWord v 2, byteOfWord v 3][k] := fun k hk =>
    Memory.read_writeBytes_at m pa [byteOfWord v 0, byteOfWord v 1, byteOfWord v 2, byteOfWord v 3] k hk (by simp)
  rw [Memory.read32, hread 0 (by decide), hread 1 (by decide), hread 2 (by decide), hread 3 (by decide)]
  exact wordOfBytes_byteOfWord v

/-- The bytes that `lwl` and `swl` reach at `pa`, by their place in the aligned word. -/
theorem byteAddr_alignedWord_from (pa : Word) {k : Nat} (hk : k + pa.toNat % 4 < 4) :
    byteAddr (alignedWord pa) (k + pa.toNat % 4) = byteAddr pa k := by
  have := pa.isLt
  rw [byteAddr_alignedWord pa _ hk, byteAddr_toNat]
  omega

/-- The bytes that `lwr` and `swr` reach at `pa + 3`, by their place in the aligned word. -/
theorem byteAddr_alignedWord_upTo (pa : Word) {k : Nat} (hk : k < 4) (hb : 3 ≤ k + (pa + 3#32).toNat % 4) :
    byteAddr (alignedWord (pa + 3#32)) (k + (pa + 3#32).toNat % 4 - 3) = byteAddr pa k := by
  have := pa.isLt
  rw [byteAddr_alignedWord _ _ (by omega), byteAddr_toNat]
  rw [BitVec.toNat_add, BitVec.toNat_ofNat] at hb ⊢
  omega

/-! ### LWL and LWR (R300, R301) -/

/-- A partial load that memory answers merges the aligned word into `rt`, and nothing else changes. -/
theorem loadPart_spec {s : State} {rs : Reg} {imm : Half} {pa : Word}
    (h : memAddress s (effectiveAddress s rs imm) .load 4 false = .ok pa) (rt : Reg)
    (merge : Word → Word → Nat → Word) :
    ∃ t, loadPart s rs rt imm merge = .next t ∧
      RegOnly s t rt (merge (s.mem.read32 (alignedWord pa)) (readReg s rt)
        (byteInWord (effectiveAddress s rs imm))) :=
  loadResult_spec h rt fun m pa =>
    merge (m.read32 (alignedWord pa)) (readReg s rt) (byteInWord (effectiveAddress s rs imm))

/-- Settles O34: both are a `loadPart`, and the tables are those of the two merges. -/
theorem partialLoadTables : Obligations.PartialLoadTables := by
  intro s rs rt imm pa M r h hM hr
  obtain rfl : M = fun k => s.mem.read (byteAddr (alignedWord pa) k) := funext hM
  obtain rfl : r = regByte (readReg s rt) := funext hr
  have hb : byteInWord (effectiveAddress s rs imm) < 4 := Nat.mod_lt _ (by decide)
  constructor
  · obtain ⟨t, ht, hreg⟩ := loadPart_spec h rt lwlMerge
    rw [Memory.read32, lwlMerge_bytes _ _ _ _ _ _ hb] at hreg
    exact ⟨t, ht, hreg⟩
  · obtain ⟨t, ht, hreg⟩ := loadPart_spec h rt lwrMerge
    rw [Memory.read32, lwrMerge_bytes _ _ _ _ _ _ hb] at hreg
    exact ⟨t, ht, hreg⟩

/-! ### The unaligned load (R304) -/

theorem WritesReg.read_same {s t : State} {rd : Reg} {v : Word} (h : WritesReg s t rd v) (h0 : rd ≠ 0#5) :
    readReg t rd = v := by
  rw [h rd, if_neg h0, if_pos rfl]

theorem WritesReg.read_other {s t : State} {rd r : Reg} {v : Word} (h : WritesReg s t rd v) (hr : r ≠ rd) :
    readReg t r = readReg s r := by
  rw [h r, if_neg hr]
  split
  next h0 => rw [h0, readReg_zero]
  next => rfl

/-- An access finds the same in two states that agree on coprocessor 0 and on the parameters. -/
theorem memAddress_of_same {s t : State} (h0 : SameCp0 s t) (hout : SameOutside s t) (va : Word) (k : AccessKind)
    (n : Nat) (c : Bool) : memAddress t va k n c = memAddress s va k n c := by
  obtain ⟨⟨_, _, _, _, htlbhi, htlb⟩, hstatus, _⟩ := h0
  obtain ⟨_, _, _, _, hcfg⟩ := hout
  exact memAddress_congr hstatus htlb htlbhi hcfg va k n c

theorem effectiveAddress_congr {s t : State} {rs : Reg} (h : readReg t rs = readReg s rs) (imm : Half) :
    effectiveAddress t rs imm = effectiveAddress s rs imm := by
  rw [effectiveAddress, effectiveAddress, h]

/-- `LWL` at `pa` and then `LWR` at `pa + 3` leave the four bytes from `pa` up: each byte comes from the aligned word it
lies in. -/
theorem lwrMerge_lwlMerge_unaligned (m : Memory) (pa old : Word) :
    lwrMerge (m.read32 (alignedWord (pa + 3#32))) (lwlMerge (m.read32 (alignedWord pa)) old (pa.toNat % 4))
      ((pa + 3#32).toNat % 4) = m.read32 pa := by
  refine eq_wordOfBytes (f := fun k => m.read (byteAddr pa k)) fun k hk => ?_
  have hb3 : (pa + 3#32).toNat % 4 < 4 := Nat.mod_lt _ (by decide)
  rw [byteOfWord_lwrMerge _ _ hb3 hk]
  split
  next hright => rw [byteOfWord_read32 _ _ (by omega), byteAddr_alignedWord_upTo pa hk hright]
  next hright =>
    have hleft : k + pa.toNat % 4 < 4 := by
      rw [BitVec.toNat_add, BitVec.toNat_ofNat] at hright
      omega
    rw [byteOfWord_lwlMerge _ _ hk, if_pos hleft, byteOfWord_read32 _ _ hleft, byteAddr_alignedWord_from pa hleft]

/-- Settles O36: the second load runs in a state with the same translation, base register and memory, and the two merges
make up the word at `pa`. -/
theorem unalignedLoadIdiom : Obligations.UnalignedLoadIdiom := by
  intro s rs rt imm imm3 pa hrs h0 hea h h3
  obtain ⟨t, ht, hregt, _, _, hcp0, _, hmemt, hout⟩ := loadPart_spec h rt lwlMerge
  have heat : effectiveAddress t rs imm3 = effectiveAddress s rs imm + 3#32 :=
    (effectiveAddress_congr (hregt.read_other hrs.symm) imm3).trans hea
  have h3t : memAddress t (effectiveAddress t rs imm3) .load 4 false = .ok (pa + 3#32) := by
    rw [heat, memAddress_of_same hcp0 hout, h3]
  obtain ⟨u, hu, hregu, _, _, _, _, hmemu, _⟩ := loadPart_spec h3t rt lwrMerge
  have hmem32 : t.mem.read32 (alignedWord (pa + 3#32)) = s.mem.read32 (alignedWord (pa + 3#32)) := by
    simp only [Memory.read32, hmemt _]
  refine ⟨t, u, ht, hu, ?_, fun r hr => (hregu.read_other hr).trans (hregt.read_other hr),
    fun a => (hmemu a).trans (hmemt a)⟩
  rw [hregu.read_same h0, hregt.read_same h0, hmem32, memAddress_byteInWord h, memAddress_byteInWord h3t]
  exact lwrMerge_lwlMerge_unaligned s.mem pa (readReg s rt)

/-! ### SWL and SWR (R302, R303) -/

theorem regBytes_getElem (v : Word) {i : Nat} (hi : i < 4) :
    [regByte v 3, regByte v 2, regByte v 1, regByte v 0][i] = regByte v (3 - i) := by
  interval_cases i <;> rfl

theorem swlBytes_getElem (v : Word) {b i : Nat} (hi : i < (swlBytes v b).length) :
    (swlBytes v b)[i] = regByte v (3 - i) := by
  have hlen := swlBytes_length v b
  simp only [swlBytes, List.getElem_take]
  exact regBytes_getElem v (by omega)

theorem swrBytes_getElem (v : Word) {b i : Nat} (hb : b < 4) (hi : i < (swrBytes v b).length) :
    (swrBytes v b)[i] = regByte v (b - i) := by
  have hlen := swrBytes_length v b
  simp only [swrBytes, List.getElem_drop]
  rw [regBytes_getElem v (by omega)]
  congr 1
  omega

/-- What each address holds after `SWL` of `v` at `pa`: the bytes of `v` from the most significant down lie from `pa` to
the end of its aligned word. -/
def swlRead (m : Memory) (pa v : Word) (a : Nat) : Byte :=
  if pa.toNat ≤ a ∧ a < pa.toNat / 4 * 4 + 4 then regByte v (3 - (a - pa.toNat)) else m.read a

/-- What each address holds after `SWR` of `v` at `pa`: the bytes of `v` from the least significant up lie from `pa` down
to the start of its aligned word. -/
def swrRead (m : Memory) (pa v : Word) (a : Nat) : Byte :=
  if pa.toNat / 4 * 4 ≤ a ∧ a ≤ pa.toNat then regByte v (pa.toNat - a) else m.read a

theorem read_writeBytes_swlBytes (m : Memory) (pa v : Word) (a : Nat) :
    (m.writeBytes pa (swlBytes v (pa.toNat % 4))).read a = swlRead m pa v a := by
  have hlen := swlBytes_length v (pa.toNat % 4)
  have hpa := pa.isLt
  rw [Memory.read_writeBytes _ _ _ _ (by omega) (by omega), swlRead]
  split
  next hin => rw [if_pos (by omega), swlBytes_getElem]
  next hout => rw [if_neg (by omega)]

theorem read_writeBytes_swrBytes (m : Memory) (pa v : Word) (a : Nat) :
    (m.writeBytes (alignedWord pa) (swrBytes v (pa.toNat % 4))).read a = swrRead m pa v a := by
  have hlen := swrBytes_length v (pa.toNat % 4)
  have haligned := alignedWord_toNat pa
  have hpa := pa.isLt
  rw [Memory.read_writeBytes _ _ _ _ (by omega) (by omega), swrRead]
  split
  next hin =>
    rw [if_pos (by omega), swrBytes_getElem v (by omega)]
    congr 1
    omega
  next hout => rw [if_neg (by omega)]

/-- A store of bytes that lie in the aligned word of `pa` changes nothing outside that word. -/
theorem StoreOnly.alignedWord {s t : State} {pa q : Word} {n : Nat} (h : StoreOnly s t q n)
    (hin : ∀ k, k < n → byteAddr q k / 4 = pa.toNat / 4) : StoreOnly s t (alignedWord pa) 4 := by
  obtain ⟨hmem, hrest⟩ := h
  refine ⟨fun a ha => hmem a fun k hk he => ?_, hrest⟩
  have hword := hin k hk
  refine ha (a % 4) (Nat.mod_lt _ (by decide)) ?_
  rw [byteAddr_alignedWord _ _ (Nat.mod_lt _ (by decide))]
  omega

theorem exec_swl_spec {s : State} {rs : Reg} {imm : Half} {pa : Word}
    (h : memAddress s (effectiveAddress s rs imm) .store 4 false = .ok pa) (rt : Reg) :
    ∃ t, exec (.swl rs rt imm) s = .next t ∧ StoreOnly s t (alignedWord pa) 4 ∧
      ∀ a, t.mem.read a = swlRead s.mem pa (readReg s rt) a := by
  have hlen := swlBytes_length (readReg s rt) (pa.toNat % 4)
  refine ⟨_, storeResult_ok h _, ?_, ?_⟩ <;> rw [memAddress_byteInWord h]
  · refine (storeOnly_writeBytes s pa _ _ rfl).alignedWord fun k hk => ?_
    have := pa.isLt
    rw [byteAddr_of_lt (by omega)]
    omega
  · exact read_writeBytes_swlBytes s.mem pa (readReg s rt)

theorem exec_swr_spec {s : State} {rs : Reg} {imm : Half} {pa : Word}
    (h : memAddress s (effectiveAddress s rs imm) .store 4 false = .ok pa) (rt : Reg) :
    ∃ t, exec (.swr rs rt imm) s = .next t ∧ StoreOnly s t (alignedWord pa) 4 ∧
      ∀ a, t.mem.read a = swrRead s.mem pa (readReg s rt) a := by
  have hlen := swrBytes_length (readReg s rt) (pa.toNat % 4)
  refine ⟨_, storeResult_ok h _, ?_, ?_⟩ <;> rw [memAddress_byteInWord h]
  · refine (storeOnly_writeBytes s (Machine.alignedWord pa) _ _ rfl).alignedWord fun k hk => ?_
    rw [byteAddr_alignedWord _ _ (by omega)]
    omega
  · exact read_writeBytes_swrBytes s.mem pa (readReg s rt)

/-- The byte `k` of the aligned word after `SWL`. -/
theorem swlRead_alignedWord (m : Memory) (pa v : Word) {k : Nat} (hk : k < 4) :
    swlRead m pa v (byteAddr (alignedWord pa) k) =
      if pa.toNat % 4 ≤ k then regByte v (3 - (k - pa.toNat % 4)) else m.read (byteAddr (alignedWord pa) k) := by
  rw [swlRead, byteAddr_alignedWord _ _ hk]
  refine if_congr (by omega) ?_ rfl
  congr 1
  omega

/-- The byte `k` of the aligned word after `SWR`. -/
theorem swrRead_alignedWord (m : Memory) (pa v : Word) {k : Nat} (hk : k < 4) :
    swrRead m pa v (byteAddr (alignedWord pa) k) =
      if k ≤ pa.toNat % 4 then regByte v (pa.toNat % 4 - k) else m.read (byteAddr (alignedWord pa) k) := by
  rw [swrRead, byteAddr_alignedWord _ _ hk]
  refine if_congr (by omega) ?_ rfl
  congr 1
  omega

/-- Settles O35: the rows of the two tables are the four values of `b` in the byte-by-byte description. -/
theorem partialStoreTables : Obligations.PartialStoreTables := by
  intro s rs rt imm pa M r h hM hr
  obtain rfl : M = fun k => s.mem.read (byteAddr (alignedWord pa) k) := funext hM
  obtain rfl : r = regByte (readReg s rt) := funext hr
  have hb : (effectiveAddress s rs imm).toNat % 4 = pa.toNat % 4 := memAddress_byteInWord h
  have hlt : pa.toNat % 4 < 4 := Nat.mod_lt _ (by decide)
  rw [hb]
  constructor
  · obtain ⟨t, ht, hstore, hread⟩ := exec_swl_spec h rt
    refine ⟨t, ht, hstore, ?_⟩
    simp (disch := decide) only [Memory.read32, hread, swlRead_alignedWord]
    generalize pa.toNat % 4 = b at hlt
    interval_cases b <;> rfl
  · obtain ⟨t, ht, hstore, hread⟩ := exec_swr_spec h rt
    refine ⟨t, ht, hstore, ?_⟩
    simp (disch := decide) only [Memory.read32, hread, swrRead_alignedWord]
    generalize pa.toNat % 4 = b at hlt
    interval_cases b <;> rfl

/-! ### The unaligned store (R304) -/

/-- After `SWL` at `pa` and `SWR` at `pa + 3` the bytes of `v` lie from `pa` up. -/
theorem swrRead_swlRead_byteAddr {m n : Memory} {pa v : Word} (hn : ∀ a, n.read a = swlRead m pa v a) {k : Nat}
    (hk : k < 4) : swrRead n (pa + 3#32) v (byteAddr pa k) = byteOfWord v k := by
  have hpa := pa.isLt
  rw [byteOfWord_eq_regByte v hk, swrRead, hn, swlRead, byteAddr_toNat, BitVec.toNat_add, BitVec.toNat_ofNat]
  split
  next hright => congr 1; omega
  next hleft => rw [if_pos (by omega)]; congr 1; omega

/-- They change no other byte. -/
theorem swrRead_swlRead_outside {m n : Memory} {pa v : Word} (hn : ∀ a, n.read a = swlRead m pa v a) {a : Nat}
    (ha : ∀ k, k < 4 → a ≠ byteAddr pa k) : swrRead n (pa + 3#32) v a = m.read a := by
  have hpa := pa.isLt
  have hright : ¬ ((pa + 3#32).toNat / 4 * 4 ≤ a ∧ a ≤ (pa + 3#32).toNat) := fun h => by
    refine ha (3 - ((pa + 3#32).toNat - a)) (by omega) ?_
    rw [BitVec.toNat_add, BitVec.toNat_ofNat] at h
    rw [byteAddr_toNat, BitVec.toNat_add, BitVec.toNat_ofNat]
    omega
  have hleft : ¬ (pa.toNat ≤ a ∧ a < pa.toNat / 4 * 4 + 4) := fun h => by
    refine ha (a - pa.toNat) (by omega) ?_
    rw [byteAddr_toNat]
    omega
  rw [swrRead, if_neg hright, hn, swlRead, if_neg hleft]

/-- Settles O37: the second store runs in a state with the same translation and registers, and the two stores make up the
word at `pa`. -/
theorem unalignedStoreIdiom : Obligations.UnalignedStoreIdiom := by
  intro s rs rt imm imm3 pa hea h h3
  obtain ⟨t, ht, ⟨_, _, hregt, _, hcp0, _, hout⟩, hreadt⟩ := exec_swl_spec h rt
  have heat : effectiveAddress t rs imm3 = effectiveAddress s rs imm + 3#32 :=
    (effectiveAddress_congr (hregt rs) imm3).trans hea
  have h3t : memAddress t (effectiveAddress t rs imm3) .store 4 false = .ok (pa + 3#32) := by
    rw [heat, memAddress_of_same hcp0 hout, h3]
  obtain ⟨u, hu, ⟨_, _, hregu, _⟩, hreadu⟩ := exec_swr_spec h3t rt
  rw [hregt rt] at hreadu
  refine ⟨t, u, ht, hu, ?_, fun a ha => (hreadu a).trans (swrRead_swlRead_outside hreadt ha),
    fun r => (hregu r).trans (hregt r)⟩
  have hbytes : ∀ k, k < 4 → byteOfWord (readReg s rt) k = u.mem.read (byteAddr pa k) := fun k hk => by
    rw [hreadu, swrRead_swlRead_byteAddr hreadt hk]
  exact (eq_wordOfBytes (f := fun k => u.mem.read (byteAddr pa k)) hbytes).symm

/-! ### LL and SC (R312, R313) -/

/-- An SC that stores at `pa`: the word of `x[rt]` lies there, `rt` becomes 1, the reservation is given up and nothing else
changes. -/
def ScStoresWord (s t : State) (rt : Reg) (pa : Word) : Prop :=
  t.llbit = false ∧ t.lladdr = s.lladdr ∧ WritesReg s t rt 1#32 ∧ t.mem.read32 pa = readReg s rt ∧
    SameMemOutside s t pa 4 ∧ GoesOn s t ∧ SameHiLo s t ∧ SameCp0 s t ∧ SameOutside s t

theorem scStoresWord_scStores (s : State) (rt : Reg) (pa : Word) :
    ScStoresWord s (countDraw (scStores s rt (s.mem.write32 pa (readReg s rt)))) rt pa := by
  have hmem : (countDraw (scStores s rt (s.mem.write32 pa (readReg s rt)))).mem =
      s.mem.write32 pa (readReg s rt) := by simp [scStores]
  refine ⟨by simp [scStores], by simp [scStores], fun r => ?_, ?_, fun a ha => ?_, ?_⟩
  · rw [readReg_countDraw, scStores, readReg_advance]
    exact readReg_setReg _ rt r 1#32
  · rw [hmem, Memory.read32_write32]
  · rw [hmem]
    exact Memory.read_writeBytes_other s.mem pa _ a ha
  · simp [scStores, GoesOn, SameHiLo, SameCp0, SameMmu, SameStatus, SameOutside]

/-- An SC where memory answers fails, or stores under its reservation. -/
theorem scAt_memory {s : State} {pa : Word} (h : physAt s.cfg pa = some .memory) (rt : Reg) :
    ∃ t, scAt s rt pa = .next t ∧
      (ScCompletes s t rt 0#32 ∨ (s.llbit = true ∧ s.lladdr = pa ∧ ScStoresWord s t rt pa)) := by
  rcases scAt_cases s rt pa with ⟨t, ht, hfail⟩ | ⟨hll, haddr, hsc⟩
  · exact ⟨t, ht, .inl hfail⟩
  · have hbus : busAddress s .store pa = .ok pa := by rw [busAddress, h]
    rw [hsc, hbus, andThen_ok]
    exact ⟨_, rfl, .inr ⟨hll, haddr, scStoresWord_scStores s rt pa⟩⟩

/-- Settles O39: LL is `LlCompletes` with memory's word, and SC is `scAt` where memory answers. -/
theorem loadLinkedStoreConditional : Obligations.LoadLinkedStoreConditional := by
  intro s rs rt imm pa hl
  refine ⟨fun h => ?_, fun h => ?_⟩
  · rw [exec_ll_of_hasLLSC hl, h, andThen_ok]
    exact ⟨_, rfl, llCompletes_llLoads s s.draws rt pa (s.mem.read32 pa)⟩
  · obtain ⟨htrans, hmemory⟩ := (memAddress_ok_iff ..).1 h
    rw [exec_sc_of_hasLLSC hl, htrans, andThen_ok]
    obtain ⟨t, ht, ⟨hll, haddr, hreg, hmem, hrest⟩ | ⟨hres, hpa, hll, haddr, hreg, hread, hother, hrest⟩⟩ :=
      scAt_memory hmemory rt
    · exact ⟨t, ht, hll, haddr, .inr ⟨hreg, hmem⟩, hrest⟩
    · exact ⟨t, ht, hll, haddr, .inl ⟨hres, hpa, hreg, hread, hother⟩, hrest⟩

end Sys2Proof.Machine

/-! ## The coprocessor-0 statements (spec/46_kernel_cp0.md): MFC0, MTC0, TLBR, RFE and WAIT

Where coprocessor 0 is usable, each of these instructions is one update of the state. The pair of register and select picks
the register that `MFC0` reads and `MTC0` writes; the write's next state is said once for all registers (`cp0Written`), and
what such an update keeps is said once for all of them (`kernelKeeps_advance_cp0`). -/

namespace Sys2Proof.Machine

/-! ### What an update of coprocessor 0 keeps -/

/-- Going on with coprocessor-0 registers changed keeps everything outside coprocessor 0. -/
theorem kernelKeeps_advance_cp0 (s : State) (index : IndexReg) (tlblo : TlbLo) (context : ContextReg) (tlbhi : TlbHi)
    (status : Status) (cause : Cause) :
    KernelKeeps s (advance { s with
      index := index, tlblo := tlblo, context := context, tlbhi := tlbhi, status := status, cause := cause }) :=
  ⟨⟨rfl, rfl, rfl⟩, fun _ => rfl, ⟨rfl, rfl⟩, ⟨rfl, rfl⟩, fun _ => rfl, ⟨rfl, rfl, rfl, rfl, rfl⟩⟩

/-! ### `MFC0` (R381, R383) -/

theorem exec_mfc0_of_reg {s : State} {rd : Reg} {sel : BitVec 3} {r : Cp0Reg} (hu : cp0Usable s = true)
    (hr : cp0Reg s.cfg rd sel = some r) (rt : Reg) :
    exec (.mfc0 rt rd sel) s = .next (advance (setReg (countRead s r) rt (cp0Read s r))) := by
  change execMfc0 rt rd sel s = _
  rw [execMfc0, cp0Guard_of_usable hu, hr]

/-- The named register goes to `rt`, and nothing else changes. -/
theorem mfc0_reads {s : State} {rd : Reg} {sel : BitVec 3} {r : Cp0Reg} (hu : cp0Usable s = true)
    (hr : cp0Reg s.cfg rd sel = some r) (rt : Reg) :
    ∃ t, exec (.mfc0 rt rd sel) s = .next t ∧ RegOnly s t rt (cp0Read s r) :=
  ⟨_, exec_mfc0_of_reg hu hr rt, regOnly_advance_setReg_countRead s r rt _⟩

/-- The select counts on V2 only (R383). -/
theorem cp0Reg_eq (c : Config) (rd : Reg) (sel : BitVec 3) :
    cp0Reg c rd sel = cp0RegAt rd (if c.version = .v2 then sel else 0#3) := by
  simp [cp0Reg, Config.hasSelect]

theorem pridValue_eq (c : Config) :
    pridValue c = if c.version = .v2 then 0x000000a1#32 else 0x000003ff#32 := by
  cases h : c.version <;> simp [pridValue, h]

/-- RANDOM shows its slot in bits 13:8 and 0 elsewhere. -/
theorem randomWord_toNat (slot : Slot) : (randomWord slot).toNat = slot.toNat * 256 := by
  simp only [randomWord, toNat_append_mul, BitVec.toNat_ofNat]
  omega

/-- A read of RANDOM shows some slot in 8..63 (spec/10_state.md R35). -/
theorem cp0Read_random (s : State) :
    8 ≤ (cp0Read s .random).toNat / 256 ∧ (cp0Read s .random).toNat / 256 ≤ 63 ∧
      (cp0Read s .random).toNat % 256 = 0 := by
  have hread : (cp0Read s .random).toNat = (randomSlot s.draws).toNat * 256 := randomWord_toNat _
  have hlow := randomSlot_ge s.draws
  have hhigh := (randomSlot s.draws).isLt
  omega

/-- Settles O44: the pair picks the register, and `MFC0` reads it. -/
theorem mfc0Reads : Obligations.Mfc0Reads := by
  intro s rt rd sel sl hu hsel
  have hread {num : Reg} {n : BitVec 3} (hrd : rd = num) (hsl : sl = n) (r : Cp0Reg) (hr : cp0RegAt num n = some r) :
      ∃ t, exec (.mfc0 rt rd sel) s = .next t ∧ RegOnly s t rt (cp0Read s r) :=
    mfc0_reads hu (by rw [cp0Reg_eq, ← hsel, hrd, hsl, hr]) rt
  refine ⟨fun p hp hrd hsl => ?_, fun hrd hsl => ?_⟩
  · fin_cases hp
    · exact hread hrd hsl .index rfl
    · exact hread hrd hsl .tlblo rfl
    · exact hread hrd hsl .context rfl
    · exact hread hrd hsl .badvaddr rfl
    · exact hread hrd hsl .tlbhi rfl
    · exact hread hrd hsl .status rfl
    · exact hread hrd hsl .cause rfl
    · exact hread hrd hsl .epc rfl
    · exact pridValue_eq s.cfg ▸ hread hrd hsl .prid rfl
    · exact hread hrd hsl .cfeat rfl
    · exact hread hrd hsl .ifeat rfl
  · obtain ⟨t, ht, hreg⟩ := hread hrd hsl .random rfl
    exact ⟨t, _, ht, hreg, cp0Read_random s⟩

/-! ### `MTC0` (R382) -/

/-- The next state of a write of `v` to `r` that has an effect: the writable fields of `r` change, and it goes on. -/
def cp0Written (s : State) (r : Cp0Reg) (v : Word) : State :=
  advance { s with
    index := if r = .index then { s.index with slot := slotField v } else s.index
    tlblo := if r = .tlblo then TlbLo.ofWord v else s.tlblo
    context := if r = .context then { s.context with ptbase := ptbaseField v } else s.context
    tlbhi := if r = .tlbhi then TlbHi.ofWord v else s.tlbhi
    status := if r = .status then Status.ofWord v else s.status
    cause := if r = .cause then { s.cause with f := softField v } else s.cause }

/-- A write that clears W and I and sets T, S and N only where they are set already: the writes to STATUS that have an
effect (spec/10_state.md R41, R42). -/
def StatusWritable (old : Status) (v : Word) : Prop :=
  v.getLsbD 17 = false ∧ v.getLsbD 16 = false ∧ (v.getLsbD 21 = true → old.t = true) ∧
    (v.getLsbD 20 = true → old.s = true) ∧ (v.getLsbD 19 = true → old.n = true)

/-- Such a write to STATUS neither shuts down nor is refused. -/
theorem writeStatus_of_writable {s : State} {v : Word} (h : StatusWritable s.status v) :
    writeStatus s v = .next (advance { s with status := Status.ofWord v }) := by
  obtain ⟨hw, hi, ht, hs, hn⟩ := h
  have hset : setsStatusFlag s.status v = false := by
    simp only [setsStatusFlag, Bool.or_eq_false_iff, Bool.and_eq_false_imp, Bool.not_eq_false']
    exact ⟨⟨ht, hs⟩, hn⟩
  rw [writeStatus, hw, hi, hset]
  rfl

/-- Every write but the ones that stop leads to the next state above. -/
theorem cp0Write_eq_next {s : State} {r : Cp0Reg} {v : Word} (hrandom : r ≠ .random)
    (hstatus : r = .status → StatusWritable s.status v) : cp0Write s r v = .next (cp0Written s r v) := by
  cases r with
  | random => exact absurd rfl hrandom
  | status => exact writeStatus_of_writable (hstatus rfl)
  | index | tlblo | context | tlbhi | cause | badvaddr | epc | prid | cfeat | ifeat => rfl

/-- Settles O46: `MTC0` is the write of the register its pair names, whose next state is `cp0Written`. -/
theorem mtc0Writes : Obligations.Mtc0Writes := by
  rintro s rt rd sel r v hu hr rfl hrandom hstatus
  exact ⟨cp0Written s r (readReg s rt), (exec_mtc0_of_reg hu hr rt).trans (cp0Write_eq_next hrandom hstatus),
    kernelKeeps_advance_cp0 s _ _ _ _ _ _, rfl, rfl, rfl, rfl, rfl, rfl, rfl, rfl, rfl⟩

/-! ### `TLBR` (R385) -/

theorem exec_tlbr_of_usable {s : State} (h : cp0Usable s = true) :
    exec .tlbr s = .next (advance { s with
      tlbhi := (tlbAt s.tlb s.index.slot).hi, tlblo := (tlbAt s.tlb s.index.slot).lo }) := cp0Guard_of_usable h _

/-- Settles O49: TLBHI and TLBLO are the two halves of the entry; the guard decides between that and CPU(0). -/
theorem tlbrReadsEntry : Obligations.TlbrReadsEntry := by
  refine ⟨rfl, fun s => ⟨fun hu => ?_, fun hno => cp0Guard_of_unusable hno _⟩⟩
  exact ⟨_, exec_tlbr_of_usable hu, rfl, rfl, rfl, rfl, rfl, rfl, rfl, rfl, rfl, rfl, rfl, ⟨rfl, rfl, rfl⟩,
    kernelKeeps_advance_cp0 s _ _ _ _ _ _⟩

/-! ### `RFE` and `WAIT` (R392, R394) -/

theorem exec_rfe_of_usable {s : State} (h : cp0Usable s = true) :
    exec .rfe s = .next (advance (returnFromException s)) := cp0Guard_of_usable h _

theorem exec_wait_of_usable {s : State} (h : cp0Usable s = true) :
    exec .wait s = .next { advance s with idle := s.irq == 0#6 } := cp0Guard_of_usable h _

/-- The shift back, on the whole word: bits 3:0 receive bits 5:2, and every other bit stays. -/
theorem Status.toWord_pop (r : Status) :
    r.pop.toWord = (r.toWord &&& 0xfffffff0#32) ||| ((r.toWord &&& 0x0000003c#32) >>> 2) := by
  refine BitVec.eq_of_getLsbD_eq fun i hi => ?_
  simp only [Status.toWord, Status.pop, BitVec.getLsbD_or, BitVec.getLsbD_and, BitVec.getLsbD_ushiftRight,
    BitVec.getLsbD_append, BitVec.getLsbD_ofBool]
  interval_cases i <;> simp

/-- Settles O53: RFE pops the mode stack and goes on; WAIT goes on with `idle` set where no line is active. -/
theorem rfeAndWait : Obligations.RfeAndWait := by
  refine fun s hu => ⟨?rfe, ?wait⟩
  case rfe =>
    exact ⟨_, exec_rfe_of_usable hu, s.status.toWord_pop, ⟨rfl, rfl, rfl, rfl, rfl, rfl⟩, rfl, rfl,
      kernelKeeps_advance_cp0 s _ _ _ _ _ _⟩
  case wait =>
    obtain ⟨hgo, hregs, hhilo, hcp0, hres, hmem, -, hrest⟩ := nothingElse_advance s
    exact ⟨_, exec_wait_of_usable hu, beq_eq_decide _ _, hgo, hregs, hhilo, hcp0, hres, hmem, hrest⟩

/-- Trap entry enters kernel mode, where coprocessor 0 is usable. -/
theorem cp0Usable_trapEntry (e : Exception) (s : State) : cp0Usable (trapEntry e s) = true :=
  (cp0Usable_iff _).2 (.inl (by rw [trapEntry_status]; rfl))

/-- The shift back undoes trap entry's shift but for the old pair, which now holds the previous one. -/
theorem Status.pop_push (r : Status) : r.push.pop = { r with kuo := r.kup, ieo := r.iep } := rfl

/-- Settles O15: RFE pops what trap entry pushed. -/
theorem rfeUndoesTrapEntry : Obligations.RfeUndoesTrapEntry := by
  intro e s
  have hstatus : (trapEntry e s).status.pop = { s.status with kuo := s.status.kup, ieo := s.status.iep } := by
    rw [trapEntry_status, Status.pop_push]
  exact ⟨_, exec_rfe_of_usable (cp0Usable_trapEntry e s), hstatus, rfl, rfl, rfl⟩

end Sys2Proof.Machine

/-! ## The exception statements (spec/60_exceptions.md): interrupts, trap entry, the return, and what user mode can do

What trap entry leaves in each field is known field by field (`trapEntry_status` and its like), so that the statements about
it are about the shift of the mode stack, the vectors, and which access can raise a UTLB exception. The confinement of user
mode follows from what a step can do (`step_next_cases`). -/

namespace Sys2Proof.Machine

/-! ### What user mode can do (R470, R471) -/

/-- An instruction that retires with coprocessor 0 not usable leaves coprocessor 0, the lines and the parameters alone. -/
theorem Retires.of_unusable {s t : State} (h : Retires s t) (hno : cp0Usable s = false) :
    SameCp0 s t ∧ SameOutside s t := by
  have hidle : t.idle = s.idle := h.idle.resolve_right (by simp [hno])
  exact ⟨h.cp0.resolve_right (by simp [hno]), hidle, h.shutdown, h.irq, h.inputs, h.cfg⟩

/-- With coprocessor 0 not usable an instruction traps, shuts the processor down, or leaves coprocessor 0 alone. -/
theorem Outcomes.of_unusable {s t : State} (h : Outcomes s t) (hno : cp0Usable s = false) :
    (∃ e, t = trapEntry e s) ∨ t = shutDown s ∨ (SameCp0 s t ∧ SameOutside s t) := by
  rcases h with htrap | (hdown | ⟨-, hu⟩) | hretires
  · exact .inl htrap
  · exact .inr (.inl hdown)
  · simp [hno] at hu
  · exact .inr (.inr (hretires.of_unusable hno))

/-- Settles O59: a sleeping processor changes nothing, and an instruction of user mode has no outcome but these. -/
theorem userModeIsConfined : Obligations.UserModeIsConfined := by
  intro s t huser hno hstep
  obtain ⟨-, ⟨-, rfl⟩ | ⟨k, hout⟩⟩ := step_next_cases hstep
  · exact .inl ⟨sameCp0_refl _, huser, rfl, rfl, rfl, rfl, rfl⟩
  rcases hout.of_unusable hno with ⟨e, rfl⟩ | rfl | ⟨hcp0, -, hrest⟩
  · exact .inr (.inl ⟨e, k, rfl⟩)
  · exact .inr (.inr ⟨k, rfl⟩)
  · have ⟨_, hstatus, _⟩ := hcp0
    exact .inl ⟨hcp0, (congrArg Status.kuc hstatus).trans huser, rfl, hrest⟩

/-! ### Interrupts (R450, R451) -/

/-- Two bit masks meet exactly when some bit is set in both. -/
theorem and_bne_zero_iff {w : Nat} (x y : BitVec w) :
    ((x &&& y) != 0#w) = true ↔ ∃ n, x.getLsbD n = true ∧ y.getLsbD n = true := by
  rw [bne_iff_ne]
  constructor
  · intro hne
    by_contra hno
    refine hne (BitVec.eq_of_getLsbD_eq fun n _ => ?_)
    rw [BitVec.getLsbD_and, BitVec.getLsbD_zero, ← Bool.not_eq_true, Bool.and_eq_true]
    exact fun hn => hno ⟨n, hn⟩
  · rintro ⟨n, hx, hy⟩ hzero
    have hn : (x &&& y).getLsbD n = true := by rw [BitVec.getLsbD_and, hx, hy]; rfl
    simp [hzero] at hn

/-- Interrupts are enabled, and some hardware or software line is active and enabled (R450). -/
theorem interruptPending_iff (s : State) :
    interruptPending s = true ↔
      s.status.iec = true ∧ ((∃ n, s.irq.getLsbD n = true ∧ s.status.h.getLsbD n = true) ∨
        ∃ n, s.cause.f.getLsbD n = true ∧ s.status.f.getLsbD n = true) := by
  rw [interruptPending, Bool.and_eq_true, Bool.or_eq_true, and_bne_zero_iff, and_bne_zero_iff]

/-- Settles O9: an awake processor asks for a pending interrupt first, and fetches without one. -/
theorem interruptTakenBeforeFetch : Obligations.InterruptTakenBeforeFetch := by
  rintro s b rfl hup hawake
  rw [step, stepAfterEvents_of_awake hup hawake, ← interruptPending_iff]
  exact ⟨fun hpending => if_pos hpending, fun hnone => if_neg hnone⟩

/-! ### The mode stack (R444) -/

/-- Trap entry's shift, on the whole word: bits 5:0 become bits 3:0 and two zeros, and every other bit stays. -/
theorem Status.toWord_push (r : Status) :
    r.push.toWord = (r.toWord &&& 0xffffffc0#32) ||| ((r.toWord &&& 0x0000000f#32) <<< 2) := by
  refine BitVec.eq_of_getLsbD_eq fun i hi => ?_
  simp only [Status.toWord, Status.push, BitVec.getLsbD_or, BitVec.getLsbD_and, BitVec.getLsbD_shiftLeft,
    BitVec.getLsbD_append, BitVec.getLsbD_ofBool]
  interval_cases i <;> simp

/-- Settles O12: trap entry pushes the mode stack. -/
theorem trapShiftsModeStack : Obligations.TrapShiftsModeStack := by
  intro e s
  rw [trapEntry_status]
  exact ⟨s.status.toWord_push, rfl, rfl, rfl, rfl, rfl, rfl⟩

/-! ### The vectors, and the accesses that raise a UTLB exception (R445) -/

theorem vector_eq (b utlb : Bool) :
    vector b utlb = if b then (if utlb then 0xbfc00100#32 else 0xbfc00180#32)
      else (if utlb then 0x80000000#32 else 0x80000080#32) := by
  cases b <;> cases utlb <;> rfl

/-- Only TLBL and TLBS go through the UTLB vector. -/
theorem Exception.code_of_isUtlb {e : Exception} (h : e.isUtlb = true) : e.code = 2#4 ∨ e.code = 3#4 := by
  cases e with
  | tlbl va utlb => exact .inl rfl
  | tlbs va utlb => exact .inr rfl
  | irq | mod | adel | ades | ibe | dbe | sys | bp | ri | cpu | ovf => cases h

theorem tlbError_isUtlb (k : AccessKind) (va : Word) (utlb : Bool) : (tlbError k va utlb).isUtlb = utlb := by
  cases k <;> rfl

theorem tlbError_code (k : AccessKind) (va : Word) (utlb : Bool) :
    (tlbError k va utlb).code = 2#4 ∨ (tlbError k va utlb).code = 3#4 := by
  cases k
  case store => exact .inr rfl
  case fetch | load => exact .inl rfl

/-- What an access raises: a TLB miss, what the one matching entry raises, an address error or a bus error. -/
theorem memAddress_raise_cases {s : State} {va : Word} {k : AccessKind} {n : Nat} {c : Bool} {e : Exception}
    (h : memAddress s va k n c = .raise e) :
    ((∀ i, (tlbAt s.tlb i).hits (pageOf va) s.tlbhi.asid = false) ∧ e = tlbError k va (!va.msb)) ∨
      ((∃ i, (tlbAt s.tlb i).hits (pageOf va) s.tlbhi.asid = true) ∧ (e = tlbError k va false ∨ e = .mod va)) ∨
      e = addressError k va ∨ e = busError k := by
  rcases (memAddress_raise_iff ..).1 h with h | ⟨-, -, -, hbus⟩
  case inr => exact .inr (.inr (.inr hbus))
  rcases translate_cases s va k n c with ⟨-, ht⟩ | ⟨-, -, ht⟩ | ⟨-, -, ht⟩ <;> rw [ht] at h
  · exact .inr (.inr (.inl (Access.raise.inj h).symm))
  · cases h
  rcases translateMapped_cases s va k with ⟨hmiss, hm⟩ | ⟨i, hi, hm⟩ | ⟨-, hm⟩ <;> rw [hm] at h
  · exact .inl ⟨hmiss, (Access.raise.inj h).symm⟩
  · refine .inr (.inl ⟨⟨i, (hi i).2 rfl⟩, ?_⟩)
    split_ifs at h
    · exact .inl (Access.raise.inj h).symm
    · exact .inr (Access.raise.inj h).symm
  · cases h

/-- An access raises a UTLB exception exactly on a TLB miss at an address with bit 31 clear that no entry matches. -/
theorem isUtlb_iff_of_memAddress_raise {s : State} {va : Word} {k : AccessKind} {n : Nat} {c : Bool} {e : Exception}
    (h : memAddress s va k n c = .raise e) :
    e.isUtlb = true ↔ (e.code = 2#4 ∨ e.code = 3#4) ∧ va.msb = false ∧
      ∀ i, (tlbAt s.tlb i).hits (pageOf va) s.tlbhi.asid = false := by
  rcases memAddress_raise_cases h with ⟨hmiss, rfl⟩ | ⟨⟨i, hi⟩, he⟩ | he
  case inl =>
    rw [tlbError_isUtlb, Bool.not_eq_true']
    exact ⟨fun hmsb => ⟨tlbError_code .., hmsb, hmiss⟩, fun ⟨_, hmsb, _⟩ => hmsb⟩
  case inr.inl =>
    have hutlb : e.isUtlb = false := by
      rcases he with rfl | rfl
      · exact tlbError_isUtlb ..
      · rfl
    exact iff_of_false (by simp [hutlb]) fun ⟨_, _, hmiss⟩ => by simp [hmiss i] at hi
  case inr.inr =>
    have hcode : ¬ (e.code = 2#4 ∨ e.code = 3#4) := by
      rcases he with rfl | rfl <;> cases k <;> simp [addressError, busError, Exception.code]
    exact iff_of_false (mt Exception.code_of_isUtlb hcode) fun ⟨hmiss, _⟩ => hcode hmiss

/-- Settles O13: trap entry's pc is the vector; which exceptions of an access are UTLB is said above. -/
theorem trapGoesToVector : Obligations.TrapGoesToVector := by
  refine ⟨fun e s => ⟨?_, ?_, trapEntry_inDelay e s, Exception.code_of_isUtlb⟩,
    fun s va k n c e => isUtlb_iff_of_memAddress_raise⟩
  · rw [trapEntry_pc, vector_eq]
  · rw [trapEntry_npc, trapEntry_pc]

/-! ### The return sequence (R455) -/

/-- Settles O16: the jump leaves the address pending, and RFE in its delay slot goes on there with the mode stack popped. -/
theorem returnSequence : Obligations.ReturnSequence := by
  intro s k hslot hkernel
  have hjump : exec (.jr k) s = .next (branch s true (readReg s k)) :=
    if_neg (by simp [hslot])
  have husable : cp0Usable (branch s true (readReg s k)) = true := (cp0Usable_iff _).2 (.inl hkernel)
  exact ⟨_, _, hjump, exec_rfe_of_usable husable, rfl, rfl, rfl, rfl, fun _ => rfl, ⟨rfl, rfl⟩,
    ⟨rfl, rfl, rfl, rfl, rfl, rfl⟩, rfl, rfl, ⟨rfl, rfl⟩, fun _ => rfl, ⟨rfl, rfl, rfl, rfl, rfl⟩⟩

/-! ### What trap entry records and what it leaves (R440 to R443, R446, R447) -/

/-- EPC is the pc, or the branch four bytes before it where BD is set (R441). -/
theorem trapEntry_epc_add (e : Exception) (s : State) :
    (trapEntry e s).epc + (if (trapEntry e s).cause.bd then 4#32 else 0#32) = s.pc := by
  rw [trapEntry_epc, trapEntry_cause]
  cases hslot : s.inDelay
  · exact BitVec.add_zero _
  · exact BitVec.sub_add_cancel _ _

/-- The exceptions with a bad address are codes 1 to 5 (R424). -/
theorem Exception.code_of_badAddress {e : Exception} {va : Word} (h : e.badAddress = some va) :
    1 ≤ e.code.toNat ∧ e.code.toNat ≤ 5 := by
  cases e with
  | mod | tlbl | tlbs | adel | ades => simp [Exception.code]
  | irq | ibe | dbe | sys | bp | ri | cpu | ovf => cases h

/-- The exceptions without one are code 0 and codes 6 to 12. -/
theorem Exception.code_of_no_badAddress {e : Exception} (h : e.badAddress = none) :
    e.code.toNat = 0 ∨ 6 ≤ e.code.toNat ∧ e.code.toNat ≤ 12 := by
  cases e with
  | mod | tlbl | tlbs | adel | ades => cases h
  | irq | ibe | dbe | sys | bp | ri | cpu | ovf => simp [Exception.code]

/-- Settles O11: EPC and BD, the codes by the exception, and the three registers by whether it has a bad address. -/
theorem trapRecordsTheEvent : Obligations.TrapRecordsTheEvent := by
  intro e s
  refine ⟨trapEntry_epc_add e s, ?bd, ?exc, ?code, ?address, ?ce, fun va hva => ?bad, fun hnone => ?none⟩
  case bd => rw [trapEntry_cause]
  case exc => cases e <;> rfl
  case code => rw [trapEntry_cause]
  case address => cases e <;> rfl
  case ce => rintro z rfl; rfl
  case bad =>
    obtain ⟨hlow, hhigh⟩ := Exception.code_of_badAddress hva
    rw [trapEntry_badvaddr, trapEntry_tlbhi, trapEntry_context, hva]
    exact ⟨hlow, hhigh, rfl, rfl, rfl⟩
  case none =>
    rw [trapEntry_badvaddr, trapEntry_tlbhi, trapEntry_context, hnone]
    exact ⟨Exception.code_of_no_badAddress hnone, rfl, rfl, rfl⟩

/-- Settles O14: the fields trap entry does not write, one by one. -/
theorem trapKeepsTheRest : Obligations.TrapKeepsTheRest := by
  intro e s
  refine ⟨readReg_trapEntry e s, ⟨trapEntry_hi e s, trapEntry_lo e s⟩, fun a => ?mem, ?outside, trapEntry_tlb e s,
    trapEntry_index e s, trapEntry_tlblo e s, ?asid, ?ptbase, ?f, trapEntry_llbit e s, trapEntry_lladdr e s⟩
  case mem => rw [trapEntry_mem]
  case outside =>
    exact ⟨trapEntry_idle e s, trapEntry_shutdown e s, trapEntry_irq e s, trapEntry_inputs e s, trapEntry_cfg e s⟩
  case asid => rw [trapEntry_tlbhi]
  case ptbase => rw [trapEntry_context]
  case f => rw [trapEntry_cause]

end Sys2Proof.Machine
